-- ==== Sys2Proof/Word.lean ====
section
/-! DEFINITION. The two word types of the block (00_scope.md R8): bytes and 32-bit words. -/

namespace Sys2Proof

/-- A byte, an integer in 0..255 (R8). -/
abbrev Byte := BitVec 8

/-- A word, an integer in 0..2^32-1 (R8): the row patterns of a glyph table (R23). -/
abbrev Word := BitVec 32

end Sys2Proof
end

