-- ==== Sys2Proof/Config.lean ====
section
/-! DEFINITION. The implementation parameters of 00_scope.md R5, as a record that construction fixes and no
operation changes (R21), and the model's free values: constants without a body, so that no proof can see them.
DESIGN CHOICE (log 1): the record is a field of State, since the host's interface gives `step` no other argument. -/

namespace Sys2Proof

/-- A font record (R23). `table` holds `height` row patterns per glyph, glyphs in code order from 32. -/
structure Font where
  width  : Int
  height : Int
  table  : List Word
  deriving DecidableEq, Repr

/-- CMD_SPLIT (R5, R63, D11): how a controller command is cut into transfers. -/
inductive CmdSplit where
  | perCommand
  | perByte
  deriving DecidableEq, Repr, Inhabited

/-- CMDTAB (R65): the opcode byte of each controller command, and the three dummy bytes of the scroll setup (R86). -/
structure CmdTab where
  displayOff          : Byte
  displayOn           : Byte
  setMultiplex        : Byte
  setDisplayOffset    : Byte
  setStartLine        : Byte
  segRemapOn          : Byte
  segRemapOff         : Byte
  comScanRemapped     : Byte
  comScanNormal       : Byte
  setComPins          : Byte
  setContrast         : Byte
  entireDisplayResume : Byte
  entireDisplayOn     : Byte
  normalDisplay       : Byte
  invertDisplay       : Byte
  setClockDiv         : Byte
  chargePump          : Byte
  memoryMode          : Byte
  columnAddr          : Byte
  pageAddr            : Byte
  scrollSetupRight    : Byte
  scrollSetupLeft     : Byte
  scrollActivate      : Byte
  scrollDeactivate    : Byte
  scrollDummy1        : Byte
  scrollDummy5        : Byte
  scrollDummy6        : Byte
  deriving DecidableEq, Repr

/-- The parameters of R5. PAGES and FBSIZE are derived (Machine/Params.lean). -/
structure Config where
  w           : Nat
  h           : Nat
  addr        : Nat
  busId       : Nat
  cmdtab      : CmdTab
  contrast    : Byte
  compins     : Byte
  clkdiv      : Byte
  chgpump     : Byte
  addrmode    : Byte
  split       : CmdSplit
  defaultFont : Font
  deriving DecidableEq, Repr

/-- Free value (R35, D8; log 7): the byte at a framebuffer address after construction, for each construction. -/
opaque Config.constructionDraw : Nat → Nat → Byte

/-- Free value (R5, D11; log 4): the OPEN CMD_SPLIT of the block that `State.reset` constructs. -/
opaque Config.cmdSplit : CmdSplit

/-- Free value (R5, D39; log 5): the opaque bus identifier its caller supplied. -/
opaque Config.busIdOfCaller : Nat

/-- Free value (R127, D35; log 6): the OPEN row patterns of the built-in font, by table index. -/
opaque Config.defaultGlyphRow : Nat → Word

/-- Free value (R127, D35; log 6): how many glyphs the built-in font has beyond the 32 that R127 promises. -/
opaque Config.defaultGlyphsBeyond : Nat

end Sys2Proof
end

