-- ==== Sys2Proof/Syntax.lean ====
section
/-! DEFINITION. The instructions: one constructor per row of spec/opcode_table.json. Coordinates are the
mathematical integers of R8; their I32 range is a check of WellFormed. -/

namespace Sys2Proof

/-- The rows of the opcode table in its three formats. -/
inductive Instr where
  -- HOSTOP: the host operations (R60)
  | prepare
  | setPixel (x y : Int) (on : Bool)
  | drawLine (x0 y0 x1 y1 : Int) (on : Bool)
  | drawRect (x y w h : Int) (on : Bool)
  | setFont (font : Option Font)
  | drawChar (x y : Int) (c : Byte)
  | drawText (x y : Int) (text : List Byte)
  | initialise
  | write
  | clearScreen
  | startScroll (left : Bool)
  | stopScroll
  -- CTRLCMD: the controller commands (R65 to R89), with the parameter bytes that follow the opcode
  | displayOff
  | displayOn
  | setMultiplex (ratio : Byte)
  | setDisplayOffset (offset : Byte)
  | setStartLine (line : BitVec 6)
  | segRemapOn
  | segRemapOff
  | comScanRemapped
  | comScanNormal
  | setComPins (pins : Byte)
  | setContrast (level : Byte)
  | entireDisplayResume
  | entireDisplayOn
  | normalDisplay
  | invertDisplay
  | setClockDiv (div : Byte)
  | chargePump (setting : Byte)
  | memoryMode (mode : Byte)
  | columnAddr (first last : Byte)
  | pageAddr (first last : Byte)
  | scrollSetupRight (startPage interval endPage : Byte)
  | scrollSetupLeft (startPage interval endPage : Byte)
  | scrollActivate
  | scrollDeactivate
  -- WIRECTRL: one transfer, by its control byte (R62)
  | ctrlCommand (rest : List Byte)
  | ctrlData (payload : List Byte)
  deriving DecidableEq, Repr

/-- The three formats of the opcode table; each has a decoder of its own, since they share byte values (log 21). -/
inductive Lane where
  | request
  | command
  | transfer
  deriving DecidableEq, Repr

/-- The format of an instruction's row. -/
def laneOf : Instr → Lane
  | .prepare => .request
  | .setPixel _ _ _ => .request
  | .drawLine _ _ _ _ _ => .request
  | .drawRect _ _ _ _ _ => .request
  | .setFont _ => .request
  | .drawChar _ _ _ => .request
  | .drawText _ _ _ => .request
  | .initialise => .request
  | .write => .request
  | .clearScreen => .request
  | .startScroll _ => .request
  | .stopScroll => .request
  | .displayOff => .command
  | .displayOn => .command
  | .setMultiplex _ => .command
  | .setDisplayOffset _ => .command
  | .setStartLine _ => .command
  | .segRemapOn => .command
  | .segRemapOff => .command
  | .comScanRemapped => .command
  | .comScanNormal => .command
  | .setComPins _ => .command
  | .setContrast _ => .command
  | .entireDisplayResume => .command
  | .entireDisplayOn => .command
  | .normalDisplay => .command
  | .invertDisplay => .command
  | .setClockDiv _ => .command
  | .chargePump _ => .command
  | .memoryMode _ => .command
  | .columnAddr _ _ => .command
  | .pageAddr _ _ => .command
  | .scrollSetupRight _ _ _ => .command
  | .scrollSetupLeft _ _ _ => .command
  | .scrollActivate => .command
  | .scrollDeactivate => .command
  | .ctrlCommand _ => .transfer
  | .ctrlData _ => .transfer

/-- Why a request, or a construction, has no meaning (R176). -/
inductive RefuseReason where
  | unassignedOpcode      -- R91
  | malformedRequest      -- R61
  | illFormedFont         -- R121
  | geometryOutOfDomain   -- R190
  | concurrentCall        -- R187
  deriving DecidableEq, Repr

end Sys2Proof
end

