-- ==== Sys2Proof/WellFormed.lean ====
section
/-! DEFINITION. Which instructions an encoding can hold (R61, R62): the ranges of the operand types. -/

namespace Sys2Proof

/-- An `I32`: -2^31 .. 2^31 - 1 (R61). -/
def isI32 (x : Int) : Bool := decide (-2147483648 ≤ x) && decide (x ≤ 2147483647)

/-- A present `FONTREF` (R61): I32 sizes and a `U32` word count. Whether the record is admitted as a font is
R121's question, not the encoding's. -/
def isFontRef (f : Font) : Bool := isI32 f.width && isI32 f.height && decide (f.table.length < 4294967296)

/-- The instruction has an encoding. A `STR` has a `U16` length (R61); a transfer carries something after its
control byte (R49, R62), a data transfer 1 to 16 bytes (R64). -/
def wellFormed : Instr → Bool
  | .prepare => true
  | .setPixel x y _ => isI32 x && isI32 y
  | .drawLine x0 y0 x1 y1 _ => isI32 x0 && isI32 y0 && isI32 x1 && isI32 y1
  | .drawRect x y w h _ => isI32 x && isI32 y && isI32 w && isI32 h
  | .setFont none => true
  | .setFont (some f) => isFontRef f
  | .drawChar x y _ => isI32 x && isI32 y
  | .drawText x y text => isI32 x && isI32 y && decide (text.length < 65536)
  | .initialise => true
  | .write => true
  | .clearScreen => true
  | .startScroll _ => true
  | .stopScroll => true
  | .displayOff => true
  | .displayOn => true
  | .setMultiplex _ => true
  | .setDisplayOffset _ => true
  | .setStartLine _ => true
  | .segRemapOn => true
  | .segRemapOff => true
  | .comScanRemapped => true
  | .comScanNormal => true
  | .setComPins _ => true
  | .setContrast _ => true
  | .entireDisplayResume => true
  | .entireDisplayOn => true
  | .normalDisplay => true
  | .invertDisplay => true
  | .setClockDiv _ => true
  | .chargePump _ => true
  | .memoryMode _ => true
  | .columnAddr _ _ => true
  | .pageAddr _ _ => true
  | .scrollSetupRight _ _ _ => true
  | .scrollSetupLeft _ _ _ => true
  | .scrollActivate => true
  | .scrollDeactivate => true
  | .ctrlCommand rest => decide (1 ≤ rest.length)
  | .ctrlData payload => decide (1 ≤ payload.length) && decide (payload.length ≤ 16)

end Sys2Proof
end

