-- ==== Sys2Proof/Decode.lean ====
section
/-! DEFINITION. Decoding, total on any bytes and rejecting by name, and after it the encoder, both written from
30_encoding.md. Three decoders, one per format of the opcode table: host requests (R60, R61), controller commands
(R65 to R89, at the default table), transfers (R62). -/

namespace Sys2Proof

/-! ### Operand types (R61) -/

/-- `b0 + 256*b1 + 65536*b2 + 16777216*b3`, little-endian (R61). -/
def u32 (b0 b1 b2 b3 : Byte) : Word :=
  BitVec.ofNat 32 (b0.toNat + 256 * b1.toNat + 65536 * b2.toNat + 16777216 * b3.toNat)

/-- `I32`: the four bytes read as two's complement (R61). -/
def readI32 : List Byte → Option (Int × List Byte)
  | b0 :: b1 :: b2 :: b3 :: rest => some ((u32 b0 b1 b2 b3).toInt, rest)
  | _ => none

/-- `U32`: the four bytes read unsigned (R61). -/
def readU32 : List Byte → Option (Nat × List Byte)
  | b0 :: b1 :: b2 :: b3 :: rest => some ((u32 b0 b1 b2 b3).toNat, rest)
  | _ => none

/-- `BOOL`: 0x00 false, 0x01 true, nothing else (R61). -/
def readBool : List Byte → Option (Bool × List Byte)
  | b :: rest => if b = 0x00#8 then some (false, rest) else if b = 0x01#8 then some (true, rest) else none
  | [] => none

/-- `CHR`: one byte (R61). -/
def readChr : List Byte → Option (Byte × List Byte)
  | b :: rest => some (b, rest)
  | [] => none

/-- `STR`: a `U16` length, then that many bytes (R61). -/
def readStr : List Byte → Option (List Byte × List Byte)
  | b0 :: b1 :: rest =>
    let n := b0.toNat + 256 * b1.toNat
    if n ≤ rest.length then some (rest.take n, rest.drop n) else none
  | _ => none

/-- The `U32` words of a byte sequence, four bytes each. -/
def wordsOf : List Byte → List Word
  | b0 :: b1 :: b2 :: b3 :: rest => u32 b0 b1 b2 b3 :: wordsOf rest
  | _ => []

/-- `FONTREF`: a tag, and for a present font its sizes, its word count and its words (R61). -/
def readFontRef : List Byte → Option (Option Font × List Byte)
  | b :: rest =>
    if b = 0x00#8 then some (none, rest)
    else if b = 0x01#8 then do
      let (w, r1) ← readI32 rest
      let (h, r2) ← readI32 r1
      let (n, r3) ← readU32 r2
      if 4 * n ≤ r3.length then some (some ⟨w, h, wordsOf (r3.take (4 * n))⟩, r3.drop (4 * n)) else none
    else none
  | [] => none

/-! ### Host requests -/

/-- The operands that follow opcode `op` (R60), with what is left of the message. `none`: the opcode is unassigned
(R91). `some none`: the message does not hold the operands (R61). -/
def parseOperands (op : Nat) (bs : List Byte) : Option (Option (Instr × List Byte)) :=
  match op with
  | 0x01 => some (some (.prepare, bs))
  | 0x02 => some do
      let (x, r) ← readI32 bs
      let (y, r) ← readI32 r
      let (on, r) ← readBool r
      some (.setPixel x y on, r)
  | 0x03 => some do
      let (x0, r) ← readI32 bs
      let (y0, r) ← readI32 r
      let (x1, r) ← readI32 r
      let (y1, r) ← readI32 r
      let (on, r) ← readBool r
      some (.drawLine x0 y0 x1 y1 on, r)
  | 0x04 => some do
      let (x, r) ← readI32 bs
      let (y, r) ← readI32 r
      let (w, r) ← readI32 r
      let (h, r) ← readI32 r
      let (on, r) ← readBool r
      some (.drawRect x y w h on, r)
  | 0x05 => some do
      let (f, r) ← readFontRef bs
      some (.setFont f, r)
  | 0x06 => some do
      let (x, r) ← readI32 bs
      let (y, r) ← readI32 r
      let (c, r) ← readChr r
      some (.drawChar x y c, r)
  | 0x07 => some do
      let (x, r) ← readI32 bs
      let (y, r) ← readI32 r
      let (t, r) ← readStr r
      some (.drawText x y t, r)
  | 0x10 => some (some (.initialise, bs))
  | 0x11 => some (some (.write, bs))
  | 0x12 => some (some (.clearScreen, bs))
  | 0x13 => some do
      let (left, r) ← readBool bs
      some (.startScroll left, r)
  | 0x14 => some (some (.stopScroll, bs))
  | _ => none

/-- The request at the front of a byte sequence, and the rest. An empty sequence has no opcode to look up;
DESIGN CHOICE (log 22): it is malformed. -/
def parseRequest : List Byte → Except RefuseReason (Instr × List Byte)
  | [] => .error .malformedRequest
  | b :: bs =>
    match parseOperands b.toNat bs with
    | none => .error .unassignedOpcode
    | some none => .error .malformedRequest
    | some (some p) => .ok p

/-- One request message (R61, R96): exactly one request, neither shorter nor longer. -/
def decodeRequest (bs : List Byte) : Except RefuseReason Instr :=
  match parseRequest bs with
  | .error e => .error e
  | .ok (i, []) => .ok i
  | .ok (_, _ :: _) => .error .malformedRequest

/-! ### Controller commands -/

/-- SSD1306_DEFAULT, the default of CMDTAB (R66 to R89). PRESUMED by the spec itself: general knowledge of the
controller family, not the source's (93 G2; log 3). -/
def ssd1306Default : CmdTab where
  displayOff          := 0xAE#8
  displayOn           := 0xAF#8
  setMultiplex        := 0xA8#8
  setDisplayOffset    := 0xD3#8
  setStartLine        := 0x40#8
  segRemapOn          := 0xA1#8
  segRemapOff         := 0xA0#8
  comScanRemapped     := 0xC8#8
  comScanNormal       := 0xC0#8
  setComPins          := 0xDA#8
  setContrast         := 0x81#8
  entireDisplayResume := 0xA4#8
  entireDisplayOn     := 0xA5#8
  normalDisplay       := 0xA6#8
  invertDisplay       := 0xA7#8
  setClockDiv         := 0xD5#8
  chargePump          := 0x8D#8
  memoryMode          := 0x20#8
  columnAddr          := 0x21#8
  pageAddr            := 0x22#8
  scrollSetupRight    := 0x26#8
  scrollSetupLeft     := 0x27#8
  scrollActivate      := 0x2F#8
  scrollDeactivate    := 0x2E#8
  scrollDummy1        := 0x00#8
  scrollDummy5        := 0x00#8
  scrollDummy6        := 0xFF#8

/-- One parameter byte after the opcode. -/
def oneParam (mk : Byte → Instr) : List Byte → Option (Instr × List Byte)
  | p :: rest => some (mk p, rest)
  | _ => none

/-- Two parameter bytes after the opcode. -/
def twoParams (mk : Byte → Byte → Instr) : List Byte → Option (Instr × List Byte)
  | p :: q :: rest => some (mk p q, rest)
  | _ => none

/-- The six bytes after a scroll setup's opcode (R86): dummy, start page, interval, end page, dummy, dummy.
DESIGN CHOICE (log 22): the dummies' values are not looked at. -/
def scrollParams (mk : Byte → Byte → Byte → Instr) : List Byte → Option (Instr × List Byte)
  | _ :: s :: v :: e :: _ :: _ :: rest => some (mk s v e, rest)
  | _ => none

/-- The controller command at the front of a byte sequence, at the default table, and the rest (R66 to R89).
SET_START_LINE is every opcode byte 0x40 to 0x7F, its line in the low six bits (R70). -/
def parseCommand : List Byte → Option (Instr × List Byte)
  | [] => none
  | b :: bs =>
    if b &&& 0xC0#8 = 0x40#8 then some (.setStartLine (b.setWidth 6), bs)
    else match b.toNat with
    | 0xAE => some (.displayOff, bs)
    | 0xAF => some (.displayOn, bs)
    | 0xA8 => oneParam .setMultiplex bs
    | 0xD3 => oneParam .setDisplayOffset bs
    | 0xA1 => some (.segRemapOn, bs)
    | 0xA0 => some (.segRemapOff, bs)
    | 0xC8 => some (.comScanRemapped, bs)
    | 0xC0 => some (.comScanNormal, bs)
    | 0xDA => oneParam .setComPins bs
    | 0x81 => oneParam .setContrast bs
    | 0xA4 => some (.entireDisplayResume, bs)
    | 0xA5 => some (.entireDisplayOn, bs)
    | 0xA6 => some (.normalDisplay, bs)
    | 0xA7 => some (.invertDisplay, bs)
    | 0xD5 => oneParam .setClockDiv bs
    | 0x8D => oneParam .chargePump bs
    | 0x20 => oneParam .memoryMode bs
    | 0x21 => twoParams .columnAddr bs
    | 0x22 => twoParams .pageAddr bs
    | 0x26 => scrollParams .scrollSetupRight bs
    | 0x27 => scrollParams .scrollSetupLeft bs
    | 0x2F => some (.scrollActivate, bs)
    | 0x2E => some (.scrollDeactivate, bs)
    | _ => none

/-- Exactly one controller command. -/
def decodeCommand (bs : List Byte) : Option Instr :=
  match parseCommand bs with
  | some (i, []) => some i
  | _ => none

/-! ### Transfers -/

/-- One transfer by its control byte (R62); a data transfer carries 1 to 16 payload bytes (R64). -/
def decodeTransfer : List Byte → Option Instr
  | [] => none
  | b :: bs =>
    if b = 0x00#8 then (if 1 ≤ bs.length then some (.ctrlCommand bs) else none)
    else if b = 0x40#8 then (if 1 ≤ bs.length ∧ bs.length ≤ 16 then some (.ctrlData bs) else none)
    else none

/-- The decoder of a format. -/
def decodeLane : Lane → List Byte → Option Instr
  | .request, bs => (decodeRequest bs).toOption
  | .command, bs => decodeCommand bs
  | .transfer, bs => decodeTransfer bs

/-! ### The encoder -/

/-- Byte `k` of a value, little-endian. -/
def byteAt (n k : Nat) : Byte := BitVec.ofNat 8 (n / 256 ^ k)

/-- A word's four bytes, little-endian (R61). -/
def wordBytes (v : Word) : List Byte := [byteAt v.toNat 0, byteAt v.toNat 1, byteAt v.toNat 2, byteAt v.toNat 3]

/-- `I32` (R61). -/
def i32Bytes (x : Int) : List Byte := wordBytes (BitVec.ofInt 32 x)

/-- `BOOL` (R61). -/
def boolByte (b : Bool) : Byte := if b then 0x01#8 else 0x00#8

/-- `STR` (R61). -/
def strBytes (t : List Byte) : List Byte := byteAt t.length 0 :: byteAt t.length 1 :: t

/-- `FONTREF` (R61). -/
def fontBytes : Option Font → List Byte
  | none => [0x00#8]
  | some f => 0x01#8 :: (i32Bytes f.width ++ (i32Bytes f.height ++
      (wordBytes (BitVec.ofNat 32 f.table.length) ++ f.table.flatMap wordBytes)))

/-- The bytes of a controller command as the block sends it, opcode first, under a command table (R66 to R89).
No other instruction is a controller command. -/
def cmdBytes (t : CmdTab) : Instr → List Byte
  | .displayOff => [t.displayOff]
  | .displayOn => [t.displayOn]
  | .setMultiplex p => [t.setMultiplex, p]
  | .setDisplayOffset p => [t.setDisplayOffset, p]
  | .setStartLine line => [t.setStartLine ||| line.setWidth 8]
  | .segRemapOn => [t.segRemapOn]
  | .segRemapOff => [t.segRemapOff]
  | .comScanRemapped => [t.comScanRemapped]
  | .comScanNormal => [t.comScanNormal]
  | .setComPins p => [t.setComPins, p]
  | .setContrast p => [t.setContrast, p]
  | .entireDisplayResume => [t.entireDisplayResume]
  | .entireDisplayOn => [t.entireDisplayOn]
  | .normalDisplay => [t.normalDisplay]
  | .invertDisplay => [t.invertDisplay]
  | .setClockDiv p => [t.setClockDiv, p]
  | .chargePump p => [t.chargePump, p]
  | .memoryMode p => [t.memoryMode, p]
  | .columnAddr p q => [t.columnAddr, p, q]
  | .pageAddr p q => [t.pageAddr, p, q]
  | .scrollSetupRight s v e => [t.scrollSetupRight, t.scrollDummy1, s, v, e, t.scrollDummy5, t.scrollDummy6]
  | .scrollSetupLeft s v e => [t.scrollSetupLeft, t.scrollDummy1, s, v, e, t.scrollDummy5, t.scrollDummy6]
  | .scrollActivate => [t.scrollActivate]
  | .scrollDeactivate => [t.scrollDeactivate]
  | .prepare => []
  | .setPixel _ _ _ => []
  | .drawLine _ _ _ _ _ => []
  | .drawRect _ _ _ _ _ => []
  | .setFont _ => []
  | .drawChar _ _ _ => []
  | .drawText _ _ _ => []
  | .initialise => []
  | .write => []
  | .clearScreen => []
  | .startScroll _ => []
  | .stopScroll => []
  | .ctrlCommand _ => []
  | .ctrlData _ => []

/-- The bytes of a transfer, control byte first (R62). No other instruction is a transfer. -/
def transferBytes : Instr → List Byte
  | .ctrlCommand rest => 0x00#8 :: rest
  | .ctrlData payload => 0x40#8 :: payload
  | .prepare => []
  | .setPixel _ _ _ => []
  | .drawLine _ _ _ _ _ => []
  | .drawRect _ _ _ _ _ => []
  | .setFont _ => []
  | .drawChar _ _ _ => []
  | .drawText _ _ _ => []
  | .initialise => []
  | .write => []
  | .clearScreen => []
  | .startScroll _ => []
  | .stopScroll => []
  | .displayOff => []
  | .displayOn => []
  | .setMultiplex _ => []
  | .setDisplayOffset _ => []
  | .setStartLine _ => []
  | .segRemapOn => []
  | .segRemapOff => []
  | .comScanRemapped => []
  | .comScanNormal => []
  | .setComPins _ => []
  | .setContrast _ => []
  | .entireDisplayResume => []
  | .entireDisplayOn => []
  | .normalDisplay => []
  | .invertDisplay => []
  | .setClockDiv _ => []
  | .chargePump _ => []
  | .memoryMode _ => []
  | .columnAddr _ _ => []
  | .pageAddr _ _ => []
  | .scrollSetupRight _ _ _ => []
  | .scrollSetupLeft _ _ _ => []
  | .scrollActivate => []
  | .scrollDeactivate => []

/-- The message of a host request (R60, R61). No other instruction is a request. -/
def requestBytes : Instr → List Byte
  | .prepare => [0x01#8]
  | .setPixel x y on => 0x02#8 :: (i32Bytes x ++ (i32Bytes y ++ [boolByte on]))
  | .drawLine x0 y0 x1 y1 on =>
      0x03#8 :: (i32Bytes x0 ++ (i32Bytes y0 ++ (i32Bytes x1 ++ (i32Bytes y1 ++ [boolByte on]))))
  | .drawRect x y w h on =>
      0x04#8 :: (i32Bytes x ++ (i32Bytes y ++ (i32Bytes w ++ (i32Bytes h ++ [boolByte on]))))
  | .setFont f => 0x05#8 :: fontBytes f
  | .drawChar x y c => 0x06#8 :: (i32Bytes x ++ (i32Bytes y ++ [c]))
  | .drawText x y t => 0x07#8 :: (i32Bytes x ++ (i32Bytes y ++ strBytes t))
  | .initialise => [0x10#8]
  | .write => [0x11#8]
  | .clearScreen => [0x12#8]
  | .startScroll left => [0x13#8, boolByte left]
  | .stopScroll => [0x14#8]
  | .displayOff => []
  | .displayOn => []
  | .setMultiplex _ => []
  | .setDisplayOffset _ => []
  | .setStartLine _ => []
  | .segRemapOn => []
  | .segRemapOff => []
  | .comScanRemapped => []
  | .comScanNormal => []
  | .setComPins _ => []
  | .setContrast _ => []
  | .entireDisplayResume => []
  | .entireDisplayOn => []
  | .normalDisplay => []
  | .invertDisplay => []
  | .setClockDiv _ => []
  | .chargePump _ => []
  | .memoryMode _ => []
  | .columnAddr _ _ => []
  | .pageAddr _ _ => []
  | .scrollSetupRight _ _ _ => []
  | .scrollSetupLeft _ _ _ => []
  | .scrollActivate => []
  | .scrollDeactivate => []
  | .ctrlCommand _ => []
  | .ctrlData _ => []

/-- The bytes of an instruction in its own format, commands at the default table. -/
def encode (i : Instr) : List Byte :=
  match laneOf i with
  | .request => requestBytes i
  | .command => cmdBytes ssd1306Default i
  | .transfer => transferBytes i

/-! ### Words of the opcode table -/

/-- The bytes of a table word of `nbits` bits: bit 0 is the least significant bit of the first byte. -/
def wordLayout (nbits w : Nat) : List Byte := (List.range ((nbits + 7) / 8)).map (byteAt w)

/-- The table word's bytes with every later operand byte zero, as far as the longest fixed request needs. -/
def paddedLayout (nbits w : Nat) : List Byte := wordLayout nbits w ++ List.replicate 18 0x00#8

/-- Whether a byte is an assigned request opcode (R60, R91). -/
def isRequestOpcode (b : Byte) : Bool := (parseOperands b.toNat []).isSome

/-- The request message a table word stands for: its bytes, followed by as many zero bytes as the request needs. -/
def tableMessage (nbits w : Nat) : List Byte :=
  let bs := paddedLayout nbits w
  match parseRequest bs with
  | .ok (_, rest) => bs.take (bs.length - rest.length)
  | .error _ => wordLayout nbits w

/-- The instruction at a table word. A request opcode is a request; the control bytes 0x00 and 0x40, which no
request opcode is, open a transfer (with the one zero byte that R49 asks for at least); any other byte is looked up
among the controller commands. DESIGN CHOICE (log 21): the word 0x40 alone is also SET_START_LINE 0. -/
def decodeTableWord (nbits w : Nat) : Option Instr :=
  let b := byteAt w 0
  if isRequestOpcode b then (decodeRequest (tableMessage nbits w)).toOption
  else if b = 0x00#8 ∨ b = 0x40#8 then
    decodeTransfer ((wordLayout nbits w ++ [0x00#8]).take (max 2 ((nbits + 7) / 8)))
  else (parseCommand (paddedLayout nbits w)).map (·.1)

end Sys2Proof
end

