-- ==== Sys2Proof/Machine/Params.lean ====
section
/-! DEFINITION. What follows from the parameters (00_scope.md R5): the derived sizes, the admitted domain, and the
default values with which `State.reset` is constructed. -/

namespace Sys2Proof.Machine

/-- `PAGES = H div 8` (R5). -/
def pages (c : Config) : Nat := c.h / 8

/-- `FBSIZE = PAGES * W` (R5). -/
def fbSize (c : Config) : Nat := pages c * c.w

/-- `BURST`, the payload cap of one data transfer (R5, R64). -/
def burstCap : Nat := 16

/-- `NB = ceil(FBSIZE / 16)` (R142). -/
def burstCount (c : Config) : Nat := (fbSize c + burstCap - 1) / burstCap

/-- The admitted domain of construction (R190, D6). -/
def admitted (c : Config) : Bool :=
  decide (1 ≤ c.w) && decide (c.w ≤ 256) && decide (8 ≤ c.h) && decide (c.h ≤ 256) && decide (c.h % 8 = 0)
    && decide (c.addr ≤ 0x7F)

/-- DEFAULT_FONT (R127): width 7, height 9; the table is free, of at least 32 glyphs and none of them partial. -/
def builtInFont : Font where
  width := 7
  height := 9
  table := (List.range (9 * (32 + Config.defaultGlyphsBeyond))).map Config.defaultGlyphRow

/-- COMPINS' default (R5, R75). -/
def defaultCompins (h : Nat) : Byte := if h = 32 then 0x02#8 else 0x12#8

/-- The parameters with every default of R5, for a geometry and an address; CMD_SPLIT, BUS_ID and the font table are
the free values (log 4, 5, 6). -/
def paramsFor (w h addr : Nat) : Config where
  w := w
  h := h
  addr := addr
  busId := Config.busIdOfCaller
  cmdtab := ssd1306Default
  contrast := 0x7F#8
  compins := defaultCompins h
  clkdiv := 0x80#8
  chgpump := 0x14#8
  addrmode := 0x00#8
  split := Config.cmdSplit
  defaultFont := builtInFont

/-- The default block: 128x32 at address 0x3C (R190). DESIGN CHOICE (log 2): `State.reset` is this block. -/
def defaultParams : Config := paramsFor 128 32 0x3C

end Sys2Proof.Machine
end

