-- ==== Sys2Proof/Machine/State.lean ====
section
/-! DEFINITION. The state of the block (10_state.md), what its rules imply while an operation is executing
(20_memory.md R49, 10_state.md R34), the two input ports, and the reset values (R35). -/

namespace Sys2Proof.Machine

/-- The framebuffer's bytes that have been written since construction: addresses strictly rising, nothing else
listed. An unlisted address holds no value here; what MemRead gives for it is `fbByte` (log 7). -/
abbrev Memory := List Host.Cell

/-- `FSM`, the protocol state (R24). -/
inductive Fsm where
  | uninitialized
  | initializing
  | active
  deriving DecidableEq, Repr

/-- `SCROLL`, the scrolling sub-state (R25). -/
inductive Scroll where
  | off
  | scrollingLeft
  | scrollingRight
  deriving DecidableEq, Repr

/-- The transport's failure kinds (R171). -/
inductive Kind where
  | nack
  | arbitrationLost
  | timeout
  | other
  deriving DecidableEq, Repr

/-- One answer of the transport (R50). No answer is the empty list of them. -/
inductive Answer where
  | ok
  | err (kind : Kind)
  deriving DecidableEq, Repr

/-- The outcome field of a TLOG entry (R29). -/
inductive TransferOutcome where
  | pending
  | ok
  | err (kind : Kind)
  deriving DecidableEq, Repr

/-- One entry of TLOG (R29). -/
structure LogEntry where
  bus     : Nat
  addr    : Nat
  bytes   : List Byte
  outcome : TransferOutcome
  deriving DecidableEq, Repr

/-- `FAULT_INFO` (R26): operation code, index of the failing transfer within the operation, failure kind. -/
structure FaultInfo where
  op    : Byte
  index : Nat
  kind  : Kind
  deriving DecidableEq, Repr

/-- The status codes (R170). -/
inductive Status where
  | ok
  | invalidArgument
  | configurationError
  | transportError
  deriving DecidableEq, Repr

/-- The information recorded with a status (R170, R13). -/
inductive StatusInfo where
  | nothing
  | opcode (op : Byte)
  | transport (op : Byte) (index : Nat) (kind : Kind)
  deriving DecidableEq, Repr

/-- The reasons FAULTS can hold (R174). -/
inductive FaultReason where
  | fbAddressFault
  | missingFallbackGlyph
  deriving DecidableEq, Repr

/-- The operations that transmit, as far as a pending transfer has to remember them (R34 (a), R177, R149). -/
inductive TxOp where
  | initialise
  | write
  | clearScreen
  | startScroll (left : Bool)
  | stopScroll
  deriving DecidableEq, Repr

/-- What an executing operation still has to do, in the order of its pseudocode (R14): a controller command or a
transfer, or one of the two assignments that stand between the commands (R144, R150, R151). -/
inductive TxItem where
  | cmd (i : Instr)
  | setFsm (f : Fsm)
  | setScroll (d : Scroll)
  deriving DecidableEq, Repr

/-- A request the host issues (R61, R184). `overlaps`: it was issued while another was executing (R187), before that
call had returned; such a request is refused whenever it is served (log 10). -/
structure Request where
  bytes    : List Byte
  overlaps : Bool
  deriving DecidableEq, Repr

/-- The state. INVENTORY.md's '## State' names the rule of every field. -/
structure State where
  cfg         : Config
  draw        : Nat
  fb          : Memory
  font        : Font
  fsm         : Fsm
  scroll      : Scroll
  fault       : Option FaultInfo
  status      : Status
  statusInfo  : StatusInfo
  statusValid : Bool
  seq         : Nat
  busy        : Bool
  tlog        : List LogEntry
  faults      : List FaultReason
  refused     : Option RefuseReason
  op          : Option TxOp
  txq         : List TxItem
  answers     : List Answer
  requests    : List Request
  deriving DecidableEq, Repr

/-- Why the machine stops. -/
inductive Fault where
  /-- Raised by `step` in a state whose FAULTS is not empty (R175: "the state is faulted for good"). Safe. -/
  | modelFault (r : FaultReason)
  /-- Raised by `step` while a transfer is pending and the transport has given no answer: the block has no further
  step (R50, 93 I3). Safe: nothing is claimed until an answer is there. -/
  | transportStalled
  deriving DecidableEq, Repr

/-- Why the machine gives no meaning. -/
inductive Refusal where
  /-- An instruction without a meaning yet; raised by no arm of `exec`. Safe. -/
  | notModelled (mnemonic : String)
  /-- Raised by `construct` outside the admitted domain (R190, R176). Safe. -/
  | geometryOutOfDomain
  deriving DecidableEq, Repr

/-- A block right after construction (R190, R35), with parameters `c` and framebuffer draw `d`. -/
def State.fresh (c : Config) (d : Nat) : State where
  cfg := c
  draw := d
  fb := []
  font := c.defaultFont
  fsm := .uninitialized
  scroll := .off
  fault := none
  status := .ok
  statusInfo := .nothing
  statusValid := false
  seq := 0
  busy := false
  tlog := []
  faults := []
  refused := none
  op := none
  txq := []
  answers := []
  requests := []

/-- The block right after reset: the default construction (R190), no request issued and no answer given. -/
def State.reset : State := State.fresh defaultParams 0

end Sys2Proof.Machine
end

