-- ==== Sys2Proof/Machine/Ops.lean ====
section
/-! DEFINITION. The named operations: framebuffer memory and its primitives (00_scope.md R11, 20_memory.md R41 to
R46), the end of an operation and raising (60_exceptions.md R170 to R177), the transfer primitive (20_memory.md R49),
`Cmd` and `Data` (30_encoding.md R63, R64), and running an operation's list of transfers. -/

namespace Sys2Proof.Machine

/-! ### The framebuffer's cells -/

/-- The byte written at an address, if one has been. -/
def Memory.read : Memory → Nat → Option Byte
  | [], _ => none
  | (b, v) :: m, a => if a = b then some v else Memory.read m a

/-- Write one byte, keeping the addresses strictly rising. -/
def Memory.write : Memory → Nat → Byte → Memory
  | [], a, v => [(a, v)]
  | (b, u) :: m, a, v =>
    if a < b then (a, v) :: (b, u) :: m
    else if a = b then (a, v) :: m
    else (b, u) :: Memory.write m a v

/-- Zero the addresses below `n` (PREPARE's loop, R100). -/
def Memory.clear (m : Memory) (n : Nat) : Memory :=
  (List.range n).map (fun a => (a, 0x00#8)) ++ m.filter (fun c => decide (n ≤ c.1))

/-- The canonical form: addresses strictly rising. -/
def Memory.wf : Memory → Bool
  | [] => true
  | c :: m => m.all (fun d => decide (c.1 < d.1)) && Memory.wf m

/-- `FB[a]`: the byte written, or, where nothing has been written since construction, the construction draw, a free
value (R35, R193; log 7). -/
def fbByte (s : State) (a : Nat) : Byte := (Memory.read s.fb a).getD (Config.constructionDraw s.draw a)

/-! ### Statements that can end in a model fault -/

/-- Where a sequence of statements stands: running on, or ended by `fault(reason)` with what was written before it
kept (R175). -/
inductive Flow where
  | go (s : State)
  | fault (r : FaultReason) (s : State)
  deriving DecidableEq, Repr

/-- A `for` loop (R9): the body for each element in order, until a fault. -/
def forEach {α : Type} (f : α → State → Flow) : List α → State → Flow
  | [], s => .go s
  | a :: l, s =>
    match f a s with
    | .go t => forEach f l t
    | .fault r t => .fault r t

/-- `for v in a..b` (R9): `a, a+1, ..., b`, and nothing if `b < a`. -/
def span (a b : Int) : List Int := (List.range (b + 1 - a).toNat).map (fun (k : Nat) => a + (k : Int))

/-- `MemRead(a, 1)` (R11). -/
def memRead (s : State) (a : Int) : Except FaultReason Byte :=
  if 0 ≤ a ∧ a < (fbSize s.cfg : Int) then .ok (fbByte s a.toNat) else .error .fbAddressFault

/-- `MemWrite(a, 1, v)` (R11). -/
def memWrite (s : State) (a : Int) (v : Byte) : Flow :=
  if 0 ≤ a ∧ a < (fbSize s.cfg : Int) then .go { s with fb := Memory.write s.fb a.toNat v }
  else .fault .fbAddressFault s

/-- `FBAddr(x, y) = (y div 8) * W + x` (R41). -/
def fbAddr (c : Config) (x y : Int) : Int := (y / 8) * (c.w : Int) + x

/-- `v | (1 << b)`, or `v & (255 - (1 << b))` (R45). -/
def putBit (v : Byte) (b : Nat) (on : Bool) : Byte :=
  if on then v ||| (0x01#8 <<< b) else v &&& ~~~(0x01#8 <<< b)

/-- `PixelPut(x, y, on)` (R45). -/
def pixelPut (x y : Int) (on : Bool) (s : State) : Flow :=
  match memRead s (fbAddr s.cfg x y) with
  | .error r => .fault r s
  | .ok v => memWrite s (fbAddr s.cfg x y) (putBit v (y % 8).toNat on)

/-- `0 ≤ x < W and 0 ≤ y < H` (R41, R101). -/
def onPanel (c : Config) (x y : Int) : Bool :=
  decide (0 ≤ x) && decide (x < (c.w : Int)) && decide (0 ≤ y) && decide (y < (c.h : Int))

/-- `PixelGet(x, y)` (R46), as a Boolean: bit `y mod 8` of `FB[FBAddr(x, y)]`. -/
def pixelGet (s : State) (x y : Int) : Bool := (fbByte s (fbAddr s.cfg x y).toNat).getLsbD (y % 8).toNat

/-- PREPARE's loop, `for a in 0..FBSIZE-1: MemWrite(a, 1, 0x00)` (R100). -/
def clearFb (s : State) : State := { s with fb := Memory.clear s.fb (fbSize s.cfg) }

/-! ### How an operation ends (R170 to R177) -/

/-- The request opcode of a transmitting operation (R60). -/
def TxOp.code : TxOp → Byte
  | .initialise => 0x10#8
  | .write => 0x11#8
  | .clearScreen => 0x12#8
  | .startScroll _ => 0x13#8
  | .stopScroll => 0x14#8

/-- The opcode FAULT_INFO records. DESIGN CHOICE (log 20): 0 where no operation is executing, in states no run
reaches. -/
def opCode (s : State) : Byte :=
  match s.op with
  | some o => o.code
  | none => 0x00#8

/-- Write STATUS with what is recorded beside it, once at the end of an operation (R28, R170). -/
def setStatus (st : Status) (info : StatusInfo) (s : State) : State :=
  { s with status := st, statusInfo := info, statusValid := true }

/-- The errors of R170: the block's exceptions. -/
inductive Exn where
  | invalidArgument (op : Byte)
  | configurationError (op : Byte)
  | transportError (op : Byte) (index : Nat) (kind : Kind)
  deriving DecidableEq, Repr

/-- The fault latch after a transport failure: the first failure only (R26, R177, D41). -/
def latch (f : Option FaultInfo) (new : FaultInfo) : Option FaultInfo :=
  match f with
  | none => some new
  | some old => some old

/-- `raise E(info)`: THE one entry of an exception (R13, R177, R179). A validation error writes only the status; a
transport error also latches FAULT, returns SEQ and BUSY to 0 and ends the executing operation. Nothing written before
is undone. There is no return operation (R180): the host's call returns with the status. -/
def raise (e : Exn) (s : State) : State :=
  match e with
  | .invalidArgument o => setStatus .invalidArgument (.opcode o) s
  | .configurationError o => setStatus .configurationError (.opcode o) s
  | .transportError o i k =>
    setStatus .transportError (.transport o i k)
      { s with fault := latch s.fault ⟨o, i, k⟩, seq := 0, busy := false, op := none, txq := [] }

/-- `fault(reason)`: add the reason to the set FAULTS and end the operation without a status (R175). -/
def markFault (r : FaultReason) (s : State) : State :=
  { s with faults := if r ∈ s.faults then s.faults else s.faults ++ [r] }

/-- `refuse(reason)`: set REFUSED, with its reason, and nothing else (R176; log 14). -/
def refuse (r : RefuseReason) (s : State) : State := { s with refused := some r }

/-- The end of an operation that only draws: STATUS OK, or the fault (R170, R175). -/
def finish : Flow → State
  | .go s => setStatus .ok .nothing s
  | .fault r s => markFault r s

/-! ### Transfers -/

/-- Where the transmitter stands after a statement that can wait or fail. -/
inductive Sent where
  | done (s : State)      -- the statement completed
  | waiting (s : State)   -- a transfer is pending: no answer yet
  | failed (s : State)    -- TransportError was raised: the operation has ended
  deriving DecidableEq, Repr

/-- The state reached. -/
def Sent.state : Sent → State
  | .done s => s
  | .waiting s => s
  | .failed s => s

/-- Fill in the outcome of the last TLOG entry (R49). -/
def setLastOutcome (o : TransferOutcome) : List LogEntry → List LogEntry
  | [] => []
  | [e] => [{ e with outcome := o }]
  | e :: f :: l => e :: setLastOutcome o (f :: l)

/-- `Transfer`, first half: append the pending entry and set BUSY (R49). -/
def handOver (bytes : List Byte) (s : State) : State :=
  { s with tlog := s.tlog ++ [⟨s.cfg.busId, s.cfg.addr, bytes, .pending⟩], busy := true }

/-- `Transfer`, second half, from the transport's answer on (R49, R177). -/
def takeAnswer (a : Answer) (s : State) : Sent :=
  match a with
  | .ok => .done { s with busy := false, tlog := setLastOutcome .ok s.tlog, seq := s.seq + 1 }
  | .err k =>
    .failed (raise (.transportError (opCode s) s.seq k)
      { s with busy := false, tlog := setLastOutcome (.err k) s.tlog })

/-- Wait for the pending transfer's answer: take it if the transport has given it (R50). -/
def awaitAnswer (s : State) : Sent :=
  match s.answers with
  | [] => .waiting s
  | a :: as => takeAnswer a { s with answers := as }

/-- `Transfer(bytes)` (R49). -/
def transfer (bytes : List Byte) (s : State) : Sent := awaitAnswer (handOver bytes s)

/-- The transfers of a controller command's bytes, cut by CMD_SPLIT (`Cmd`, R63). -/
def cutCommand (split : CmdSplit) (c : List Byte) : List Instr :=
  match split with
  | .perCommand => [.ctrlCommand c]
  | .perByte => c.map (fun b => .ctrlCommand [b])

/-- The transfers of a transmitter instruction: `Cmd` of a controller command (R63), or the one transfer itself
(R64). A host request is none. -/
def framesOf (c : Config) (i : Instr) : List Instr :=
  match laneOf i with
  | .request => []
  | .command => cutCommand c.split (cmdBytes c.cmdtab i)
  | .transfer => [i]

/-- What completing a command assigns to SCROLL (R149): Off after SCROLL_DEACTIVATE; after SCROLL_ACTIVATE within
STARTSCROLL, the direction of its operand (log 19). -/
def scrollAfter (op : Option TxOp) (i : Instr) : List TxItem :=
  match i, op with
  | .scrollDeactivate, _ => [.setScroll .off]
  | .scrollActivate, some (.startScroll left) => [.setScroll (if left then .scrollingLeft else .scrollingRight)]
  | _, _ => []

/-- An assignment statement of an operation. -/
def assign (it : TxItem) (s : State) : State :=
  match it with
  | .setFsm f => { s with fsm := f }
  | .setScroll d => { s with scroll := d }
  | .cmd _ => s

/-- Send transfers in order, then do the assignments `after`; where a transfer waits, what is left goes back to the
front of the queue. -/
def sendFrames : List Instr → List TxItem → State → Sent
  | [], after, s => .done (after.foldl (fun t it => assign it t) s)
  | f :: fs, after, s =>
    match transfer (transferBytes f) s with
    | .done t => sendFrames fs after t
    | .waiting t => .waiting { t with txq := fs.map .cmd ++ (after ++ t.txq) }
    | .failed t => .failed t

/-- Send one controller command or transfer: `Cmd` (R63) or `Data` (R64), with R149. -/
def transmit (i : Instr) (s : State) : Sent := sendFrames (framesOf s.cfg i) (scrollAfter s.op i) s

/-- One item of an operation. -/
def runItem (it : TxItem) (s : State) : Sent :=
  match it with
  | .cmd i => transmit i s
  | .setFsm f => .done { s with fsm := f }
  | .setScroll d => .done { s with scroll := d }

/-- The end of a transmitting operation that went through: `S.SEQ <- 0`, `S.STATUS <- OK` (R144, R146, R150, R151). -/
def completeOp (s : State) : State := setStatus .ok .nothing { s with seq := 0, op := none, txq := [] }

/-- Run an operation's items in order as far as the transport's answers carry it; a waiting transfer leaves the rest
in `txq` (log 11). -/
def runQueue : List TxItem → State → State
  | [], s => completeOp s
  | it :: rest, s =>
    match runItem it { s with txq := rest } with
    | .done t => runQueue rest t
    | .waiting t => t
    | .failed t => t

/-- Start a transmitting operation: `S.SEQ <- 0` (R27). -/
def beginOp (o : TxOp) (s : State) : State := { s with seq := 0, op := some o, txq := [] }

end Sys2Proof.Machine
end

