-- ==== Sys2Proof/Machine/Operands.lean ====
section
/-! DEFINITION. What the operations compute from their operands: line validity and clamping (40_raster.md R102,
R103), rectangle edges (R105), fonts and glyphs (41_text.md R121 to R123), bursts and command lists (42_protocol.md
R140, R142). Coordinate arithmetic is on unbounded integers (00_scope.md R8, D5). -/

namespace Sys2Proof.Machine

/-- The operands of a line: two corners. -/
structure Line where
  x0 : Int
  y0 : Int
  x1 : Int
  y1 : Int
  deriving DecidableEq, Repr

/-- `LineOK`, on the raw operands (R102, D13). -/
def lineOK (c : Config) (l : Line) : Bool :=
  decide (0 ≤ l.x0) && decide (0 ≤ l.y0) && decide (l.x0 ≤ l.x1) && decide (l.y0 ≤ l.y1)
    && decide (l.x1 ≤ (c.w : Int)) && decide (l.y1 ≤ (c.h : Int))

/-- The clamped corners (R103). -/
def clampLine (c : Config) (l : Line) : Line where
  x0 := min l.x0 ((c.w : Int) - 1)
  y0 := min l.y0 ((c.h : Int) - 1)
  x1 := min l.x1 ((c.w : Int) - 1)
  y1 := min l.y1 ((c.h : Int) - 1)

/-- The size check of DRAWRECT (R106). -/
def rectSizeOK (c : Config) (w h : Int) : Bool :=
  decide (0 < w) && decide (w ≤ (c.w : Int)) && decide (0 < h) && decide (h ≤ (c.h : Int))

/-- `RectEdges` (R105): top, bottom, left, right. The bottom edge is at the absolute row `h - 1`, NOT `y + h - 1`:
the source's defect, reproduced (93 I10, C4). -/
def rectEdges (x y w h : Int) : List Line :=
  [⟨x, y, x + w - 1, y⟩, ⟨x, h - 1, x + w - 1, h - 1⟩, ⟨x, y, x, y + h - 1⟩, ⟨x + w - 1, y, x + w - 1, y + h - 1⟩]

/-- `FontOK` (R121). -/
def fontOK (f : Font) : Bool :=
  decide (1 ≤ f.width) && decide (f.width ≤ 32) && decide (1 ≤ f.height)
    && decide (f.table.length % f.height.toNat = 0)

/-- `GlyphCount` (R121). -/
def glyphCount (f : Font) : Nat := f.table.length / f.height.toNat

/-- `GlyphIndex` (R122): the code's own glyph, else `'?'` (31), else the model fault. -/
def glyphIndex (f : Font) (c : Byte) : Except FaultReason Nat :=
  let i : Int := (c.toNat : Int) - 32
  if 0 ≤ i ∧ i < (glyphCount f : Int) then .ok i.toNat
  else if 31 < glyphCount f then .ok 31
  else .error .missingFallbackGlyph

/-- Row `r` of glyph `g` (R124). R33: the index is in range for every admitted font; where a state no run reaches
holds another, an absent row reads as blank (log 23). -/
def glyphRow (f : Font) (g r : Nat) : Word := (f.table[g * f.height.toNat + r]?).getD 0

/-- `GlyphBit(p, col) = p[31 - col]` (R123, D17). -/
def glyphBit (p : Word) (col : Nat) : Bool := p.getLsbD (31 - col)

/-- A computed parameter byte (R90). -/
def paramByte (n : Nat) : Byte := BitVec.ofNat 8 n

/-- `INITSEQ`, the 14 commands of INITIALIZE in order (R140). -/
def initSeq (c : Config) : List Instr :=
  [.displayOff, .setMultiplex (paramByte (c.h - 1)), .setDisplayOffset 0x00#8, .setStartLine 0#6, .segRemapOn,
   .comScanRemapped, .setComPins c.compins, .setContrast c.contrast, .entireDisplayResume, .normalDisplay,
   .setClockDiv c.clkdiv, .chargePump c.chgpump, .memoryMode c.addrmode, .displayOn]

/-- Burst `b` (R142): `FB[16b .. min(16b + 16, FBSIZE))`. -/
def burst (s : State) (b : Nat) : List Byte :=
  let lo := burstCap * b
  let hi := min (lo + burstCap) (fbSize s.cfg)
  (List.range (hi - lo)).map (fun k => fbByte s (lo + k))

/-- The items of INITIALIZE after `FSM <- Initializing` (R144). -/
def initItems (c : Config) : List TxItem := (initSeq c).map .cmd ++ [.setFsm .active]

/-- The items of WRITE (R146): the two windows, then for each burst the start line (R143) and the data. -/
def writeItems (s : State) : List TxItem :=
  [.cmd (.columnAddr 0x00#8 (paramByte (s.cfg.w - 1))), .cmd (.pageAddr 0x00#8 (paramByte (pages s.cfg - 1)))]
    ++ (List.range (burstCount s.cfg)).flatMap
        (fun b => [.cmd (.setStartLine 0#6), .cmd (.ctrlData (burst s b))])

/-- The scroll setup of STARTSCROLL (R86, R87): start page 0, interval 0, end page `PAGES - 1`. -/
def scrollSetup (c : Config) (left : Bool) : Instr :=
  if left then .scrollSetupLeft 0x00#8 0x00#8 (paramByte (pages c - 1))
  else .scrollSetupRight 0x00#8 0x00#8 (paramByte (pages c - 1))

/-- The items of STARTSCROLL (R150). The assignments to SCROLL come with the two commands (R149, `scrollAfter`). -/
def startScrollItems (c : Config) (left : Bool) : List TxItem :=
  [.cmd .scrollDeactivate, .cmd (scrollSetup c left), .cmd .scrollActivate]

/-- The items of STOPSCROLL (R151). -/
def stopScrollItems : List TxItem := [.cmd .scrollDeactivate]

end Sys2Proof.Machine
end

