-- ==== Sys2Proof/Machine/Command.lean ====
section
/-! DEFINITION. The controller commands (30_encoding.md R66 to R89) as instructions of the transmitter: each sends its
own bytes, `Cmd` (R63), and does what R149 says on completion. What the controller does with them is outside the block
(00_scope.md R6 (c); log 17). -/

namespace Sys2Proof.Machine

/-- DISPLAY_OFF (R66). -/
def execDisplayOff (s : State) : Host.Outcome State Fault Refusal := .next (transmit .displayOff s).state

/-- DISPLAY_ON (R67). -/
def execDisplayOn (s : State) : Host.Outcome State Fault Refusal := .next (transmit .displayOn s).state

/-- SET_MULTIPLEX (R68). -/
def execSetMultiplex (ratio : Byte) (s : State) : Host.Outcome State Fault Refusal := .next (transmit (.setMultiplex ratio) s).state

/-- SET_DISPLAY_OFFSET (R69). -/
def execSetDisplayOffset (offset : Byte) (s : State) : Host.Outcome State Fault Refusal := .next (transmit (.setDisplayOffset offset) s).state

/-- SET_START_LINE (R70). -/
def execSetStartLine (line : BitVec 6) (s : State) : Host.Outcome State Fault Refusal := .next (transmit (.setStartLine line) s).state

/-- SEG_REMAP_ON (R71). -/
def execSegRemapOn (s : State) : Host.Outcome State Fault Refusal := .next (transmit .segRemapOn s).state

/-- SEG_REMAP_OFF (R72). No operation queues it (R92; log 18). -/
def execSegRemapOff (s : State) : Host.Outcome State Fault Refusal := .next (transmit .segRemapOff s).state

/-- COM_SCAN_REMAPPED (R73). -/
def execComScanRemapped (s : State) : Host.Outcome State Fault Refusal := .next (transmit .comScanRemapped s).state

/-- COM_SCAN_NORMAL (R74). No operation queues it (R92; log 18). -/
def execComScanNormal (s : State) : Host.Outcome State Fault Refusal := .next (transmit .comScanNormal s).state

/-- SET_COM_PINS (R75). -/
def execSetComPins (pins : Byte) (s : State) : Host.Outcome State Fault Refusal := .next (transmit (.setComPins pins) s).state

/-- SET_CONTRAST (R76). -/
def execSetContrast (level : Byte) (s : State) : Host.Outcome State Fault Refusal := .next (transmit (.setContrast level) s).state

/-- ENTIRE_DISPLAY_RESUME (R77). -/
def execEntireDisplayResume (s : State) : Host.Outcome State Fault Refusal := .next (transmit .entireDisplayResume s).state

/-- ENTIRE_DISPLAY_ON (R78). No operation queues it (R92; log 18). -/
def execEntireDisplayOn (s : State) : Host.Outcome State Fault Refusal := .next (transmit .entireDisplayOn s).state

/-- NORMAL_DISPLAY (R79). -/
def execNormalDisplay (s : State) : Host.Outcome State Fault Refusal := .next (transmit .normalDisplay s).state

/-- INVERT_DISPLAY (R80). No operation queues it (R92; log 18). -/
def execInvertDisplay (s : State) : Host.Outcome State Fault Refusal := .next (transmit .invertDisplay s).state

/-- SET_CLOCK_DIV (R81). -/
def execSetClockDiv (div : Byte) (s : State) : Host.Outcome State Fault Refusal := .next (transmit (.setClockDiv div) s).state

/-- CHARGE_PUMP (R82). -/
def execChargePump (setting : Byte) (s : State) : Host.Outcome State Fault Refusal := .next (transmit (.chargePump setting) s).state

/-- MEMORY_MODE (R83). -/
def execMemoryMode (mode : Byte) (s : State) : Host.Outcome State Fault Refusal := .next (transmit (.memoryMode mode) s).state

/-- COLUMN_ADDR (R84). -/
def execColumnAddr (first last : Byte) (s : State) : Host.Outcome State Fault Refusal := .next (transmit (.columnAddr first last) s).state

/-- PAGE_ADDR (R85). -/
def execPageAddr (first last : Byte) (s : State) : Host.Outcome State Fault Refusal := .next (transmit (.pageAddr first last) s).state

/-- SCROLL_SETUP_RIGHT (R86). -/
def execScrollSetupRight (startPage interval endPage : Byte) (s : State) : Host.Outcome State Fault Refusal := .next (transmit (.scrollSetupRight startPage interval endPage) s).state

/-- SCROLL_SETUP_LEFT (R87). -/
def execScrollSetupLeft (startPage interval endPage : Byte) (s : State) : Host.Outcome State Fault Refusal := .next (transmit (.scrollSetupLeft startPage interval endPage) s).state

/-- SCROLL_ACTIVATE (R88). Within STARTSCROLL, SCROLL takes the operand's direction on completion (R149; log 19). -/
def execScrollActivate (s : State) : Host.Outcome State Fault Refusal := .next (transmit .scrollActivate s).state

/-- SCROLL_DEACTIVATE (R89). SCROLL is Off on completion (R149). -/
def execScrollDeactivate (s : State) : Host.Outcome State Fault Refusal := .next (transmit .scrollDeactivate s).state

end Sys2Proof.Machine
end

