-- ==== Sys2Proof/Machine/Protocol.lean ====
section
/-! DEFINITION. The protocol operations (42_protocol.md): INITIALIZE, WRITE, CLEARSCREEN, STARTSCROLL, STOPSCROLL.
Each is accepted in every state (D23) and runs as far as the transport's answers carry it (log 11). -/

namespace Sys2Proof.Machine

/-- INITIALIZE (R144): FSM goes to Initializing, the 14 commands are sent, FSM goes to Active. -/
def execInitialise (s : State) : Host.Outcome State Fault Refusal :=
  .next (runQueue (initItems s.cfg) { beginOp .initialise s with fsm := .initializing })

/-- WRITE (R146): the framebuffer is only read. -/
def execWrite (s : State) : Host.Outcome State Fault Refusal :=
  .next (runQueue (writeItems s) (beginOp .write s))

/-- CLEARSCREEN (R148): PREPARE's body, then WRITE's body, one operation. -/
def execClearScreen (s : State) : Host.Outcome State Fault Refusal :=
  .next (runQueue (writeItems (clearFb s)) (beginOp .clearScreen (clearFb s)))

/-- STARTSCROLL (R150). -/
def execStartScroll (left : Bool) (s : State) : Host.Outcome State Fault Refusal :=
  .next (runQueue (startScrollItems s.cfg left) (beginOp (.startScroll left) s))

/-- STOPSCROLL (R151): the deactivate is sent unconditionally. -/
def execStopScroll (s : State) : Host.Outcome State Fault Refusal :=
  .next (runQueue stopScrollItems (beginOp .stopScroll s))

end Sys2Proof.Machine
end

