-- ==== Sys2Proof/Machine/Raster.lean ====
section
/-! DEFINITION. The raster operations (40_raster.md): PREPARE, SETPIXEL, DRAWLINE, DRAWRECT. -/

namespace Sys2Proof.Machine

/-- `LineFill` (R103): the closed rectangle between the clamped corners, row by row. -/
def lineFill (l : Line) (on : Bool) (s : State) : Flow :=
  let k := clampLine s.cfg l
  forEach (fun y => forEach (fun x => pixelPut x y on) (span k.x0 k.x1)) (span k.y0 k.y1) s

/-- SETPIXEL's body (R101): in bounds, `PixelPut`; out of bounds, nothing. -/
def clippedPut (x y : Int) (on : Bool) (s : State) : Flow :=
  if onPanel s.cfg x y then pixelPut x y on s else .go s

/-- PREPARE (R100). -/
def execPrepare (s : State) : Host.Outcome State Fault Refusal := .next (finish (.go (clearFb s)))

/-- SETPIXEL (R101). -/
def execSetPixel (x y : Int) (on : Bool) (s : State) : Host.Outcome State Fault Refusal :=
  .next (finish (clippedPut x y on s))

/-- DRAWLINE (R104). -/
def execDrawLine (x0 y0 x1 y1 : Int) (on : Bool) (s : State) : Host.Outcome State Fault Refusal :=
  .next (if lineOK s.cfg ⟨x0, y0, x1, y1⟩ then finish (lineFill ⟨x0, y0, x1, y1⟩ on s)
    else raise (.invalidArgument 0x03#8) s)

/-- DRAWRECT (R106): the size check, then all four edges checked, then all four drawn. -/
def execDrawRect (x y w h : Int) (on : Bool) (s : State) : Host.Outcome State Fault Refusal :=
  .next (if rectSizeOK s.cfg w h && (rectEdges x y w h).all (lineOK s.cfg) then
      finish (forEach (fun e => lineFill e on) (rectEdges x y w h) s)
    else raise (.invalidArgument 0x04#8) s)

end Sys2Proof.Machine
end

