-- ==== Sys2Proof/Machine/Text.lean ====
section
/-! DEFINITION. The text operations (41_text.md): SETFONT, DRAWCHAR, DRAWTEXT. -/

namespace Sys2Proof.Machine

/-- `DrawGlyph(x, y, c)` in font `f` (R124): the glyph's set bits turn pixels on, clipped as SETPIXEL clips; a clear
bit changes nothing (93 I11). -/
def drawGlyph (f : Font) (x y : Int) (c : Byte) (s : State) : Flow :=
  match glyphIndex f c with
  | .error r => .fault r s
  | .ok g =>
    forEach (fun r => forEach (fun col => fun t =>
        if glyphBit (glyphRow f g r) col then clippedPut (x + (col : Int)) (y + (r : Int)) true t else .go t)
      (List.range f.width.toNat)) (List.range f.height.toNat) s

/-- Where the next glyph of DRAWTEXT goes (R126, D20): at the running position, or, where it would pass the right
edge, at the start column one line pitch (R125) lower. -/
def wrapAt (c : Config) (f : Font) (x cx cy : Int) : Int × Int :=
  if cx + f.width > (c.w : Int) then (x, cy + f.height + 1) else (cx, cy)

/-- DRAWTEXT's loop (R126), at the running position `(cx, cy)`: CR (13) is skipped, LF (10) starts a line, a glyph
past the right edge wraps once, a glyph past the bottom edge stops the loop. -/
def textLoop (f : Font) (x : Int) : List Byte → Int → Int → State → Flow
  | [], _, _, s => .go s
  | c :: cs, cx, cy, s =>
    if c = 13#8 then textLoop f x cs cx cy s
    else if c = 10#8 then textLoop f x cs x (cy + f.height + 1) s
    else
      let p := wrapAt s.cfg f x cx cy
      if p.2 + f.height > (s.cfg.h : Int) then .go s
      else
        match drawGlyph f p.1 p.2 c s with
        | .fault r t => .fault r t
        | .go t => textLoop f x cs (p.1 + f.width + 1) p.2 t

/-- SETFONT (R120, R178): an absent font is ConfigurationError; a font that is not `FontOK` is refused; any other is
installed. -/
def execSetFont (font : Option Font) (s : State) : Host.Outcome State Fault Refusal :=
  .next (match font with
    | none => raise (.configurationError 0x05#8) s
    | some f => if fontOK f then setStatus .ok .nothing { s with font := f } else refuse .illFormedFont s)

/-- DRAWCHAR (R124). -/
def execDrawChar (x y : Int) (c : Byte) (s : State) : Host.Outcome State Fault Refusal :=
  .next (finish (drawGlyph s.font x y c s))

/-- DRAWTEXT (R126). -/
def execDrawText (x y : Int) (text : List Byte) (s : State) : Host.Outcome State Fault Refusal :=
  .next (finish (textLoop s.font x text x y s))

end Sys2Proof.Machine
end

