-- ==== Sys2Proof/Machine/Wire.lean ====
section
/-! DEFINITION. The two framings of the wire (30_encoding.md R62 to R64) as instructions of the transmitter: each is one
transfer (20_memory.md R49; log 17). -/

namespace Sys2Proof.Machine

/-- CTRL_COMMAND (R62, R63): a transfer of command bytes. -/
def execCtrlCommand (rest : List Byte) (s : State) : Host.Outcome State Fault Refusal :=
  .next (transmit (.ctrlCommand rest) s).state

/-- CTRL_DATA (R62, R64): a transfer of framebuffer payload. -/
def execCtrlData (payload : List Byte) (s : State) : Host.Outcome State Fault Refusal :=
  .next (transmit (.ctrlData payload) s).state

end Sys2Proof.Machine
end

