-- ==== Sys2Proof/Machine/Dispatch.lean ====
section
/-! DEFINITION. The one dispatch: one arm per constructor of Instr, each a direct call of its meaning. -/

namespace Sys2Proof.Machine

def exec (i : Instr) (s : State) : Host.Outcome State Fault Refusal :=
  match i with
  | .prepare => Sys2Proof.Machine.execPrepare s
  | .setPixel x y on => Sys2Proof.Machine.execSetPixel x y on s
  | .drawLine x0 y0 x1 y1 on => Sys2Proof.Machine.execDrawLine x0 y0 x1 y1 on s
  | .drawRect x y w h on => Sys2Proof.Machine.execDrawRect x y w h on s
  | .setFont font => Sys2Proof.Machine.execSetFont font s
  | .drawChar x y c => Sys2Proof.Machine.execDrawChar x y c s
  | .drawText x y text => Sys2Proof.Machine.execDrawText x y text s
  | .initialise => Sys2Proof.Machine.execInitialise s
  | .write => Sys2Proof.Machine.execWrite s
  | .clearScreen => Sys2Proof.Machine.execClearScreen s
  | .startScroll left => Sys2Proof.Machine.execStartScroll left s
  | .stopScroll => Sys2Proof.Machine.execStopScroll s
  | .displayOff => Sys2Proof.Machine.execDisplayOff s
  | .displayOn => Sys2Proof.Machine.execDisplayOn s
  | .setMultiplex ratio => Sys2Proof.Machine.execSetMultiplex ratio s
  | .setDisplayOffset offset => Sys2Proof.Machine.execSetDisplayOffset offset s
  | .setStartLine line => Sys2Proof.Machine.execSetStartLine line s
  | .segRemapOn => Sys2Proof.Machine.execSegRemapOn s
  | .segRemapOff => Sys2Proof.Machine.execSegRemapOff s
  | .comScanRemapped => Sys2Proof.Machine.execComScanRemapped s
  | .comScanNormal => Sys2Proof.Machine.execComScanNormal s
  | .setComPins pins => Sys2Proof.Machine.execSetComPins pins s
  | .setContrast level => Sys2Proof.Machine.execSetContrast level s
  | .entireDisplayResume => Sys2Proof.Machine.execEntireDisplayResume s
  | .entireDisplayOn => Sys2Proof.Machine.execEntireDisplayOn s
  | .normalDisplay => Sys2Proof.Machine.execNormalDisplay s
  | .invertDisplay => Sys2Proof.Machine.execInvertDisplay s
  | .setClockDiv div => Sys2Proof.Machine.execSetClockDiv div s
  | .chargePump setting => Sys2Proof.Machine.execChargePump setting s
  | .memoryMode mode => Sys2Proof.Machine.execMemoryMode mode s
  | .columnAddr first last => Sys2Proof.Machine.execColumnAddr first last s
  | .pageAddr first last => Sys2Proof.Machine.execPageAddr first last s
  | .scrollSetupRight startPage interval endPage => Sys2Proof.Machine.execScrollSetupRight startPage interval endPage s
  | .scrollSetupLeft startPage interval endPage => Sys2Proof.Machine.execScrollSetupLeft startPage interval endPage s
  | .scrollActivate => Sys2Proof.Machine.execScrollActivate s
  | .scrollDeactivate => Sys2Proof.Machine.execScrollDeactivate s
  | .ctrlCommand rest => Sys2Proof.Machine.execCtrlCommand rest s
  | .ctrlData payload => Sys2Proof.Machine.execCtrlData payload s

end Sys2Proof.Machine
end

