-- ==== Sys2Proof/Machine/Fetch.lean ====
section
/-! DEFINITION. Where the next instruction comes from: the request port when the block is idle (60_exceptions.md R184),
the executing operation's own queue otherwise (log 11). `Step.lean` only calls this file. -/

namespace Sys2Proof.Machine

/-- What a step does: run an instruction at a state, move to a state without one, or stop. -/
inductive Fetch where
  | run (i : Instr) (s : State)
  | move (s : State)
  | stop (f : Fault)
  deriving DecidableEq, Repr

/-- Idle: take the next request off the port and decode it (R61, R96); with none, wait (R191). -/
def fetchRequest (s : State) : Fetch :=
  match s.requests with
  | [] => .move s
  | r :: rs =>
    match decodeRequest r.bytes with
    | .ok i => .run i { s with requests := rs }
    | .error e => .move (refuse e { s with requests := rs })

/-- Executing: the pending transfer waits for its answer (R50); otherwise the queue's next item, and at its end the
operation completes. -/
def fetchItem (s : State) : Fetch :=
  if s.busy then
    match awaitAnswer s with
    | .waiting _ => .stop .transportStalled
    | .done t => .move t
    | .failed t => .move t
  else
    match s.txq with
    | [] => .move (completeOp s)
    | .cmd i :: rest => .run i { s with txq := rest }
    | .setFsm f :: rest => .move { s with fsm := f, txq := rest }
    | .setScroll d :: rest => .move { s with scroll := d, txq := rest }

/-- A request at the head of the port that was issued while another was executing (R187), by the requests after it. -/
def overlapping (s : State) : Option (List Request) :=
  match s.requests with
  | r :: rs => if r.overlaps then some rs else none
  | [] => none

/-- A faulted state goes nowhere (R175). A concurrent call is refused, whether the operation it was issued into is
still executing or ended in its own step, and nothing else changes (R52, R187; log 10). -/
def fetch (s : State) : Fetch :=
  match s.faults with
  | r :: _ => .stop (.modelFault r)
  | [] =>
    match overlapping s with
    | some rs => .move (refuse .concurrentCall { s with requests := rs })
    | none =>
      match s.op with
      | none => fetchRequest s
      | some _ => fetchItem s

/-- `s` with a request on the port and the block ready to take it. -/
def placeRequest (bs : List Byte) (s : State) : State :=
  { s with faults := [], op := none, txq := [], busy := false, seq := 0, requests := ⟨bs, false⟩ :: s.requests }

/-- `s` with a command or transfer at the front of the executing operation's queue; where no operation is executing,
one is (INITIALIZE). A concurrent call at the head of the port would be served first: it is put off. -/
def placeCommand (i : Instr) (s : State) : State :=
  { s with
    faults := []
    op := match s.op with
      | some o => some o
      | none => some .initialise
    txq := .cmd i :: s.txq
    busy := false
    requests := s.requests.map (fun r => { r with overlaps := false }) }

/-- The instruction at a table word, where `fetch` takes its next instruction from (log 10, 21). -/
def placeWord (s : State) (nbits w : Nat) : State :=
  match decodeTableWord nbits w with
  | some i =>
    match laneOf i with
    | .request => placeRequest (tableMessage nbits w) s
    | .command => placeCommand i s
    | .transfer => placeCommand i s
  | none => placeRequest (tableMessage nbits w) s

end Sys2Proof.Machine
end

