-- ==== Sys2Proof/Machine/Construct.lean ====
section
/-! DEFINITION. Construction, the block's reset and its only one (70_reset_and_hazards.md R190, R191). -/

namespace Sys2Proof.Machine

/-- `Construct` (R190): refused outside the admitted domain; otherwise a block in its reset state, whose framebuffer
bytes are draw `d`. It sends no transfer and raises no error. -/
def construct (c : Config) (d : Nat) : Host.Outcome State Fault Refusal :=
  if admitted c then .next (State.fresh c d) else .refused .geometryOutOfDomain

end Sys2Proof.Machine
end

