-- ==== Sys2Proof/Machine/Flags.lean ====
section
/-! DEFINITION. The block has no condition codes (10_state.md R32). Its flags are the fields of the control registers
CR0 to CR7 (R31), which no host operation reads or writes: they are views of State, computed here. -/

namespace Sys2Proof.Machine

/-- CR0 STATE (R31). -/
def fsmCode : Fsm → Nat
  | .uninitialized => 0
  | .initializing => 1
  | .active => 2

/-- CR1 SUB (R31). -/
def scrollCode : Scroll → Nat
  | .off => 0
  | .scrollingLeft => 1
  | .scrollingRight => 2

/-- The failure kinds' codes (R171). -/
def kindCode : Kind → Nat
  | .nack => 0
  | .arbitrationLost => 1
  | .timeout => 2
  | .other => 3

/-- The status codes (R170). -/
def statusCode : Status → Nat
  | .ok => 0
  | .invalidArgument => 1
  | .configurationError => 2
  | .transportError => 3

/-- CR2 (R31): LATCH bit 0, KIND bits 2:1, OP bits 15:8, INDEX bits 31:16; all 0 while nothing has failed. -/
def faultWord : Option FaultInfo → Word
  | none => 0
  | some f => BitVec.ofNat 32 (1 + 2 * kindCode f.kind + 256 * f.op.toNat + 65536 * (f.index % 65536))

/-- CR0 FSM. -/
def cr0 (s : State) : Word := BitVec.ofNat 32 (fsmCode s.fsm)

/-- CR1 SCROLL. -/
def cr1 (s : State) : Word := BitVec.ofNat 32 (scrollCode s.scroll)

/-- CR2 FAULT. -/
def cr2 (s : State) : Word := faultWord s.fault

/-- CR3 STATUS: CODE bits 1:0, VALID bit 2. -/
def cr3 (s : State) : Word := BitVec.ofNat 32 (statusCode s.status + 4 * s.statusValid.toNat)

/-- CR4 GEOM: W bits 15:0, H bits 31:16. -/
def cr4 (s : State) : Word := BitVec.ofNat 32 (s.cfg.w % 65536 + 65536 * (s.cfg.h % 65536))

/-- CR5 BUSADDR: ADDR bits 6:0. -/
def cr5 (s : State) : Word := BitVec.ofNat 32 (s.cfg.addr % 128)

/-- CR6 SEQ. -/
def cr6 (s : State) : Word := BitVec.ofNat 32 s.seq

/-- CR7 BUSY. -/
def cr7 (s : State) : Word := BitVec.ofNat 32 s.busy.toNat

end Sys2Proof.Machine
end

