-- ==== Sys2Proof/Safety.lean ====
section
/-! DEFINITION. What counts as a safe run (70_reset_and_hazards.md R194), and the invariant of the machine: what holds
of every block after construction and is kept by every step. -/

namespace Sys2Proof.Machine

/-- The model marks are clear: the premise of every claim (R175, R176). -/
def marksClear (s : State) : Bool := s.faults.isEmpty && s.refused.isNone

/-- The run has ended and `s` is its final state: the last request has returned and the host issues nothing further
(R194). A faulted state is never one (R175). -/
def runEnded (s : State) : Bool := !s.busy && s.op.isNone && s.requests.isEmpty && s.faults.isEmpty

/-- The end of a successful run: REFUSED is clear too (R194). -/
def successful (s : State) : Bool := runEnded s && marksClear s

/-- The bytes of a transfer (R62, R64): a command control byte with something after it, or a data control byte with 1
to 16 payload bytes. -/
def framed : List Byte → Bool
  | [] => false
  | b :: rest =>
    (decide (b = 0x00#8) && decide (1 ≤ rest.length))
      || (decide (b = 0x40#8) && decide (1 ≤ rest.length) && decide (rest.length ≤ 16))

/-- A well-formed controller command or transfer: what the transmitter executes. -/
def isTransmitter (i : Instr) : Bool := decide (laneOf i ≠ .request) && wellFormed i

/-- An item an operation may have queued. -/
def itemOK : TxItem → Bool
  | .cmd i => isTransmitter i
  | .setFsm f => decide (f ≠ .uninitialized)
  | .setScroll _ => true

/-- How many transfers an item is. -/
def itemTransfers (c : Config) : TxItem → Nat
  | .cmd i => (framesOf c i).length
  | .setFsm _ => 0
  | .setScroll _ => 0

/-- How many transfers a queue holds. -/
def queueTransfers (c : Config) (q : List TxItem) : Nat := (q.map (itemTransfers c)).sum

/-- The largest number of transfers of one operation: WRITE, PerByte, 256x256 (R31). -/
def transferCap : Nat := 1030

/-- What holds of every block that construction made, at every step. -/
structure MachineInv (s : State) : Prop where
  /-- The parameters are in the admitted domain (R190, R21). -/
  admitted : admitted s.cfg = true
  /-- The framebuffer's list is in its canonical form. -/
  memWf : Memory.wf s.fb = true
  /-- No byte outside `0..FBSIZE-1` exists (R22). -/
  memIn : ∀ c ∈ s.fb, c.1 < fbSize s.cfg
  /-- The current font is an admitted one (R121). -/
  font : fontOK s.font = true
  /-- SEQ and BUSY are 0 whenever no operation is executing (R27), and nothing is left to do. -/
  idle : s.op = none → s.seq = 0 ∧ s.busy = false ∧ s.txq = []
  /-- Only commands, transfers and the operations' own assignments are queued. -/
  queue : ∀ it ∈ s.txq, itemOK it = true
  /-- Every transfer went to the one destination (R40), framed (R62). -/
  log : ∀ e ∈ s.tlog, e.bus = s.cfg.busId ∧ e.addr = s.cfg.addr ∧ framed e.bytes = true
  /-- Every transfer but the last has its outcome (R55 (3)). -/
  settled : ∀ e ∈ s.tlog.dropLast, e.outcome ≠ .pending
  /-- BUSY is 1 exactly while the last transfer has no outcome (R27). -/
  pending : s.busy = true ↔ ∃ e, s.tlog.getLast? = some e ∧ e.outcome = .pending
  /-- SEQ with what is still to send stays within the cap (R31). -/
  count : s.seq + (if s.busy then 1 else 0) + queueTransfers s.cfg s.txq ≤ transferCap
  /-- The latched index fits its 16-bit field (R31). -/
  latched : ∀ f, s.fault = some f → f.index < transferCap
  /-- STATUS is 0 until the first operation completes (R28, R35). -/
  unread : s.statusValid = false → s.status = .ok

end Sys2Proof.Machine
end

