-- ==== Sys2Proof/Certificates/Slice0/Obligations.lean ====
section
/-! DEFINITION. The statements for the provers. Each follows numbered rules of spec/; OBLIGATIONS.json lists them. What
a statement needs beyond the model's own names stands first, written from the rules and not from the meanings. -/

namespace Sys2Proof.Claims

open Sys2Proof.Machine

/-- `Cmd` of several commands in order (R63): one transfer a command, or one a byte. -/
def cut (split : CmdSplit) (cmds : List (List Byte)) : List (List Byte) :=
  match split with
  | .perCommand => cmds.map (fun c => 0x00#8 :: c)
  | .perByte => cmds.flatten.map (fun b => [0x00#8, b])

/-- The 14 commands of INITIALIZE with their bytes (R140). -/
def initCommands (c : Config) : List (List Byte) :=
  [[c.cmdtab.displayOff], [c.cmdtab.setMultiplex, BitVec.ofNat 8 (c.h - 1)], [c.cmdtab.setDisplayOffset, 0x00#8],
   [c.cmdtab.setStartLine], [c.cmdtab.segRemapOn], [c.cmdtab.comScanRemapped], [c.cmdtab.setComPins, c.compins],
   [c.cmdtab.setContrast, c.contrast], [c.cmdtab.entireDisplayResume], [c.cmdtab.normalDisplay],
   [c.cmdtab.setClockDiv, c.clkdiv], [c.cmdtab.chargePump, c.chgpump], [c.cmdtab.memoryMode, c.addrmode],
   [c.cmdtab.displayOn]]

/-- Burst `b` of the framebuffer: `FB[16b .. min(16b + 16, FBSIZE))` (R142). -/
def payload (s : State) (b : Nat) : List Byte :=
  (List.range (min 16 (fbSize s.cfg - 16 * b))).map (fun k => fbByte s (16 * b + k))

/-- The transfers of WRITE (R146): the windows, then for each burst the start line (R143) and the data. -/
def writeFrames (s : State) : List (List Byte) :=
  cut s.cfg.split [[s.cfg.cmdtab.columnAddr, 0x00#8, BitVec.ofNat 8 (s.cfg.w - 1)],
      [s.cfg.cmdtab.pageAddr, 0x00#8, BitVec.ofNat 8 (s.cfg.h / 8 - 1)]]
    ++ (List.range ((fbSize s.cfg + 15) / 16)).flatMap
        (fun b => [[0x00#8, s.cfg.cmdtab.setStartLine], 0x40#8 :: payload s b])

/-- The transfers of STARTSCROLL (R150, R86, R87). -/
def startScrollFrames (c : Config) (left : Bool) : List (List Byte) :=
  cut c.split [[c.cmdtab.scrollDeactivate],
    [if left then c.cmdtab.scrollSetupLeft else c.cmdtab.scrollSetupRight, c.cmdtab.scrollDummy1, 0x00#8, 0x00#8,
     BitVec.ofNat 8 (c.h / 8 - 1), c.cmdtab.scrollDummy5, c.cmdtab.scrollDummy6],
    [c.cmdtab.scrollActivate]]

/-- The transfers of STOPSCROLL (R151). -/
def stopScrollFrames (c : Config) : List (List Byte) := [[0x00#8, c.cmdtab.scrollDeactivate]]

/-- TLOG entries of this block with the outcome Ok (R29). -/
def logOk (c : Config) (frames : List (List Byte)) : List LogEntry :=
  frames.map (fun b => ⟨c.busId, c.addr, b, .ok⟩)

/-- The state with every framebuffer byte zero (R148): CLEARSCREEN transmits from it. -/
def cleared (s : State) : State := { s with fb := Memory.clear s.fb (fbSize s.cfg) }

/-- The host operation of a transmitting operation. -/
def opInstr : TxOp → Instr
  | .initialise => .initialise
  | .write => .write
  | .clearScreen => .clearScreen
  | .startScroll left => .startScroll left
  | .stopScroll => .stopScroll

/-- Its transfers. -/
def opFrames (o : TxOp) (s : State) : List (List Byte) :=
  match o with
  | .initialise => cut s.cfg.split (initCommands s.cfg)
  | .write => writeFrames s
  | .clearScreen => writeFrames (cleared s)
  | .startScroll left => startScrollFrames s.cfg left
  | .stopScroll => stopScrollFrames s.cfg

/-- FB while it runs: CLEARSCREEN has cleared it first (R148). -/
def opFb (o : TxOp) (s : State) : Memory :=
  match o with
  | .clearScreen => Memory.clear s.fb (fbSize s.cfg)
  | .initialise => s.fb
  | .write => s.fb
  | .startScroll _ => s.fb
  | .stopScroll => s.fb

/-- FSM before it has completed: INITIALIZE has made it Initializing (R141). -/
def opFsm (o : TxOp) (s : State) : Fsm :=
  match o with
  | .initialise => .initializing
  | .write => s.fsm
  | .clearScreen => s.fsm
  | .startScroll _ => s.fsm
  | .stopScroll => s.fsm

/-- SCROLL where transfer `j` has not completed: STARTSCROLL's deactivate is its transfer 0, its activate the last
(R149, R150). -/
def opScroll (o : TxOp) (j : Nat) (s : State) : Scroll :=
  match o with
  | .startScroll _ => if j = 0 then s.scroll else .off
  | .initialise => s.scroll
  | .write => s.scroll
  | .clearScreen => s.scroll
  | .stopScroll => s.scroll

/-- Its request opcode (R60). -/
def opByte : TxOp → Byte
  | .initialise => 0x10#8
  | .write => 0x11#8
  | .clearScreen => 0x12#8
  | .startScroll _ => 0x13#8
  | .stopScroll => 0x14#8

/-- The 24 controller commands with their bytes under a table (R66 to R89), `p`, `q`, `r` their parameters in order. -/
def commandRows (t : CmdTab) (p q r : Byte) (line : BitVec 6) : List (Instr × List Byte) :=
  [(.displayOff, [t.displayOff]), (.displayOn, [t.displayOn]), (.setMultiplex p, [t.setMultiplex, p]),
   (.setDisplayOffset p, [t.setDisplayOffset, p]), (.setStartLine line, [t.setStartLine ||| line.setWidth 8]),
   (.segRemapOn, [t.segRemapOn]), (.segRemapOff, [t.segRemapOff]), (.comScanRemapped, [t.comScanRemapped]),
   (.comScanNormal, [t.comScanNormal]), (.setComPins p, [t.setComPins, p]), (.setContrast p, [t.setContrast, p]),
   (.entireDisplayResume, [t.entireDisplayResume]), (.entireDisplayOn, [t.entireDisplayOn]),
   (.normalDisplay, [t.normalDisplay]), (.invertDisplay, [t.invertDisplay]), (.setClockDiv p, [t.setClockDiv, p]),
   (.chargePump p, [t.chargePump, p]), (.memoryMode p, [t.memoryMode, p]), (.columnAddr p q, [t.columnAddr, p, q]),
   (.pageAddr p q, [t.pageAddr, p, q]),
   (.scrollSetupRight p q r, [t.scrollSetupRight, t.scrollDummy1, p, q, r, t.scrollDummy5, t.scrollDummy6]),
   (.scrollSetupLeft p q r, [t.scrollSetupLeft, t.scrollDummy1, p, q, r, t.scrollDummy5, t.scrollDummy6]),
   (.scrollActivate, [t.scrollActivate]), (.scrollDeactivate, [t.scrollDeactivate])]

/-- SCROLL once a command has completed (R149). -/
def scrollDone (i : Instr) (op : Option TxOp) (d : Scroll) : Scroll :=
  if i = .scrollDeactivate then .off
  else if i = .scrollActivate then
    (if op = some (.startScroll true) then .scrollingLeft
     else if op = some (.startScroll false) then .scrollingRight else d)
  else d

/-- `x`, `y` in the closed rectangle (R103). -/
def inBox (x0 y0 x1 y1 x y : Int) : Prop := x0 ≤ x ∧ x ≤ x1 ∧ y0 ≤ y ∧ y ≤ y1

/-- The pixels DRAWRECT writes, in R107's closed form. -/
def onOutline (W H x y w h px py : Int) : Prop :=
  ((py = min y (H - 1) ∨ py = h - 1) ∧ min x (W - 1) ≤ px ∧ px ≤ min (x + w - 1) (W - 1))
    ∨ ((px = min x (W - 1) ∨ px = min (x + w - 1) (W - 1)) ∧ min y (H - 1) ≤ py ∧ py ≤ min (y + h - 1) (H - 1))

/-- The pixels glyph `g` turns on with its corner at `(x, y)` (R123, R124): column `col` of row `r` is bit `31 - col` of
word `g * height + r`. -/
def glyphPixel (f : Font) (g : Nat) (x y px py : Int) : Prop :=
  0 ≤ px - x ∧ px - x < f.width ∧ 0 ≤ py - y ∧ py - y < f.height
    ∧ ((f.table[g * f.height.toNat + (py - y).toNat]?).getD 0).getLsbD (31 - (px - x).toNat) = true

/-- Where DRAWTEXT puts each glyph (R126), from the running position on. -/
def glyphPlaces (f : Font) (W H x : Int) : List Byte → Int → Int → List (Int × Int × Byte)
  | [], _, _ => []
  | c :: cs, cx, cy =>
    if c = 13#8 then glyphPlaces f W H x cs cx cy
    else if c = 10#8 then glyphPlaces f W H x cs x (cy + f.height + 1)
    else
      let gx := if cx + f.width > W then x else cx
      let gy := if cx + f.width > W then cy + f.height + 1 else cy
      if gy + f.height > H then []
      else (gx, gy, c) :: glyphPlaces f W H x cs (gx + f.width + 1) gy

/-- Pixels of the panel read as before unless `S` holds of them, where they read `on`; and a byte without such a pixel
reads as before. -/
def Drawn (S : Int → Int → Prop) (on : Bool) (s t : State) : Prop :=
  (∀ x y, onPanel s.cfg x y = true → (S x y → pixelGet t x y = on) ∧ (¬ S x y → pixelGet t x y = pixelGet s x y))
    ∧ ∀ a : Nat, (∀ x y, onPanel s.cfg x y = true → S x y → (fbAddr s.cfg x y).toNat ≠ a) → fbByte t a = fbByte s a

/-- The end of an operation that drew and ended OK: only FB and STATUS differ (R36). -/
def DrawnOk (s t : State) : Prop :=
  t = { s with fb := t.fb, status := .ok, statusInfo := .nothing, statusValid := true }

/-- The state with other FSM, FAULT and STATUS. -/
def withControl (f : Fsm) (ft : Option FaultInfo) (st : Status) (info : StatusInfo) (v : Bool) (s : State) : State :=
  { s with fsm := f, fault := ft, status := st, statusInfo := info, statusValid := v }

/-- The commands of a transmitting operation, before they are cut into transfers (R140, R143, R146, R150, R151). -/
def opCommands (o : TxOp) (c : Config) : List (List Byte) :=
  let screen := [[c.cmdtab.columnAddr, 0x00#8, BitVec.ofNat 8 (c.w - 1)],
      [c.cmdtab.pageAddr, 0x00#8, BitVec.ofNat 8 (c.h / 8 - 1)]]
    ++ List.replicate ((fbSize c + 15) / 16) [c.cmdtab.setStartLine]
  match o with
  | .initialise => initCommands c
  | .write => screen
  | .clearScreen => screen
  | .startScroll left => [[c.cmdtab.scrollDeactivate],
      [if left then c.cmdtab.scrollSetupLeft else c.cmdtab.scrollSetupRight, c.cmdtab.scrollDummy1, 0x00#8, 0x00#8,
       BitVec.ofNat 8 (c.h / 8 - 1), c.cmdtab.scrollDummy5, c.cmdtab.scrollDummy6],
      [c.cmdtab.scrollActivate]]
  | .stopScroll => [[c.cmdtab.scrollDeactivate]]

/-- The transfers handed over between two states: the bytes of the TLOG entries appended (R29). -/
def sent (s t : State) : List (List Byte) := (t.tlog.drop s.tlog.length).map (·.bytes)

/-- Those of them that are data transfers (R62). -/
def dataSent (s t : State) : List (List Byte) := (sent s t).filter (fun b => decide (b.head? = some 0x40#8))

/-- What follows the control bytes of those that are command transfers (R63). -/
def commandBytesSent (s t : State) : List Byte :=
  ((sent s t).filter (fun b => decide (b.head? = some 0x00#8))).flatMap List.tail

/-- The transfers that a queue still holds. -/
def queued (c : Config) (q : List TxItem) : List (List Byte) :=
  q.flatMap (fun it => match it with
    | .cmd i => (framesOf c i).map transferBytes
    | .setFsm _ => []
    | .setScroll _ => [])

/-- The state under a CMD_SPLIT. -/
def withSplit (split : CmdSplit) (s : State) : State := { s with cfg := { s.cfg with split := split } }

/-- The state with answers of the transport. -/
def withAnswers (as : List Answer) (s : State) : State := { s with answers := as }

/-- An instruction that draws or installs a font: the raster and text operations. -/
def isDrawing : Instr → Bool
  | .prepare => true
  | .setPixel _ _ _ => true
  | .drawLine _ _ _ _ _ => true
  | .drawRect _ _ _ _ _ => true
  | .setFont _ => true
  | .drawChar _ _ _ => true
  | .drawText _ _ _ => true
  | _ => false

/-- The operations with a W in the FB column of R36. -/
def writesFb : Instr → Bool
  | .prepare => true
  | .setPixel _ _ _ => true
  | .drawLine _ _ _ _ _ => true
  | .drawRect _ _ _ _ _ => true
  | .drawChar _ _ _ => true
  | .drawText _ _ _ => true
  | .clearScreen => true
  | _ => false

/-- The operations with a W in the SCROLL column of R36. -/
def writesScroll : Instr → Bool
  | .startScroll _ => true
  | .stopScroll => true
  | _ => false

/-- The operations with a W in the FAULT, SEQ/BUSY and TLOG columns of R36. -/
def writesBus : Instr → Bool
  | .initialise => true
  | .write => true
  | .clearScreen => true
  | .startScroll _ => true
  | .stopScroll => true
  | _ => false

/-- The opcode and the length in bytes of a request (R60). -/
def encodedAs (i : Instr) (op : Byte) (n : Nat) : Prop := (requestBytes i).head? = some op ∧ (requestBytes i).length = n

/-- The assigned request opcodes (R60). -/
def assigned (b : Byte) : Bool :=
  decide (1 ≤ b.toNat ∧ b.toNat ≤ 7) || decide (0x10 ≤ b.toNat ∧ b.toNat ≤ 0x14)

end Sys2Proof.Claims

open Sys2Proof Sys2Proof.Machine Sys2Proof.Claims

/-! ### Reset and construction -/

/-- R35, and the defaults of R190: every element right after construction. The byte a construction leaves in FB is the
free value of log 7 (the model's), whatever its value. -/
def Obligations.ConstructionGivesResetValues : Prop :=
  (∀ c d, (State.fresh c d).fsm = .uninitialized ∧ (State.fresh c d).scroll = .off ∧ (State.fresh c d).fault = none
    ∧ (State.fresh c d).seq = 0 ∧ (State.fresh c d).busy = false ∧ (State.fresh c d).status = .ok
    ∧ (State.fresh c d).statusValid = false ∧ (State.fresh c d).tlog = [] ∧ (State.fresh c d).faults = []
    ∧ (State.fresh c d).refused = none ∧ (State.fresh c d).font = c.defaultFont ∧ (State.fresh c d).cfg = c
    ∧ (State.fresh c d).op = none ∧ ∀ a, fbByte (State.fresh c d) a = Config.constructionDraw d a)
  ∧ State.reset = State.fresh defaultParams 0 ∧ State.reset.cfg.w = 128 ∧ State.reset.cfg.h = 32
  ∧ State.reset.cfg.addr = 0x3C ∧ State.reset.font.width = 7 ∧ State.reset.font.height = 9
  ∧ fontOK State.reset.font = true ∧ 32 ≤ glyphCount State.reset.font

/-- R190: construction is refused outside the admitted domain and gives the reset state inside it. -/
def Obligations.ConstructionChecksTheDomain : Prop :=
  ∀ (c : Config) (d : Nat),
    ((1 ≤ c.w ∧ c.w ≤ 256) ∧ (8 ≤ c.h ∧ c.h ≤ 256 ∧ c.h % 8 = 0) ∧ c.addr ≤ 0x7F → construct c d = .next (State.fresh c d))
    ∧ (¬ ((1 ≤ c.w ∧ c.w ≤ 256) ∧ (8 ≤ c.h ∧ c.h ≤ 256 ∧ c.h % 8 = 0) ∧ c.addr ≤ 0x7F) →
        construct c d = .refused .geometryOutOfDomain)

/-- The invariant holds of every constructed block whose default font is admitted (R127), and of reset. -/
def Obligations.ConstructedBlocksMeetTheInvariant : Prop :=
  (∀ c d s, construct c d = .next s → fontOK c.defaultFont = true → MachineInv s) ∧ MachineInv State.reset

/-- Every step keeps the invariant. -/
def Obligations.StepKeepsTheInvariant : Prop := ∀ s t, MachineInv s → step s = .next t → MachineInv t

/-! ### Encodings -/

/-- Every bit of every encoding is read back: all 38 rows, each in its format. -/
def Obligations.DecodeOfEncode : Prop :=
  ∀ i, wellFormed i = true → decodeLane (laneOf i) (encode i) = some i

/-- R61, R96: a message decodes only if it is exactly the encoding of a well-formed request. -/
def Obligations.RequestsHaveOneEncoding : Prop :=
  ∀ bs i, decodeRequest bs = .ok i → requestBytes i = bs ∧ laneOf i = .request ∧ wellFormed i = true

/-- A stream of controller commands is read back command by command, whatever follows. -/
def Obligations.CommandsDecodeInAStream : Prop :=
  ∀ i rest, laneOf i = .command → parseCommand (cmdBytes ssd1306Default i ++ rest) = some (i, rest)

/-- R91: exactly the opcodes 0x00, 0x08..0x0F and 0x15..0xFF are refused as unassigned, and the step changes no state
but the port and the refusal mark. -/
def Obligations.UnassignedOpcodesAreRefused : Prop :=
  (∀ b bs, decodeRequest (b :: bs) = .error .unassignedOpcode
      ↔ (b.toNat = 0 ∨ (0x08 ≤ b.toNat ∧ b.toNat ≤ 0x0F) ∨ 0x15 ≤ b.toNat))
  ∧ ∀ s b bs rs, s.faults = [] → s.op = none → s.requests = ⟨b :: bs, false⟩ :: rs →
      (b.toNat = 0 ∨ (0x08 ≤ b.toNat ∧ b.toNat ≤ 0x0F) ∨ 0x15 ≤ b.toNat) →
      step s = .next { s with requests := rs, refused := some .unassignedOpcode }

/-- R61: a message with an assigned opcode that is no request's encoding (shorter, longer, another BOOL or FONTREF tag)
is refused as malformed, and the step changes no state but the port and the refusal mark. -/
def Obligations.MalformedRequestsAreRefused : Prop :=
  (∀ b bs, assigned b = true → (∀ i, wellFormed i = true → requestBytes i ≠ b :: bs) →
      decodeRequest (b :: bs) = .error .malformedRequest)
  ∧ ∀ s bs rs, s.faults = [] → s.op = none → s.requests = ⟨bs, false⟩ :: rs →
      decodeRequest bs = .error .malformedRequest →
      step s = .next { s with requests := rs, refused := some .malformedRequest }

/-- Words written out from R60, R61, R66 to R89 and R62 decode to what they stand for (95 V-D-E1, E2, E8, E13, E14).
The two controller commands, 0xA8 and 0x27, are the default table's, which the spec takes from general knowledge: log 3
(PRESUMED). -/
def Obligations.SampleWordsDecode : Prop :=
  decodeRequest [0x02, 3, 0, 0, 0, 0x0A, 0, 0, 0, 1] = .ok (.setPixel 3 10 true)
  ∧ decodeRequest [0x03, 0xFF, 0xFF, 0xFF, 0xFF, 0, 0, 0, 0, 3, 0, 0, 0, 0, 0, 0, 0, 1] = .ok (.drawLine (-1) 0 3 0 true)
  ∧ decodeRequest [0x05, 0] = .ok (.setFont none)
  ∧ decodeRequest [0x06, 0, 0, 0, 0, 0, 0, 0, 0, 0x41] = .ok (.drawChar 0 0 0x41)
  ∧ decodeRequest [0x13, 1] = .ok (.startScroll true)
  ∧ decodeCommand [0xA8, 0x1F] = some (.setMultiplex 0x1F)
  ∧ decodeCommand [0x27, 0, 0, 0, 3, 0, 0xFF] = some (.scrollSetupLeft 0 0 3)
  ∧ decodeTransfer [0x40, 1, 2] = some (.ctrlData [1, 2])

/-! ### The step -/

/-- An idle block runs the request it decodes. A request issued while another was executing is not run:
ConcurrentCallsAreRefused. -/
def Obligations.StepRunsTheDecodedRequest : Prop :=
  ∀ s r rs i, s.faults = [] → s.op = none → s.requests = r :: rs → r.overlaps = false →
    decodeRequest r.bytes = .ok i →
    step s = exec i { s with requests := rs }

/-- An executing operation runs the command or transfer at the head of its queue. -/
def Obligations.StepRunsTheQueuedCommand : Prop :=
  ∀ s o i q, s.faults = [] → s.op = some o → (∀ r ∈ s.requests.head?, r.overlaps = false) → s.busy = false →
    s.txq = .cmd i :: q → step s = exec i { s with txq := q }

/-- R191: an idle block with no request waits; R175: a faulted state stops for good and is no final state; R50: a pending transfer without an
answer is a hang, in which no step is taken. -/
def Obligations.StepWaitsOrStops : Prop :=
  (∀ s, s.faults = [] → s.op = none → s.requests = [] → step s = .next s)
  ∧ (∀ s r rs, s.faults = r :: rs → step s = .fault (.modelFault r) ∧ runEnded s = false)
  ∧ (∀ s o, s.faults = [] → s.op = some o → (∀ r ∈ s.requests.head?, r.overlaps = false) → s.busy = true →
      s.answers = [] → step s = .fault .transportStalled)

/-- R49, R177: the answer to a pending transfer. Ok completes it: BUSY is cleared, the outcome filled in and SEQ advanced
by 1. Err ends the operation there: the outcome is filled in, the first failure is latched with index SEQ, SEQ and BUSY
are 0, STATUS is TransportError, and the rest is not sent. -/
def Obligations.AnswerCompletesThePendingTransfer : Prop :=
  ∀ s o l e as, s.faults = [] → s.op = some o → (∀ r ∈ s.requests.head?, r.overlaps = false) → s.busy = true →
    s.tlog = l ++ [e] →
    (s.answers = .ok :: as →
      step s = .next { s with
        busy := false, tlog := l ++ [{ e with outcome := .ok }], seq := s.seq + 1, answers := as })
    ∧ ∀ k, s.answers = .err k :: as →
      step s = .next { s with
        busy := false, tlog := l ++ [{ e with outcome := .err k }], seq := 0, answers := as, op := none, txq := [],
        fault := (match s.fault with
          | none => some ⟨opByte o, s.seq, k⟩
          | some f => some f),
        status := .transportError, statusInfo := .transport (opByte o) s.seq k, statusValid := true }

/-- R187, R52, R201: a request issued while another was executing is refused, only the mark changes, and the request is
gone: in every state, and so also behind an operation that ended in its own step (how the port says it: log 10). -/
def Obligations.ConcurrentCallsAreRefused : Prop :=
  (∀ s r rs, s.faults = [] → s.requests = r :: rs → r.overlaps = true →
    step s = .next { s with requests := rs, refused := some .concurrentCall })
  ∧ ∀ s r r' rs i t, s.faults = [] → s.op = none → s.requests = r :: r' :: rs → r.overlaps = false →
    r'.overlaps = true → decodeRequest r.bytes = .ok i → exec i { s with requests := r' :: rs } = .next t →
    t.faults = [] →
    step s = .next t ∧ step t = .next { t with requests := rs, refused := some .concurrentCall }

/-- R24, R183: every instruction is accepted in every state: exec answers a next state. A refused SETFONT (R120) and a
character that faults (R122) are among these next states, by their marks: logs 14 and 13 (the model's form). -/
def Obligations.EveryInstructionIsAccepted : Prop := ∀ i s, ∃ t, exec i s = .next t

/-! ### The framebuffer -/

/-- The map from pixels to (address, bit) pairs (R41, R42) is a bijection, and its inverse: what R43 says, an inference
the spec marks as derived. -/
def Obligations.PixelMapIsABijection : Prop :=
  ∀ c, admitted c = true →
    (∀ x y, onPanel c x y = true → 0 ≤ fbAddr c x y ∧ fbAddr c x y < (fbSize c : Int))
    ∧ (∀ x y x' y', onPanel c x y = true → onPanel c x' y' = true → fbAddr c x y = fbAddr c x' y' → y % 8 = y' % 8 →
        x = x' ∧ y = y')
    ∧ ∀ a b : Nat, a < fbSize c → b < 8 →
        onPanel c ((a % c.w : Nat) : Int) ((8 * (a / c.w) + b : Nat) : Int) = true
        ∧ fbAddr c ((a % c.w : Nat) : Int) ((8 * (a / c.w) + b : Nat) : Int) = (a : Int)
        ∧ ((8 * (a / c.w) + b : Nat) : Int) % 8 = (b : Int)

/-- R45: `PixelPut` writes `v | (1 << b)` or `v & (255 - (1 << b))` to one byte: one bit takes the value, every other
bit of that byte and every other byte keeps its value. -/
def Obligations.PixelPutChangesOneBit : Prop :=
  ∀ s x y on, admitted s.cfg = true → onPanel s.cfg x y = true →
    ∃ t, pixelPut x y on s = .go t ∧ t = { s with fb := t.fb }
      ∧ fbByte t (fbAddr s.cfg x y).toNat
          = (if on then fbByte s (fbAddr s.cfg x y).toNat ||| (1#8 <<< (y % 8).toNat)
             else fbByte s (fbAddr s.cfg x y).toNat &&& (255#8 - (1#8 <<< (y % 8).toNat)))
      ∧ (∀ k, k < 8 → (fbByte t (fbAddr s.cfg x y).toNat).getLsbD k
          = if k = (y % 8).toNat then on else (fbByte s (fbAddr s.cfg x y).toNat).getLsbD k)
      ∧ ∀ a, a ≠ (fbAddr s.cfg x y).toNat → fbByte t a = fbByte s a

/-- R100: PREPARE completes in every state: every framebuffer byte is zero, and nothing else changes but STATUS. -/
def Obligations.PrepareZeroesTheFramebuffer : Prop :=
  ∀ s, ∃ t, exec .prepare s = .next t ∧ DrawnOk s t
    ∧ ∀ a, fbByte t a = if a < fbSize s.cfg then 0x00#8 else fbByte s a

/-- R101: SETPIXEL writes its one pixel if it is on the panel; off the panel the buffer is unchanged; STATUS is OK. -/
def Obligations.SetPixelWritesOnePixel : Prop :=
  ∀ s x y on, admitted s.cfg = true → encodedAs (.setPixel x y on) 0x02#8 10
    ∧ ∃ t, exec (.setPixel x y on) s = .next t ∧ DrawnOk s t
      ∧ Drawn (fun px py => px = x ∧ py = y) on s t
      ∧ (¬ (0 ≤ x ∧ x < (s.cfg.w : Int) ∧ 0 ≤ y ∧ y < (s.cfg.h : Int)) → t.fb = s.fb)

/-- R104 with R102 and R103: a valid DRAWLINE fills the closed rectangle between its clamped corners; any other is
InvalidArgument and changes nothing but STATUS. -/
def Obligations.DrawLineFillsARectangle : Prop :=
  ∀ s x0 y0 x1 y1 on, admitted s.cfg = true → encodedAs (.drawLine x0 y0 x1 y1 on) 0x03#8 18
    ∧ ((0 ≤ x0 ∧ 0 ≤ y0 ∧ x0 ≤ x1 ∧ y0 ≤ y1 ∧ x1 ≤ (s.cfg.w : Int) ∧ y1 ≤ (s.cfg.h : Int)) →
      ∃ t, exec (.drawLine x0 y0 x1 y1 on) s = .next t ∧ DrawnOk s t
        ∧ Drawn (inBox (min x0 ((s.cfg.w : Int) - 1)) (min y0 ((s.cfg.h : Int) - 1)) (min x1 ((s.cfg.w : Int) - 1))
            (min y1 ((s.cfg.h : Int) - 1))) on s t)
    ∧ (¬ (0 ≤ x0 ∧ 0 ≤ y0 ∧ x0 ≤ x1 ∧ y0 ≤ y1 ∧ x1 ≤ (s.cfg.w : Int) ∧ y1 ≤ (s.cfg.h : Int)) →
      exec (.drawLine x0 y0 x1 y1 on) s
        = .next { s with status := .invalidArgument, statusInfo := .opcode 0x03#8, statusValid := true })

/-- R105 and R106: DRAWRECT draws the outline (bottom edge at the absolute row `h - 1`) exactly when the size and the
place are valid, both in the closed form that R107 derives; otherwise it is InvalidArgument and changes nothing but STATUS. -/
def Obligations.DrawRectDrawsItsOutline : Prop :=
  ∀ s x y w h on, admitted s.cfg = true → encodedAs (.drawRect x y w h on) 0x04#8 18
    ∧ ((1 ≤ w ∧ w ≤ (s.cfg.w : Int) ∧ 1 ≤ h ∧ h ≤ (s.cfg.h : Int) ∧ 0 ≤ x ∧ 0 ≤ y ∧ x + w - 1 ≤ (s.cfg.w : Int)
        ∧ y + h - 1 ≤ (s.cfg.h : Int)) →
      ∃ t, exec (.drawRect x y w h on) s = .next t ∧ DrawnOk s t
        ∧ Drawn (onOutline (s.cfg.w : Int) (s.cfg.h : Int) x y w h) on s t)
    ∧ (¬ (1 ≤ w ∧ w ≤ (s.cfg.w : Int) ∧ 1 ≤ h ∧ h ≤ (s.cfg.h : Int) ∧ 0 ≤ x ∧ 0 ≤ y ∧ x + w - 1 ≤ (s.cfg.w : Int)
        ∧ y + h - 1 ≤ (s.cfg.h : Int)) →
      exec (.drawRect x y w h on) s
        = .next { s with status := .invalidArgument, statusInfo := .opcode 0x04#8, statusValid := true })

/-- Drawing the same thing again changes no byte (by R100, R101, R104, R106, R124): what R51 says, a sentence the spec
marks as derived. -/
def Obligations.DrawingIsIdempotent : Prop :=
  ∀ s t u i, admitted s.cfg = true →
    (i = .prepare ∨ (∃ x y on, i = .setPixel x y on) ∨ (∃ x0 y0 x1 y1 on, i = .drawLine x0 y0 x1 y1 on)
      ∨ (∃ x y w h on, i = .drawRect x y w h on) ∨ ∃ x y c, i = .drawChar x y c) →
    exec i s = .next t → exec i t = .next u → ∀ a, fbByte u a = fbByte t a

/-- R11, R174: no instruction produces an address outside the framebuffer. -/
def Obligations.NoInstructionLeavesTheFramebuffer : Prop :=
  ∀ i s t, admitted s.cfg = true → exec i s = .next t → .fbAddressFault ∈ t.faults → .fbAddressFault ∈ s.faults

/-! ### Text -/

/-- R120: SETFONT installs an admitted font, raises ConfigurationError for an absent one, and refuses any other. That the
refusal is a next state whose mark holds the last reason is the model's form of it: log 14. -/
def Obligations.SetFontInstallsAdmittedFonts : Prop :=
  ∀ s, (∀ f : Font, 1 ≤ f.width ∧ f.width ≤ 32 ∧ 1 ≤ f.height ∧ f.table.length % f.height.toNat = 0 →
      exec (.setFont (some f)) s
        = .next { s with font := f, status := .ok, statusInfo := .nothing, statusValid := true })
    ∧ exec (.setFont none) s
        = .next { s with status := .configurationError, statusInfo := .opcode 0x05#8, statusValid := true }
    ∧ (∀ f : Font, ¬ (1 ≤ f.width ∧ f.width ≤ 32 ∧ 1 ≤ f.height ∧ f.table.length % f.height.toNat = 0) →
        exec (.setFont (some f)) s = .next { s with refused := some .illFormedFont })
    ∧ encodedAs (.setFont none) 0x05#8 2 ∧ ∀ f : Font, encodedAs (.setFont (some f)) 0x05#8 (14 + 4 * f.table.length)

/-- R122: the glyph of a code is its own where the font has it, the question mark's where it does not, and the model
fault where the font has neither. -/
def Obligations.GlyphIndexSubstitutes : Prop :=
  ∀ (f : Font) (c : Byte),
    ((32 ≤ c.toNat ∧ c.toNat - 32 < f.table.length / f.height.toNat) → glyphIndex f c = .ok (c.toNat - 32))
    ∧ (¬ (32 ≤ c.toNat ∧ c.toNat - 32 < f.table.length / f.height.toNat) → 31 < f.table.length / f.height.toNat →
        glyphIndex f c = .ok 31)
    ∧ (¬ (32 ≤ c.toNat ∧ c.toNat - 32 < f.table.length / f.height.toNat) → ¬ 31 < f.table.length / f.height.toNat →
        glyphIndex f c = .error .missingFallbackGlyph)

/-- R124, R123: DRAWCHAR turns on the glyph's set bits that fall on the panel, turns nothing off, and ends OK. -/
def Obligations.DrawCharTurnsGlyphPixelsOn : Prop :=
  ∀ s x y c g, admitted s.cfg = true → fontOK s.font = true → glyphIndex s.font c = .ok g →
    ∃ t, exec (.drawChar x y c) s = .next t ∧ DrawnOk s t ∧ Drawn (glyphPixel s.font g x y) true s t

/-- R122, R174, R175: a character whose glyph and question mark are both missing faults: FAULTS grows, no STATUS is
written, nothing else changes, and the next step stops. -/
def Obligations.MissingGlyphFaults : Prop :=
  ∀ s x y c, s.faults = [] → s.font.table.length / s.font.height.toNat ≤ 31 →
    (c.toNat < 32 ∨ s.font.table.length / s.font.height.toNat ≤ c.toNat - 32) →
    exec (.drawChar x y c) s = .next { s with faults := [.missingFallbackGlyph] }
    ∧ step { s with faults := [.missingFallbackGlyph] } = .fault (.modelFault .missingFallbackGlyph)

/-- R126: where every character that its layout places has a glyph (R122), DRAWTEXT turns on the pixels of those glyphs
at those places, and no others, and ends OK. -/
def Obligations.DrawTextDrawsItsGlyphs : Prop :=
  ∀ s x y text, admitted s.cfg = true → fontOK s.font = true →
    (∀ p ∈ glyphPlaces s.font (s.cfg.w : Int) (s.cfg.h : Int) x text x y, ∃ g, glyphIndex s.font p.2.2 = .ok g) →
    ∃ t, exec (.drawText x y text) s = .next t ∧ DrawnOk s t
      ∧ Drawn (fun px py => ∃ p ∈ glyphPlaces s.font (s.cfg.w : Int) (s.cfg.h : Int) x text x y,
          ∃ g, glyphIndex s.font p.2.2 = .ok g ∧ glyphPixel s.font g p.1 p.2.1 px py) true s t

/-- R175: where the first placed character without a glyph is `p`, the glyphs `ps` before it are drawn and stay, FAULTS
grows, and no STATUS is written. -/
def Obligations.TextFaultKeepsEarlierGlyphs : Prop :=
  ∀ s x y text ps p qs, admitted s.cfg = true → fontOK s.font = true → s.faults = [] →
    glyphPlaces s.font (s.cfg.w : Int) (s.cfg.h : Int) x text x y = ps ++ p :: qs →
    (∀ q ∈ ps, ∃ g, glyphIndex s.font q.2.2 = .ok g) → glyphIndex s.font p.2.2 = .error .missingFallbackGlyph →
    ∃ t, exec (.drawText x y text) s = .next t ∧ t = { s with fb := t.fb, faults := [.missingFallbackGlyph] }
      ∧ Drawn (fun px py => ∃ q ∈ ps, ∃ g, glyphIndex s.font q.2.2 = .ok g ∧ glyphPixel s.font g q.1 q.2.1 px py) true s t

/-- R36: in every state, a raster or text operation changes nothing but FB (not SETFONT), FONT (only SETFONT), STATUS
and the model marks: it sends nothing and leaves FSM, SCROLL, FAULT, SEQ and BUSY. -/
def Obligations.DrawingTouchesNoControlState : Prop :=
  ∀ i s t, isDrawing i = true → exec i s = .next t →
    t = { s with fb := t.fb, font := t.font, status := t.status, statusInfo := t.statusInfo,
                 statusValid := t.statusValid, faults := t.faults, refused := t.refused }
    ∧ ((∀ f, i ≠ .setFont f) → t.font = s.font) ∧ ((∃ f, i = .setFont f) → t.fb = s.fb)

/-! ### The protocol -/

/-- R49: the three ways a transfer goes. -/
def Obligations.TransferFollowsItsAnswer : Prop :=
  ∀ s b, (∀ as, s.answers = .ok :: as → transfer b s = .done { s with
      tlog := s.tlog ++ [⟨s.cfg.busId, s.cfg.addr, b, .ok⟩], busy := false, seq := s.seq + 1, answers := as })
    ∧ (∀ k as o, s.answers = .err k :: as → s.op = some o → transfer b s = .failed { s with
        tlog := s.tlog ++ [⟨s.cfg.busId, s.cfg.addr, b, .err k⟩], busy := false, seq := 0, op := none, txq := [],
        answers := as, status := .transportError, statusInfo := .transport (opByte o) s.seq k, statusValid := true,
        fault := match s.fault with
          | none => some ⟨opByte o, s.seq, k⟩
          | some f => some f })
    ∧ (s.answers = [] → transfer b s = .waiting { s with
        tlog := s.tlog ++ [⟨s.cfg.busId, s.cfg.addr, b, .pending⟩], busy := true })

/-- R144, R140, R141: INITIALIZE with every answer Ok sends the 14 commands in order and ends with FSM Active. -/
def Obligations.InitializeSendsItsSequence : Prop :=
  ∀ s as, s.answers = List.replicate (cut s.cfg.split (initCommands s.cfg)).length .ok ++ as →
    exec .initialise s = .next { s with
      fsm := .active, tlog := s.tlog ++ logOk s.cfg (cut s.cfg.split (initCommands s.cfg)), answers := as, seq := 0,
      busy := false, op := none, txq := [], status := .ok, statusInfo := .nothing, statusValid := true }

/-- R146, R142, R143: WRITE with every answer Ok sends the windows and the bursts, each after its start line, and only
reads the framebuffer. -/
def Obligations.WriteStreamsTheFramebuffer : Prop :=
  ∀ s as, s.answers = List.replicate (writeFrames s).length .ok ++ as →
    exec .write s = .next { s with
      tlog := s.tlog ++ logOk s.cfg (writeFrames s), answers := as, seq := 0, busy := false, op := none, txq := [],
      status := .ok, statusInfo := .nothing, statusValid := true }

/-- R148: CLEARSCREEN with every answer Ok zeroes the framebuffer and then sends what WRITE sends of it. -/
def Obligations.ClearScreenClearsAndTransmits : Prop :=
  ∀ s as, s.answers = List.replicate (writeFrames (cleared s)).length .ok ++ as →
    exec .clearScreen s = .next { s with
      fb := (cleared s).fb, tlog := s.tlog ++ logOk s.cfg (writeFrames (cleared s)), answers := as, seq := 0,
      busy := false, op := none, txq := [], status := .ok, statusInfo := .nothing, statusValid := true }
    ∧ ∀ a, a < fbSize s.cfg → fbByte (cleared s) a = 0x00#8

/-- R150: STARTSCROLL with every answer Ok sends deactivate, setup and activate, and SCROLL takes the direction. -/
def Obligations.StartScrollStartsScrolling : Prop :=
  ∀ s left as, s.answers = List.replicate (startScrollFrames s.cfg left).length .ok ++ as →
    exec (.startScroll left) s = .next { s with
      scroll := if left then .scrollingLeft else .scrollingRight,
      tlog := s.tlog ++ logOk s.cfg (startScrollFrames s.cfg left), answers := as, seq := 0, busy := false, op := none,
      txq := [], status := .ok, statusInfo := .nothing, statusValid := true }

/-- R151: STOPSCROLL with an Ok answer sends one deactivate, whatever SCROLL held, and SCROLL is Off. -/
def Obligations.StopScrollStopsScrolling : Prop :=
  ∀ s as, s.answers = .ok :: as →
    exec .stopScroll s = .next { s with
      scroll := .off, tlog := s.tlog ++ logOk s.cfg [[0x00#8, s.cfg.cmdtab.scrollDeactivate]], answers := as, seq := 0,
      busy := false, op := none, txq := [], status := .ok, statusInfo := .nothing, statusValid := true }

/-- R177, R141, R150: the first error ends any transmitting operation at that transfer: nothing before it is undone,
nothing after it is sent, FAULT_INFO keeps the first failure, FSM stays Initializing in INITIALIZE, SCROLL is what its
last completed command made it. -/
def Obligations.TransportErrorEndsTheOperation : Prop :=
  ∀ o s j k as frame, (opFrames o s)[j]? = some frame → s.answers = List.replicate j .ok ++ .err k :: as →
    exec (opInstr o) s = .next { s with
      fb := opFb o s, fsm := opFsm o s, scroll := opScroll o j s,
      tlog := s.tlog ++ (logOk s.cfg ((opFrames o s).take j) ++ [⟨s.cfg.busId, s.cfg.addr, frame, .err k⟩]),
      answers := as, seq := 0, busy := false, op := none, txq := [],
      fault := (match s.fault with
        | none => some ⟨opByte o, j, k⟩
        | some f => some f),
      status := .transportError, statusInfo := .transport (opByte o) j k, statusValid := true }

/-- R50: with no answer to transfer `j`, any transmitting operation stays there: BUSY is 1, SEQ is `j`, the transfer is
pending in TLOG, nothing after it is handed over and no STATUS is written. What is queued holds exactly the transfers
after `j` (the queue is the model's: log 11). -/
def Obligations.UnansweredTransferBlocks : Prop :=
  ∀ o s j frame, (opFrames o s)[j]? = some frame → s.answers = List.replicate j .ok →
    ∃ q, exec (opInstr o) s = .next { s with
      fb := opFb o s, fsm := opFsm o s, scroll := opScroll o j s,
      tlog := s.tlog ++ (logOk s.cfg ((opFrames o s).take j) ++ [⟨s.cfg.busId, s.cfg.addr, frame, .pending⟩]),
      answers := [], seq := j, busy := true, op := some o, txq := q }
      ∧ queued s.cfg q = (opFrames o s).drop (j + 1)

/-- R142, R54: the data transfers that WRITE hands over, with every answer Ok: one for each of the `ceil(FBSIZE/16)`
bursts; their payloads, joined, are the framebuffer's bytes in address order, each once; burst `b` is
`FB[16b .. min(16b + 16, FBSIZE))`, of 16 bytes but for the last, which has between 1 and 16. -/
def Obligations.PayloadsAreTheFramebuffer : Prop :=
  ∀ s as, s.answers = List.replicate (writeFrames s).length .ok ++ as →
    ∃ t, exec .write s = .next t ∧ (dataSent s t).length = (fbSize s.cfg + 15) / 16
      ∧ (dataSent s t).flatMap List.tail = (List.range (fbSize s.cfg)).map (fbByte s)
      ∧ ∀ b d, (dataSent s t)[b]? = some d → d = 0x40#8 :: payload s b
        ∧ (b + 1 < (fbSize s.cfg + 15) / 16 → d.tail.length = 16)
        ∧ (b + 1 = (fbSize s.cfg + 15) / 16 →
            d.tail.length = fbSize s.cfg - 16 * b ∧ 1 ≤ d.tail.length ∧ d.tail.length ≤ 16)

/-- The numbers of entries that INITIALIZE and WRITE append to TLOG with every answer Ok, and that no request appends more
than 1030, whatever the answers: what R145, R147 and R31 say, sentences the spec marks as derived. -/
def Obligations.TransferCounts : Prop :=
  (∀ s as, s.answers = List.replicate (if s.cfg.split = .perCommand then 14 else 21) .ok ++ as →
    ∃ t, exec .initialise s = .next t ∧ t.status = .ok
      ∧ t.tlog.length = s.tlog.length + (if s.cfg.split = .perCommand then 14 else 21))
  ∧ (∀ s as, s.answers = List.replicate
        ((if s.cfg.split = .perCommand then 2 else 6) + 2 * ((fbSize s.cfg + 15) / 16)) .ok ++ as →
    ∃ t, exec .write s = .next t ∧ t.status = .ok
      ∧ t.tlog.length
        = s.tlog.length + ((if s.cfg.split = .perCommand then 2 else 6) + 2 * ((fbSize s.cfg + 15) / 16))
      ∧ (dataSent s t).length = (fbSize s.cfg + 15) / 16)
  ∧ ∀ i s t, admitted s.cfg = true → laneOf i = .request → exec i s = .next t →
      t.tlog.length ≤ s.tlog.length + 1030

/-- R63, R149: each of the 24 controller commands, with its transfers answered Ok, sends exactly its bytes under the
block's command table and its CMD_SPLIT; SEQ counts them; deactivate and activate move SCROLL; nothing else changes. -/
def Obligations.CommandsSendTheirBytes : Prop :=
  ∀ s p q r line, ∀ row ∈ commandRows s.cfg.cmdtab p q r line, ∀ as,
    s.answers = List.replicate (cut s.cfg.split [row.2]).length .ok ++ as →
    exec row.1 s = .next { s with
      scroll := scrollDone row.1 s.op s.scroll, tlog := s.tlog ++ logOk s.cfg (cut s.cfg.split [row.2]), answers := as,
      seq := s.seq + (cut s.cfg.split [row.2]).length, busy := false }

/-- R62, R64, R49: a command or data transfer answered Ok appends its one entry, control byte first, and advances SEQ by 1. -/
def Obligations.WireTransfersAppendOneEntry : Prop :=
  ∀ s l as, s.answers = .ok :: as →
    exec (.ctrlCommand l) s = .next { s with
      tlog := s.tlog ++ logOk s.cfg [0x00#8 :: l], answers := as, seq := s.seq + 1, busy := false }
    ∧ exec (.ctrlData l) s = .next { s with
      tlog := s.tlog ++ logOk s.cfg [0x40#8 :: l], answers := as, seq := s.seq + 1, busy := false }

/-- R66 to R89: the default table's bytes (the spec's own general knowledge, log 3). -/
def Obligations.DefaultCommandBytes : Prop :=
  ∀ p q r, (commandRows ssd1306Default p q r 0#6).map (·.2)
      = [[0xAE], [0xAF], [0xA8, p], [0xD3, p], [0x40], [0xA1], [0xA0], [0xC8], [0xC0], [0xDA, p], [0x81, p], [0xA4],
         [0xA5], [0xA6], [0xA7], [0xD5, p], [0x8D, p], [0x20, p], [0x21, p, q], [0x22, p, q],
         [0x26, 0x00, p, q, r, 0x00, 0xFF], [0x27, 0x00, p, q, r, 0x00, 0xFF], [0x2F], [0x2E]]
    ∧ State.reset.cfg.cmdtab = ssd1306Default ∧ State.reset.cfg.contrast = 0x7F ∧ State.reset.cfg.compins = 0x02
    ∧ State.reset.cfg.clkdiv = 0x80 ∧ State.reset.cfg.chgpump = 0x14 ∧ State.reset.cfg.addrmode = 0x00

/-- The bytes that follow the control bytes of the command transfers are the same under either CMD_SPLIT, the commands in
order, and so are the data transfers: of every transmitting operation with its answers Ok, and of `cutCommand`. What R63
says, a sentence the spec marks as derived. -/
def Obligations.SplitSendsTheSameBytes : Prop :=
  (∀ o s split as, ∃ t,
    exec (opInstr o) (withAnswers (List.replicate (opFrames o (withSplit split s)).length .ok ++ as) (withSplit split s))
        = .next t
      ∧ commandBytesSent s t = (opCommands o s.cfg).flatten
      ∧ ∀ split' as', ∃ u,
        exec (opInstr o)
            (withAnswers (List.replicate (opFrames o (withSplit split' s)).length .ok ++ as') (withSplit split' s)) = .next u
          ∧ commandBytesSent s u = commandBytesSent s t ∧ dataSent s u = dataSent s t)
  ∧ ∀ split c, (cutCommand split c).flatMap (fun f => (transferBytes f).tail) = c

/-- R90: the computed parameter bytes are sent unreduced. -/
def Obligations.ParametersFitOneByte : Prop :=
  ∀ c, admitted c = true → (paramByte (c.h - 1)).toNat = c.h - 1 ∧ (paramByte (c.w - 1)).toNat = c.w - 1
    ∧ (paramByte (pages c - 1)).toNat = pages c - 1 ∧ 7 ≤ c.h - 1 ∧ pages c - 1 ≤ 31

/-- R62: every transfer that an instruction appends goes to the block's one destination and opens with a control byte,
0x00 or 0x40. -/
def Obligations.EveryTransferIsFramed : Prop :=
  ∀ i s t, wellFormed i = true → exec i s = .next t →
    ∃ es, t.tlog = s.tlog ++ es ∧ ∀ e ∈ es, e.bus = s.cfg.busId ∧ e.addr = s.cfg.addr
      ∧ ∃ b rest, e.bytes = b :: rest ∧ (b = 0x00#8 ∨ b = 0x40#8) ∧ 1 ≤ rest.length

/-! ### Whole-machine rules -/

/-- R36: the state-write matrix, which the spec marks as derived from the operation rules. An operation changes no element that has no W in its row, whatever the transport answers;
the parameters, the draw, the port and (but for the marks of a model fault or a refusal) the marks are no elements an
operation writes. -/
def Obligations.OperationsWriteOnlyTheirElements : Prop :=
  ∀ i s t, laneOf i = .request → exec i s = .next t →
    t.cfg = s.cfg ∧ t.draw = s.draw ∧ t.requests = s.requests
    ∧ (writesFb i = false → t.fb = s.fb)
    ∧ ((∀ f, i ≠ .setFont f) → t.font = s.font)
    ∧ (i ≠ .initialise → t.fsm = s.fsm)
    ∧ (writesScroll i = false → t.scroll = s.scroll)
    ∧ (writesBus i = false → t.fault = s.fault ∧ t.seq = s.seq ∧ t.busy = s.busy ∧ t.tlog = s.tlog ∧ t.answers = s.answers)
    ∧ (writesBus i = true → t.faults = s.faults ∧ t.refused = s.refused)

/-- R170, R172, R173: where each status comes from. A request ends with OK, or with InvalidArgument (DRAWLINE and DRAWRECT
only), or with ConfigurationError (SETFONT without a font only), or with TransportError (the transmitting operations
only), each with the information the table records; or it writes no status, and then it has faulted, was refused, or
waits for an answer. -/
def Obligations.StatusesComeFromTheirOperations : Prop :=
  ∀ i s t, laneOf i = .request → exec i s = .next t →
    (t.statusValid = true ∧ ((t.status = .ok ∧ t.statusInfo = .nothing)
      ∨ (t.status = .invalidArgument ∧ ((t.statusInfo = .opcode 0x03#8 ∧ ∃ x0 y0 x1 y1 on, i = .drawLine x0 y0 x1 y1 on)
          ∨ (t.statusInfo = .opcode 0x04#8 ∧ ∃ x y w h on, i = .drawRect x y w h on)))
      ∨ (t.status = .configurationError ∧ t.statusInfo = .opcode 0x05#8 ∧ i = .setFont none)
      ∨ (t.status = .transportError ∧ ∃ o j k, i = opInstr o ∧ t.statusInfo = .transport (opByte o) j k)))
    ∨ (t.status = s.status ∧ t.statusInfo = s.statusInfo ∧ t.statusValid = s.statusValid
        ∧ (t.faults ≠ [] ∨ t.refused ≠ none ∨ t.busy = true))

/-- R21, R141, R191: no step changes the parameters or the construction draw, or takes FSM back to Uninitialized. -/
def Obligations.NothingUndoesConstruction : Prop :=
  ∀ s t, MachineInv s → step s = .next t →
    t.cfg = s.cfg ∧ t.draw = s.draw ∧ (s.fsm ≠ .uninitialized → t.fsm ≠ .uninitialized)

/-- R26, R30, R177: no instruction clears the fault latch, replaces its first failure, removes a fault reason, or clears
the refusal mark; nor does any step (which goes nowhere once a reason is marked, R175). -/
def Obligations.LatchAndMarksAreSticky : Prop :=
  (∀ i s t, exec i s = .next t →
    (∀ f, s.fault = some f → t.fault = some f) ∧ (∀ r ∈ s.faults, r ∈ t.faults)
      ∧ (s.refused ≠ none → t.refused ≠ none))
  ∧ ∀ s t, step s = .next t →
    (∀ f, s.fault = some f → t.fault = some f) ∧ (s.refused ≠ none → t.refused ≠ none)

/-- R29: TLOG entries are never removed, reordered or altered, but for the outcome of a pending one. -/
def Obligations.LogOnlyGrows : Prop :=
  ∀ s t, MachineInv s → step s = .next t → ∃ l es, t.tlog = l ++ es ∧ l.length = s.tlog.length
    ∧ ∀ (k : Nat) (e : LogEntry), s.tlog[k]? = some e → ∃ e', l[k]? = some e' ∧ e'.bus = e.bus ∧ e'.addr = e.addr
      ∧ e'.bytes = e.bytes ∧ (e.outcome ≠ .pending → e'.outcome = e.outcome)

/-- R32: an instruction's results do not depend on FSM, FAULT or STATUS. From two states that differ only there, it
answers next states that agree in everything else; the status it writes is the same in both runs, or it writes none in
either; it puts the same value into FSM in both, or leaves FSM in both; and the failure it hands to the latch, if any, is
the same in both. -/
def Obligations.ResultsIgnoreControlState : Prop :=
  ∀ i s f ft st info v, ∃ t t', exec i s = .next t ∧ exec i (withControl f ft st info v s) = .next t'
    ∧ t' = withControl t'.fsm t'.fault t'.status t'.statusInfo t'.statusValid t
    ∧ ((t.statusValid = true ∧ t'.statusValid = true ∧ t'.status = t.status ∧ t'.statusInfo = t.statusInfo)
      ∨ (t.status = s.status ∧ t.statusInfo = s.statusInfo ∧ t.statusValid = s.statusValid
        ∧ t'.status = st ∧ t'.statusInfo = info ∧ t'.statusValid = v))
    ∧ (t'.fsm = t.fsm ∨ (t.fsm = s.fsm ∧ t'.fsm = f))
    ∧ ∃ g, t.fault = s.fault.or g ∧ t'.fault = ft.or g

/-- R31: the fields of the control registers, their legal values and their reserved bits. -/
def Obligations.ControlRegisterFields : Prop :=
  ∀ s, MachineInv s →
    (cr0 s).toNat = (match s.fsm with | .uninitialized => 0 | .initializing => 1 | .active => 2)
    ∧ (cr1 s).toNat = (match s.scroll with | .off => 0 | .scrollingLeft => 1 | .scrollingRight => 2)
    ∧ (s.fault = none → cr2 s = 0)
    ∧ (∀ f, s.fault = some f → (cr2 s).toNat % 2 = 1
        ∧ (cr2 s).toNat / 2 % 4 = (match f.kind with | .nack => 0 | .arbitrationLost => 1 | .timeout => 2 | .other => 3)
        ∧ (cr2 s).toNat / 8 % 32 = 0 ∧ (cr2 s).toNat / 256 % 256 = f.op.toNat ∧ (cr2 s).toNat / 65536 = f.index)
    ∧ (cr3 s).toNat % 4 = (match s.status with
        | .ok => 0 | .invalidArgument => 1 | .configurationError => 2 | .transportError => 3)
    ∧ (cr3 s).toNat / 4 = s.statusValid.toNat
    ∧ (cr4 s).toNat % 65536 = s.cfg.w ∧ (cr4 s).toNat / 65536 = s.cfg.h ∧ (cr5 s).toNat = s.cfg.addr
    ∧ (cr6 s).toNat = s.seq ∧ (cr7 s).toNat = s.busy.toNat

/-- A queue that is run item by item, one step an item, its transfers answered by then, ends in the very state that
running the queue in one go gives. The model's own (log 11); that the queue is what the operation had left is
SuspendedOperationEndsAsAtOnce. -/
def Obligations.ResumedOperationAgrees : Prop :=
  ∀ s o, s.faults = [] → s.requests = [] → s.op = some o → s.busy = false → (∀ it ∈ s.txq, itemOK it = true) →
    queueTransfers s.cfg s.txq ≤ s.answers.length →
    ∃ t, Sys2Proof.core.run (s.txq.length + 1) s = .next t ∧ t = runQueue s.txq s

/-- R49, R55: an operation that had to wait ends where it would have ended at once. With `j` answers Ok it waits; given
any further answers, steps bring it to the very state that exec reaches with all the answers at hand, be that its end,
its failure or its next wait. How the model suspends an operation is its own: log 11. -/
def Obligations.SuspendedOperationEndsAsAtOnce : Prop :=
  ∀ o s j frame as, (opFrames o s)[j]? = some frame → s.answers = List.replicate j .ok → s.faults = [] →
    (∀ r ∈ s.requests.head?, r.overlaps = false) →
    ∃ t u n, exec (opInstr o) s = .next t ∧ exec (opInstr o) (withAnswers (s.answers ++ as) s) = .next u
      ∧ Sys2Proof.core.run n (withAnswers as t) = .next u
end

