-- ==== Sys2Proof/Laws/Decode.lean ====
section
/-! SUPPORT. The laws of the operand readers: each reads exactly what the encoder of its operand type writes, and what
follows it is left. -/

namespace Sys2Proof

theorem byteAt_toNat (n k : Nat) : (byteAt n k).toNat = n / 256 ^ k % 256 := by
  simp [byteAt]

/-- A byte is its own value. -/
theorem byteAt_of_byte (b : Byte) (n k : Nat) (h : n / 256 ^ k % 256 = b.toNat) : byteAt n k = b := by
  apply BitVec.eq_of_toNat_eq
  rw [byteAt_toNat, h]

theorem u32_toNat (b0 b1 b2 b3 : Byte) :
    (u32 b0 b1 b2 b3).toNat = b0.toNat + 256 * b1.toNat + 65536 * b2.toNat + 16777216 * b3.toNat := by
  unfold u32
  rw [BitVec.toNat_ofNat, Nat.mod_eq_of_lt]
  omega

/-- The four bytes of a word read back as the word. -/
theorem u32_wordBytes (v : Word) :
    u32 (byteAt v.toNat 0) (byteAt v.toNat 1) (byteAt v.toNat 2) (byteAt v.toNat 3) = v := by
  apply BitVec.eq_of_toNat_eq
  have := v.isLt
  rw [u32_toNat]
  simp only [byteAt_toNat]
  omega

/-- Four bytes are the bytes of the word they read as. -/
theorem wordBytes_u32 (b0 b1 b2 b3 : Byte) : wordBytes (u32 b0 b1 b2 b3) = [b0, b1, b2, b3] := by
  unfold wordBytes
  rw [u32_toNat]
  rw [byteAt_of_byte b0 _ 0 (by omega), byteAt_of_byte b1 _ 1 (by omega), byteAt_of_byte b2 _ 2 (by omega),
    byteAt_of_byte b3 _ 3 (by omega)]

theorem wordBytes_length (v : Word) : (wordBytes v).length = 4 := rfl

theorem isI32_iff (x : Int) : isI32 x = true ↔ -2147483648 ≤ x ∧ x ≤ 2147483647 := by
  simp [isI32]

/-- Reading and writing a signed word (R61). -/
theorem readI32_iff (bs r : List Byte) (x : Int) :
    readI32 bs = some (x, r) ↔ isI32 x = true ∧ bs = i32Bytes x ++ r := by
  rw [isI32_iff]
  constructor
  · intro h
    match bs with
    | [] => simp [readI32] at h
    | [_] => simp [readI32] at h
    | [_, _] => simp [readI32] at h
    | [_, _, _] => simp [readI32] at h
    | b0 :: b1 :: b2 :: b3 :: rest =>
      simp only [readI32, Option.some.injEq, Prod.mk.injEq] at h
      obtain ⟨rfl, rfl⟩ := h
      refine ⟨?_, ?_⟩
      · have h1 := BitVec.le_toInt (u32 b0 b1 b2 b3)
        have h2 := BitVec.toInt_lt (x := u32 b0 b1 b2 b3)
        omega
      · rw [i32Bytes, BitVec.ofInt_toInt, wordBytes_u32]
        rfl
  · rintro ⟨h, rfl⟩
    simp only [i32Bytes, wordBytes, List.cons_append, List.nil_append, readI32, u32_wordBytes]
    rw [BitVec.toInt_ofInt]
    congr 2
    rw [Int.bmod_eq_of_le] <;> omega

/-- Reading and writing an unsigned word (R61). -/
theorem readU32_iff (bs r : List Byte) (n : Nat) :
    readU32 bs = some (n, r) ↔ n < 4294967296 ∧ bs = wordBytes (BitVec.ofNat 32 n) ++ r := by
  constructor
  · intro h
    match bs with
    | [] => simp [readU32] at h
    | [_] => simp [readU32] at h
    | [_, _] => simp [readU32] at h
    | [_, _, _] => simp [readU32] at h
    | b0 :: b1 :: b2 :: b3 :: rest =>
      simp only [readU32, Option.some.injEq, Prod.mk.injEq] at h
      obtain ⟨rfl, rfl⟩ := h
      refine ⟨(u32 b0 b1 b2 b3).isLt, ?_⟩
      rw [BitVec.ofNat_toNat, BitVec.setWidth_eq, wordBytes_u32]
      rfl
  · rintro ⟨h, rfl⟩
    simp only [wordBytes, List.cons_append, List.nil_append, readU32, u32_wordBytes]
    rw [BitVec.toNat_ofNat, Nat.mod_eq_of_lt h]

/-- Reading and writing a Boolean (R61). -/
theorem readBool_iff (bs r : List Byte) (b : Bool) : readBool bs = some (b, r) ↔ bs = boolByte b :: r := by
  match bs with
  | [] => simp [readBool]
  | c :: rest =>
    simp only [readBool, List.cons.injEq]
    split
    · rename_i hc
      subst hc
      cases b <;> simp [boolByte]
    · rename_i hc
      split
      · rename_i hc'
        subst hc'
        cases b <;> simp [boolByte]
      · rename_i hc'
        cases b <;> simp [boolByte, hc, hc']

/-- Reading and writing a character (R61). -/
theorem readChr_iff (bs r : List Byte) (c : Byte) : readChr bs = some (c, r) ↔ bs = c :: r := by
  match bs with
  | [] => simp [readChr]
  | d :: rest => simp [readChr]

/-- Reading and writing a string (R61). -/
theorem readStr_iff (bs r t : List Byte) :
    readStr bs = some (t, r) ↔ t.length < 65536 ∧ bs = strBytes t ++ r := by
  constructor
  · intro h
    match bs with
    | [] => simp [readStr] at h
    | [_] => simp [readStr] at h
    | b0 :: b1 :: rest =>
      simp only [readStr] at h
      split at h
      · rename_i hn
        simp only [Option.some.injEq, Prod.mk.injEq] at h
        obtain ⟨rfl, rfl⟩ := h
        have hlen : (rest.take (b0.toNat + 256 * b1.toNat)).length = b0.toNat + 256 * b1.toNat := by
          rw [List.length_take]
          omega
        refine ⟨by omega, ?_⟩
        unfold strBytes
        rw [hlen, byteAt_of_byte b0 _ 0 (by omega), byteAt_of_byte b1 _ 1 (by omega), List.cons_append,
          List.cons_append, List.take_append_drop]
      · cases h
  · rintro ⟨h, rfl⟩
    have hn : (byteAt t.length 0).toNat + 256 * (byteAt t.length 1).toNat = t.length := by
      simp only [byteAt_toNat]
      omega
    simp only [strBytes, List.cons_append, readStr, hn]
    rw [if_pos (by simp)]
    simp

/-- Reading back a table of words. -/
theorem wordsOf_flatMap (l : List Word) : wordsOf (l.flatMap wordBytes) = l := by
  induction l with
  | nil => rfl
  | cons v l ih => simp only [List.flatMap_cons, wordBytes, List.cons_append, List.nil_append, wordsOf, u32_wordBytes, ih]

/-- Bytes in fours are the bytes of the words they read as. -/
theorem flatMap_wordsOf (n : Nat) (bs : List Byte) (h : bs.length = 4 * n) :
    (wordsOf bs).flatMap wordBytes = bs ∧ (wordsOf bs).length = n := by
  induction n generalizing bs with
  | zero =>
    obtain rfl : bs = [] := List.length_eq_zero_iff.mp (by omega)
    exact ⟨rfl, rfl⟩
  | succ n ih =>
    match bs, h with
    | [], h => simp at h
    | [_], h => simp at h; omega
    | [_, _], h => simp at h; omega
    | [_, _, _], h => simp at h; omega
    | b0 :: b1 :: b2 :: b3 :: rest, h =>
      have hr := ih rest (by simp at h; omega)
      simp only [wordsOf, List.flatMap_cons, wordBytes_u32, hr.1, List.length_cons, hr.2]
      exact ⟨rfl, trivial⟩

theorem flatMap_wordBytes_length (l : List Word) : (l.flatMap wordBytes).length = 4 * l.length := by
  induction l with
  | nil => rfl
  | cons v l ih =>
    rw [List.flatMap_cons, List.length_append, ih, wordBytes_length, List.length_cons]
    omega

/-- A present or absent font that the encoding can hold. -/
def isFontOperand : Option Font → Bool
  | none => true
  | some f => isFontRef f

/-- Reading and writing a font (R61). -/
theorem readFontRef_iff (bs r : List Byte) (f : Option Font) :
    readFontRef bs = some (f, r) ↔ isFontOperand f = true ∧ bs = fontBytes f ++ r := by
  match bs with
  | [] => cases f <;> simp [readFontRef, fontBytes]
  | c :: rest =>
    simp only [readFontRef]
    split
    · rename_i hc
      subst hc
      cases f <;> simp [isFontOperand, fontBytes]
    · rename_i hc
      split
      · rename_i hc'
        subst hc'
        constructor
        · intro h
          simp only [Option.bind_eq_bind, Option.bind_eq_some_iff, Prod.exists] at h
          obtain ⟨w, r1, h1, ht, r2, h2, n, r3, h3, h4⟩ := h
          rw [readI32_iff] at h1 h2
          rw [readU32_iff] at h3
          split at h4
          · rename_i hn
            simp only [Option.some.injEq, Prod.mk.injEq] at h4
            obtain ⟨rfl, rfl⟩ := h4
            have hw := flatMap_wordsOf n (r3.take (4 * n)) (by rw [List.length_take]; omega)
            refine ⟨by simp [isFontOperand, isFontRef, h1.1, h2.1, hw.2, h3.1], ?_⟩
            simp only [fontBytes, hw.1, hw.2, List.cons_append, List.append_assoc, List.take_append_drop]
            rw [← h3.2, ← h2.2, ← h1.2]
          · cases h4
        · rintro ⟨h, hb⟩
          cases f with
          | none => simp [fontBytes] at hb
          | some f =>
            simp only [isFontOperand, isFontRef, Bool.and_eq_true, decide_eq_true_eq] at h
            simp only [fontBytes, List.cons_append, List.append_assoc, List.cons.injEq] at hb
            rw [hb.2, (readI32_iff _ _ _).mpr ⟨h.1.1, rfl⟩]
            simp only [Option.bind_eq_bind, Option.bind_some]
            rw [(readI32_iff _ _ _).mpr ⟨h.1.2, rfl⟩]
            simp only [Option.bind_some]
            rw [(readU32_iff _ _ _).mpr ⟨h.2, rfl⟩]
            simp only [Option.bind_some]
            rw [if_pos (by rw [List.length_append, flatMap_wordBytes_length]; omega),
              ← flatMap_wordBytes_length, List.take_left, List.drop_left, wordsOf_flatMap]
      · rename_i hc'
        constructor
        · intro h
          cases h
        · rintro ⟨-, hb⟩
          cases f with
          | none => exact absurd (List.cons.inj hb).1 hc
          | some f => exact absurd (List.cons.inj hb).1 hc'

/-- The front of a byte sequence parses exactly as the encoding of a well-formed request (R60, R61, R96). -/
theorem parseRequest_iff (bs : List Byte) (i : Instr) (r : List Byte) : parseRequest bs = .ok (i, r) ↔ laneOf i = .request ∧ wellFormed i = true ∧ bs = requestBytes i ++ r := by
  constructor
  · intro h
    match bs with
    | [] => simp [parseRequest] at h
    | b :: bs =>
      simp only [parseRequest] at h
      cases hp : parseOperands b.toNat bs with
      | none => rw [hp] at h; simp at h
      | some q =>
        cases q with
        | none => rw [hp] at h; simp at h
        | some p =>
          rw [hp] at h; simp at h; subst h
          unfold parseOperands at hp
          have hb : ∀ n : Nat, b.toNat = n → b = BitVec.ofNat 8 n := by intro n hn; rw [← hn]; simp
          split at hp <;> (try (solve | cases hp)) <;> rename_i hh <;> have hb := hb _ hh <;> subst hb
          all_goals simp only [Option.some.injEq, Prod.mk.injEq, Option.bind_eq_bind, Option.bind_eq_some_iff, Prod.exists, readI32_iff, readBool_iff, readChr_iff, readStr_iff, readFontRef_iff] at hp
          · obtain ⟨rfl, rfl⟩ := hp; exact ⟨rfl, rfl, rfl⟩
          · obtain ⟨x, r1, ⟨h1, rfl⟩, y, r2, ⟨h2, rfl⟩, on, r3, rfl, rfl, rfl⟩ := hp
            refine ⟨rfl, by simp [wellFormed, *], by simp [requestBytes]⟩
          · obtain ⟨x, r1, ⟨h1, rfl⟩, y, r2, ⟨h2, rfl⟩, x', r1', ⟨h1', rfl⟩, y', r2', ⟨h2', rfl⟩, on, r3, rfl, rfl, rfl⟩ := hp
            refine ⟨rfl, by simp [wellFormed, *], by simp [requestBytes]⟩
          · obtain ⟨x, r1, ⟨h1, rfl⟩, y, r2, ⟨h2, rfl⟩, x', r1', ⟨h1', rfl⟩, y', r2', ⟨h2', rfl⟩, on, r3, rfl, rfl, rfl⟩ := hp
            refine ⟨rfl, by simp [wellFormed, *], by simp [requestBytes]⟩
          · obtain ⟨f, r1, ⟨h1, rfl⟩, rfl, rfl⟩ := hp
            refine ⟨rfl, by cases f <;> simpa [wellFormed, isFontOperand] using h1, by simp [requestBytes]⟩
          · obtain ⟨x, r1, ⟨h1, rfl⟩, y, r2, ⟨h2, rfl⟩, on, r3, rfl, rfl, rfl⟩ := hp
            refine ⟨rfl, by simp [wellFormed, *], by simp [requestBytes]⟩
          · obtain ⟨x, r1, ⟨h1, rfl⟩, y, r2, ⟨h2, rfl⟩, on, r3, ⟨h3, rfl⟩, rfl, rfl⟩ := hp
            refine ⟨rfl, by simp [wellFormed, *], by simp [requestBytes]⟩
          · obtain ⟨rfl, rfl⟩ := hp; exact ⟨rfl, rfl, rfl⟩
          · obtain ⟨rfl, rfl⟩ := hp; exact ⟨rfl, rfl, rfl⟩
          · obtain ⟨rfl, rfl⟩ := hp; exact ⟨rfl, rfl, rfl⟩
          · obtain ⟨l, r1, rfl, rfl, rfl⟩ := hp; exact ⟨rfl, rfl, rfl⟩
          · obtain ⟨rfl, rfl⟩ := hp; exact ⟨rfl, rfl, rfl⟩
  · rintro ⟨hl, hw, rfl⟩
    have op : ∀ (b : Byte) (bs : List Byte) (p : Instr × List Byte), parseOperands b.toNat bs = some (some p) → parseRequest (b :: bs) = .ok p := by
      intro b bs p h; simp only [parseRequest, h]
    cases i <;> (try (solve | cases hl)) <;> simp only [requestBytes, List.cons_append, List.nil_append]
    all_goals apply op
    case prepare => rfl
    case initialise => rfl
    case write => rfl
    case clearScreen => rfl
    case stopScroll => rfl
    all_goals simp only [wellFormed, Bool.and_eq_true, decide_eq_true_eq] at hw
    all_goals simp only [parseOperands, BitVec.toNat_ofNat, Nat.reducePow, Nat.reduceMod, Option.some.injEq, Prod.mk.injEq, Option.bind_eq_bind, Option.bind_eq_some_iff, Prod.exists, readI32_iff, readBool_iff, readChr_iff, readStr_iff, readFontRef_iff]
    case setPixel x y on => exact ⟨x, _, ⟨hw.1, by simp; rfl⟩, y, _, ⟨hw.2, by simp; rfl⟩, on, _, by simp; rfl, by simp⟩
    case drawChar x y on => exact ⟨x, _, ⟨hw.1, by simp; rfl⟩, y, _, ⟨hw.2, by simp; rfl⟩, on, _, by simp; rfl, by simp⟩
    case drawText x y t => exact ⟨x, _, ⟨hw.1.1, by simp; rfl⟩, y, _, ⟨hw.1.2, by simp; rfl⟩, t, _, ⟨hw.2, by simp; rfl⟩, by simp⟩
    case drawLine x y x' y' on => exact ⟨x, _, ⟨hw.1.1.1, by simp; rfl⟩, y, _, ⟨hw.1.1.2, by simp; rfl⟩, x', _, ⟨hw.1.2, by simp; rfl⟩, y', _, ⟨hw.2, by simp; rfl⟩, on, _, by simp; rfl, by simp⟩
    case drawRect x y x' y' on => exact ⟨x, _, ⟨hw.1.1.1, by simp; rfl⟩, y, _, ⟨hw.1.1.2, by simp; rfl⟩, x', _, ⟨hw.1.2, by simp; rfl⟩, y', _, ⟨hw.2, by simp; rfl⟩, on, _, by simp; rfl, by simp⟩
    case startScroll l => exact ⟨l, _, by simp; rfl, by simp⟩
    case setFont f => exact ⟨f, r, ⟨by cases f <;> simpa [wellFormed, isFontOperand] using hw, rfl⟩, by simp⟩

/-- A message decodes exactly if it is the encoding of a well-formed request. -/
theorem decodeRequest_iff (bs i) : decodeRequest bs = .ok i ↔ laneOf i = .request ∧ wellFormed i = true ∧ bs = requestBytes i := by
  have := parseRequest_iff bs i []
  rw [List.append_nil] at this
  rw [← this]
  unfold decodeRequest
  constructor
  · intro h
    split at h
    · cases h
    · rename_i e; cases h; exact e
    · cases h
  · intro h; rw [h]

/-- The unassigned opcodes (R91). -/
theorem parseOperands_none (n bs) : parseOperands n bs = none ↔ ¬ ((1 ≤ n ∧ n ≤ 7) ∨ (0x10 ≤ n ∧ n ≤ 0x14)) := by
  unfold parseOperands
  split <;> simp
  rename_i h1 h2 h3 h4 h5 h6 h7 h8 h9 h10 h11 h12
  refine ⟨fun h => ?_, fun h => ?_⟩
  · by_contra hc
    have : n = 1 ∨ n = 2 ∨ n = 3 ∨ n = 4 ∨ n = 5 ∨ n = 6 ∨ n = 7 := by omega
    rcases this with h|h|h|h|h|h|h <;> contradiction
  · by_contra hc
    have : n = 0x10 ∨ n = 0x11 ∨ n = 0x12 ∨ n = 0x13 ∨ n = 0x14 := by omega
    rcases this with h|h|h|h|h <;> contradiction

end Sys2Proof
end

