-- ==== Sys2Proof/Laws/State.lean ====
section
/-! SUPPORT. What each named update of the state writes and what it leaves, one lemma per field. -/

namespace Sys2Proof.Machine

@[simp] theorem setStatus_cfg (st : Status) (info : StatusInfo) (s : State) : (setStatus st info s).cfg = s.cfg := rfl
@[simp] theorem setStatus_draw (st : Status) (info : StatusInfo) (s : State) : (setStatus st info s).draw = s.draw := rfl
@[simp] theorem setStatus_fb (st : Status) (info : StatusInfo) (s : State) : (setStatus st info s).fb = s.fb := rfl
@[simp] theorem setStatus_font (st : Status) (info : StatusInfo) (s : State) : (setStatus st info s).font = s.font := rfl
@[simp] theorem setStatus_fsm (st : Status) (info : StatusInfo) (s : State) : (setStatus st info s).fsm = s.fsm := rfl
@[simp] theorem setStatus_scroll (st : Status) (info : StatusInfo) (s : State) : (setStatus st info s).scroll = s.scroll := rfl
@[simp] theorem setStatus_fault (st : Status) (info : StatusInfo) (s : State) : (setStatus st info s).fault = s.fault := rfl
@[simp] theorem setStatus_status (st : Status) (info : StatusInfo) (s : State) : (setStatus st info s).status = st := rfl
@[simp] theorem setStatus_statusInfo (st : Status) (info : StatusInfo) (s : State) : (setStatus st info s).statusInfo = info := rfl
@[simp] theorem setStatus_statusValid (st : Status) (info : StatusInfo) (s : State) : (setStatus st info s).statusValid = true := rfl
@[simp] theorem setStatus_seq (st : Status) (info : StatusInfo) (s : State) : (setStatus st info s).seq = s.seq := rfl
@[simp] theorem setStatus_busy (st : Status) (info : StatusInfo) (s : State) : (setStatus st info s).busy = s.busy := rfl
@[simp] theorem setStatus_tlog (st : Status) (info : StatusInfo) (s : State) : (setStatus st info s).tlog = s.tlog := rfl
@[simp] theorem setStatus_faults (st : Status) (info : StatusInfo) (s : State) : (setStatus st info s).faults = s.faults := rfl
@[simp] theorem setStatus_refused (st : Status) (info : StatusInfo) (s : State) : (setStatus st info s).refused = s.refused := rfl
@[simp] theorem setStatus_op (st : Status) (info : StatusInfo) (s : State) : (setStatus st info s).op = s.op := rfl
@[simp] theorem setStatus_txq (st : Status) (info : StatusInfo) (s : State) : (setStatus st info s).txq = s.txq := rfl
@[simp] theorem setStatus_answers (st : Status) (info : StatusInfo) (s : State) : (setStatus st info s).answers = s.answers := rfl
@[simp] theorem setStatus_requests (st : Status) (info : StatusInfo) (s : State) : (setStatus st info s).requests = s.requests := rfl

@[simp] theorem refuse_cfg (r : RefuseReason) (s : State) : (refuse r s).cfg = s.cfg := rfl
@[simp] theorem refuse_draw (r : RefuseReason) (s : State) : (refuse r s).draw = s.draw := rfl
@[simp] theorem refuse_fb (r : RefuseReason) (s : State) : (refuse r s).fb = s.fb := rfl
@[simp] theorem refuse_font (r : RefuseReason) (s : State) : (refuse r s).font = s.font := rfl
@[simp] theorem refuse_fsm (r : RefuseReason) (s : State) : (refuse r s).fsm = s.fsm := rfl
@[simp] theorem refuse_scroll (r : RefuseReason) (s : State) : (refuse r s).scroll = s.scroll := rfl
@[simp] theorem refuse_fault (r : RefuseReason) (s : State) : (refuse r s).fault = s.fault := rfl
@[simp] theorem refuse_status (r : RefuseReason) (s : State) : (refuse r s).status = s.status := rfl
@[simp] theorem refuse_statusInfo (r : RefuseReason) (s : State) : (refuse r s).statusInfo = s.statusInfo := rfl
@[simp] theorem refuse_statusValid (r : RefuseReason) (s : State) : (refuse r s).statusValid = s.statusValid := rfl
@[simp] theorem refuse_seq (r : RefuseReason) (s : State) : (refuse r s).seq = s.seq := rfl
@[simp] theorem refuse_busy (r : RefuseReason) (s : State) : (refuse r s).busy = s.busy := rfl
@[simp] theorem refuse_tlog (r : RefuseReason) (s : State) : (refuse r s).tlog = s.tlog := rfl
@[simp] theorem refuse_faults (r : RefuseReason) (s : State) : (refuse r s).faults = s.faults := rfl
@[simp] theorem refuse_refused (r : RefuseReason) (s : State) : (refuse r s).refused = some r := rfl
@[simp] theorem refuse_op (r : RefuseReason) (s : State) : (refuse r s).op = s.op := rfl
@[simp] theorem refuse_txq (r : RefuseReason) (s : State) : (refuse r s).txq = s.txq := rfl
@[simp] theorem refuse_answers (r : RefuseReason) (s : State) : (refuse r s).answers = s.answers := rfl
@[simp] theorem refuse_requests (r : RefuseReason) (s : State) : (refuse r s).requests = s.requests := rfl

@[simp] theorem markFault_cfg (r : FaultReason) (s : State) : (markFault r s).cfg = s.cfg := rfl
@[simp] theorem markFault_draw (r : FaultReason) (s : State) : (markFault r s).draw = s.draw := rfl
@[simp] theorem markFault_fb (r : FaultReason) (s : State) : (markFault r s).fb = s.fb := rfl
@[simp] theorem markFault_font (r : FaultReason) (s : State) : (markFault r s).font = s.font := rfl
@[simp] theorem markFault_fsm (r : FaultReason) (s : State) : (markFault r s).fsm = s.fsm := rfl
@[simp] theorem markFault_scroll (r : FaultReason) (s : State) : (markFault r s).scroll = s.scroll := rfl
@[simp] theorem markFault_fault (r : FaultReason) (s : State) : (markFault r s).fault = s.fault := rfl
@[simp] theorem markFault_status (r : FaultReason) (s : State) : (markFault r s).status = s.status := rfl
@[simp] theorem markFault_statusInfo (r : FaultReason) (s : State) : (markFault r s).statusInfo = s.statusInfo := rfl
@[simp] theorem markFault_statusValid (r : FaultReason) (s : State) : (markFault r s).statusValid = s.statusValid := rfl
@[simp] theorem markFault_seq (r : FaultReason) (s : State) : (markFault r s).seq = s.seq := rfl
@[simp] theorem markFault_busy (r : FaultReason) (s : State) : (markFault r s).busy = s.busy := rfl
@[simp] theorem markFault_tlog (r : FaultReason) (s : State) : (markFault r s).tlog = s.tlog := rfl
@[simp] theorem markFault_faults (r : FaultReason) (s : State) : (markFault r s).faults = if r ∈ s.faults then s.faults else s.faults ++ [r] := rfl
@[simp] theorem markFault_refused (r : FaultReason) (s : State) : (markFault r s).refused = s.refused := rfl
@[simp] theorem markFault_op (r : FaultReason) (s : State) : (markFault r s).op = s.op := rfl
@[simp] theorem markFault_txq (r : FaultReason) (s : State) : (markFault r s).txq = s.txq := rfl
@[simp] theorem markFault_answers (r : FaultReason) (s : State) : (markFault r s).answers = s.answers := rfl
@[simp] theorem markFault_requests (r : FaultReason) (s : State) : (markFault r s).requests = s.requests := rfl

@[simp] theorem clearFb_cfg (s : State) : (clearFb s).cfg = s.cfg := rfl
@[simp] theorem clearFb_draw (s : State) : (clearFb s).draw = s.draw := rfl
@[simp] theorem clearFb_fb (s : State) : (clearFb s).fb = Memory.clear s.fb (fbSize s.cfg) := rfl
@[simp] theorem clearFb_font (s : State) : (clearFb s).font = s.font := rfl
@[simp] theorem clearFb_fsm (s : State) : (clearFb s).fsm = s.fsm := rfl
@[simp] theorem clearFb_scroll (s : State) : (clearFb s).scroll = s.scroll := rfl
@[simp] theorem clearFb_fault (s : State) : (clearFb s).fault = s.fault := rfl
@[simp] theorem clearFb_status (s : State) : (clearFb s).status = s.status := rfl
@[simp] theorem clearFb_statusInfo (s : State) : (clearFb s).statusInfo = s.statusInfo := rfl
@[simp] theorem clearFb_statusValid (s : State) : (clearFb s).statusValid = s.statusValid := rfl
@[simp] theorem clearFb_seq (s : State) : (clearFb s).seq = s.seq := rfl
@[simp] theorem clearFb_busy (s : State) : (clearFb s).busy = s.busy := rfl
@[simp] theorem clearFb_tlog (s : State) : (clearFb s).tlog = s.tlog := rfl
@[simp] theorem clearFb_faults (s : State) : (clearFb s).faults = s.faults := rfl
@[simp] theorem clearFb_refused (s : State) : (clearFb s).refused = s.refused := rfl
@[simp] theorem clearFb_op (s : State) : (clearFb s).op = s.op := rfl
@[simp] theorem clearFb_txq (s : State) : (clearFb s).txq = s.txq := rfl
@[simp] theorem clearFb_answers (s : State) : (clearFb s).answers = s.answers := rfl
@[simp] theorem clearFb_requests (s : State) : (clearFb s).requests = s.requests := rfl

@[simp] theorem handOver_cfg (bytes : List Byte) (s : State) : (handOver bytes s).cfg = s.cfg := rfl
@[simp] theorem handOver_draw (bytes : List Byte) (s : State) : (handOver bytes s).draw = s.draw := rfl
@[simp] theorem handOver_fb (bytes : List Byte) (s : State) : (handOver bytes s).fb = s.fb := rfl
@[simp] theorem handOver_font (bytes : List Byte) (s : State) : (handOver bytes s).font = s.font := rfl
@[simp] theorem handOver_fsm (bytes : List Byte) (s : State) : (handOver bytes s).fsm = s.fsm := rfl
@[simp] theorem handOver_scroll (bytes : List Byte) (s : State) : (handOver bytes s).scroll = s.scroll := rfl
@[simp] theorem handOver_fault (bytes : List Byte) (s : State) : (handOver bytes s).fault = s.fault := rfl
@[simp] theorem handOver_status (bytes : List Byte) (s : State) : (handOver bytes s).status = s.status := rfl
@[simp] theorem handOver_statusInfo (bytes : List Byte) (s : State) : (handOver bytes s).statusInfo = s.statusInfo := rfl
@[simp] theorem handOver_statusValid (bytes : List Byte) (s : State) : (handOver bytes s).statusValid = s.statusValid := rfl
@[simp] theorem handOver_seq (bytes : List Byte) (s : State) : (handOver bytes s).seq = s.seq := rfl
@[simp] theorem handOver_busy (bytes : List Byte) (s : State) : (handOver bytes s).busy = true := rfl
@[simp] theorem handOver_tlog (bytes : List Byte) (s : State) : (handOver bytes s).tlog = s.tlog ++ [⟨s.cfg.busId, s.cfg.addr, bytes, .pending⟩] := rfl
@[simp] theorem handOver_faults (bytes : List Byte) (s : State) : (handOver bytes s).faults = s.faults := rfl
@[simp] theorem handOver_refused (bytes : List Byte) (s : State) : (handOver bytes s).refused = s.refused := rfl
@[simp] theorem handOver_op (bytes : List Byte) (s : State) : (handOver bytes s).op = s.op := rfl
@[simp] theorem handOver_txq (bytes : List Byte) (s : State) : (handOver bytes s).txq = s.txq := rfl
@[simp] theorem handOver_answers (bytes : List Byte) (s : State) : (handOver bytes s).answers = s.answers := rfl
@[simp] theorem handOver_requests (bytes : List Byte) (s : State) : (handOver bytes s).requests = s.requests := rfl

@[simp] theorem completeOp_cfg (s : State) : (completeOp s).cfg = s.cfg := rfl
@[simp] theorem completeOp_draw (s : State) : (completeOp s).draw = s.draw := rfl
@[simp] theorem completeOp_fb (s : State) : (completeOp s).fb = s.fb := rfl
@[simp] theorem completeOp_font (s : State) : (completeOp s).font = s.font := rfl
@[simp] theorem completeOp_fsm (s : State) : (completeOp s).fsm = s.fsm := rfl
@[simp] theorem completeOp_scroll (s : State) : (completeOp s).scroll = s.scroll := rfl
@[simp] theorem completeOp_fault (s : State) : (completeOp s).fault = s.fault := rfl
@[simp] theorem completeOp_status (s : State) : (completeOp s).status = .ok := rfl
@[simp] theorem completeOp_statusInfo (s : State) : (completeOp s).statusInfo = .nothing := rfl
@[simp] theorem completeOp_statusValid (s : State) : (completeOp s).statusValid = true := rfl
@[simp] theorem completeOp_seq (s : State) : (completeOp s).seq = 0 := rfl
@[simp] theorem completeOp_busy (s : State) : (completeOp s).busy = s.busy := rfl
@[simp] theorem completeOp_tlog (s : State) : (completeOp s).tlog = s.tlog := rfl
@[simp] theorem completeOp_faults (s : State) : (completeOp s).faults = s.faults := rfl
@[simp] theorem completeOp_refused (s : State) : (completeOp s).refused = s.refused := rfl
@[simp] theorem completeOp_op (s : State) : (completeOp s).op = none := rfl
@[simp] theorem completeOp_txq (s : State) : (completeOp s).txq = [] := rfl
@[simp] theorem completeOp_answers (s : State) : (completeOp s).answers = s.answers := rfl
@[simp] theorem completeOp_requests (s : State) : (completeOp s).requests = s.requests := rfl

@[simp] theorem beginOp_cfg (o : TxOp) (s : State) : (beginOp o s).cfg = s.cfg := rfl
@[simp] theorem beginOp_draw (o : TxOp) (s : State) : (beginOp o s).draw = s.draw := rfl
@[simp] theorem beginOp_fb (o : TxOp) (s : State) : (beginOp o s).fb = s.fb := rfl
@[simp] theorem beginOp_font (o : TxOp) (s : State) : (beginOp o s).font = s.font := rfl
@[simp] theorem beginOp_fsm (o : TxOp) (s : State) : (beginOp o s).fsm = s.fsm := rfl
@[simp] theorem beginOp_scroll (o : TxOp) (s : State) : (beginOp o s).scroll = s.scroll := rfl
@[simp] theorem beginOp_fault (o : TxOp) (s : State) : (beginOp o s).fault = s.fault := rfl
@[simp] theorem beginOp_status (o : TxOp) (s : State) : (beginOp o s).status = s.status := rfl
@[simp] theorem beginOp_statusInfo (o : TxOp) (s : State) : (beginOp o s).statusInfo = s.statusInfo := rfl
@[simp] theorem beginOp_statusValid (o : TxOp) (s : State) : (beginOp o s).statusValid = s.statusValid := rfl
@[simp] theorem beginOp_seq (o : TxOp) (s : State) : (beginOp o s).seq = 0 := rfl
@[simp] theorem beginOp_busy (o : TxOp) (s : State) : (beginOp o s).busy = s.busy := rfl
@[simp] theorem beginOp_tlog (o : TxOp) (s : State) : (beginOp o s).tlog = s.tlog := rfl
@[simp] theorem beginOp_faults (o : TxOp) (s : State) : (beginOp o s).faults = s.faults := rfl
@[simp] theorem beginOp_refused (o : TxOp) (s : State) : (beginOp o s).refused = s.refused := rfl
@[simp] theorem beginOp_op (o : TxOp) (s : State) : (beginOp o s).op = some o := rfl
@[simp] theorem beginOp_txq (o : TxOp) (s : State) : (beginOp o s).txq = [] := rfl
@[simp] theorem beginOp_answers (o : TxOp) (s : State) : (beginOp o s).answers = s.answers := rfl
@[simp] theorem beginOp_requests (o : TxOp) (s : State) : (beginOp o s).requests = s.requests := rfl

@[simp] theorem raise_transportError_cfg (o : Byte) (n : Nat) (k : Kind) (s : State) : (raise (.transportError o n k) s).cfg = s.cfg := rfl
@[simp] theorem raise_transportError_draw (o : Byte) (n : Nat) (k : Kind) (s : State) : (raise (.transportError o n k) s).draw = s.draw := rfl
@[simp] theorem raise_transportError_fb (o : Byte) (n : Nat) (k : Kind) (s : State) : (raise (.transportError o n k) s).fb = s.fb := rfl
@[simp] theorem raise_transportError_font (o : Byte) (n : Nat) (k : Kind) (s : State) : (raise (.transportError o n k) s).font = s.font := rfl
@[simp] theorem raise_transportError_fsm (o : Byte) (n : Nat) (k : Kind) (s : State) : (raise (.transportError o n k) s).fsm = s.fsm := rfl
@[simp] theorem raise_transportError_scroll (o : Byte) (n : Nat) (k : Kind) (s : State) : (raise (.transportError o n k) s).scroll = s.scroll := rfl
@[simp] theorem raise_transportError_fault (o : Byte) (n : Nat) (k : Kind) (s : State) : (raise (.transportError o n k) s).fault = latch s.fault ⟨o, n, k⟩ := rfl
@[simp] theorem raise_transportError_status (o : Byte) (n : Nat) (k : Kind) (s : State) : (raise (.transportError o n k) s).status = .transportError := rfl
@[simp] theorem raise_transportError_statusInfo (o : Byte) (n : Nat) (k : Kind) (s : State) : (raise (.transportError o n k) s).statusInfo = .transport o n k := rfl
@[simp] theorem raise_transportError_statusValid (o : Byte) (n : Nat) (k : Kind) (s : State) : (raise (.transportError o n k) s).statusValid = true := rfl
@[simp] theorem raise_transportError_seq (o : Byte) (n : Nat) (k : Kind) (s : State) : (raise (.transportError o n k) s).seq = 0 := rfl
@[simp] theorem raise_transportError_busy (o : Byte) (n : Nat) (k : Kind) (s : State) : (raise (.transportError o n k) s).busy = false := rfl
@[simp] theorem raise_transportError_tlog (o : Byte) (n : Nat) (k : Kind) (s : State) : (raise (.transportError o n k) s).tlog = s.tlog := rfl
@[simp] theorem raise_transportError_faults (o : Byte) (n : Nat) (k : Kind) (s : State) : (raise (.transportError o n k) s).faults = s.faults := rfl
@[simp] theorem raise_transportError_refused (o : Byte) (n : Nat) (k : Kind) (s : State) : (raise (.transportError o n k) s).refused = s.refused := rfl
@[simp] theorem raise_transportError_op (o : Byte) (n : Nat) (k : Kind) (s : State) : (raise (.transportError o n k) s).op = none := rfl
@[simp] theorem raise_transportError_txq (o : Byte) (n : Nat) (k : Kind) (s : State) : (raise (.transportError o n k) s).txq = [] := rfl
@[simp] theorem raise_transportError_answers (o : Byte) (n : Nat) (k : Kind) (s : State) : (raise (.transportError o n k) s).answers = s.answers := rfl
@[simp] theorem raise_transportError_requests (o : Byte) (n : Nat) (k : Kind) (s : State) : (raise (.transportError o n k) s).requests = s.requests := rfl

@[simp] theorem raise_invalidArgument (o : Byte) (s : State) :
    raise (.invalidArgument o) s = setStatus .invalidArgument (.opcode o) s := rfl

@[simp] theorem raise_configurationError (o : Byte) (s : State) :
    raise (.configurationError o) s = setStatus .configurationError (.opcode o) s := rfl

@[simp] theorem finish_go (s : State) : finish (.go s) = setStatus .ok .nothing s := rfl

@[simp] theorem finish_fault (r : FaultReason) (s : State) : finish (.fault r s) = markFault r s := rfl

@[simp] theorem latch_none (f : FaultInfo) : latch none f = some f := rfl

@[simp] theorem latch_some (f g : FaultInfo) : latch (some f) g = some f := rfl

@[simp] theorem sent_state_done (s : State) : (Sent.done s).state = s := rfl

@[simp] theorem sent_state_waiting (s : State) : (Sent.waiting s).state = s := rfl

@[simp] theorem sent_state_failed (s : State) : (Sent.failed s).state = s := rfl

end Sys2Proof.Machine
end

