-- ==== Sys2Proof/Laws/Transfer.lean ====
section
/-! SUPPORT. The laws of the transfer primitive and of an operation's queue: what each does when the transport answers
Ok, when it answers with an error, and when it has not answered. -/

namespace Sys2Proof.Machine

/-- A TLOG entry of this block (R29). -/
def entry (c : Config) (bytes : List Byte) (o : TransferOutcome) : LogEntry := ⟨c.busId, c.addr, bytes, o⟩

@[simp] theorem setLastOutcome_concat (o : TransferOutcome) (l : List LogEntry) (e : LogEntry) :
    setLastOutcome o (l ++ [e]) = l ++ [{ e with outcome := o }] := by
  induction l with
  | nil => rfl
  | cons f l ih =>
    cases l with
    | nil => rfl
    | cons g l => exact congrArg (f :: ·) ih

/-! ### One transfer (R49) -/

theorem transfer_ok (b : List Byte) (s : State) (as : List Answer) (h : s.answers = .ok :: as) :
    transfer b s = .done { s with tlog := s.tlog ++ [entry s.cfg b .ok], busy := false, seq := s.seq + 1, answers := as } := by
  simp [transfer, awaitAnswer, h, takeAnswer, entry, handOver]

theorem transfer_err (b : List Byte) (s : State) (k : Kind) (as : List Answer) (h : s.answers = .err k :: as) :
    transfer b s = .failed (raise (.transportError (opCode s) s.seq k)
      { s with tlog := s.tlog ++ [entry s.cfg b (.err k)], busy := false, answers := as }) := by
  simp [transfer, awaitAnswer, h, takeAnswer, entry, handOver, opCode]

theorem transfer_none (b : List Byte) (s : State) (h : s.answers = []) :
    transfer b s = .waiting { s with tlog := s.tlog ++ [entry s.cfg b .pending], busy := true } := by
  simp [transfer, awaitAnswer, h, entry, handOver]

/-! ### Assignments -/

/-- What an item assigns to FSM. -/
def fsmOf (f : Fsm) : TxItem → Fsm
  | .setFsm g => g
  | .cmd _ => f
  | .setScroll _ => f

/-- What an item assigns to SCROLL. -/
def scrollOf (d : Scroll) : TxItem → Scroll
  | .setScroll e => e
  | .cmd _ => d
  | .setFsm _ => d

theorem foldl_assign (l : List TxItem) (s : State) :
    l.foldl (fun t it => assign it t) s
      = { s with fsm := l.foldl fsmOf s.fsm, scroll := l.foldl scrollOf s.scroll } := by
  induction l generalizing s with
  | nil => rfl
  | cons it l ih =>
    rw [List.foldl_cons, ih]
    cases it <;> rfl

/-! ### Sequences of transfers -/

/-- `s` after the transfers `fs`, all answered Ok, and the assignments `l`, with the answers `as` left. -/
def sentOk (fs : List Instr) (l : List TxItem) (as : List Answer) (s : State) : State :=
  { s with
    tlog := s.tlog ++ fs.map (fun f => entry s.cfg (transferBytes f) .ok)
    busy := s.busy && fs.isEmpty
    seq := s.seq + fs.length
    answers := as
    fsm := l.foldl fsmOf s.fsm
    scroll := l.foldl scrollOf s.scroll }

theorem sentOk_nothing (s : State) (as : List Answer) (h : s.answers = as) : sentOk [] [] as s = s := by
  subst h
  simp [sentOk]

theorem sentOk_sentOk (fs gs : List Instr) (l m : List TxItem) (as bs : List Answer) (s : State) :
    sentOk gs m bs (sentOk fs l as s) = sentOk (fs ++ gs) (l ++ m) bs s := by
  simp [sentOk, Nat.add_assoc, Bool.and_assoc, List.foldl_append]
  cases fs <;> cases gs <;> simp

/-- `s` after the transfers `fs` answered Ok, the assignments `l` and transfer number `j`, `f`, answered with an error:
the operation has ended (R177). -/
def errAt (fs : List Instr) (f : Instr) (l : List TxItem) (j : Nat) (k : Kind) (as : List Answer) (s : State) : State :=
  raise (.transportError (opCode s) (s.seq + j) k)
    { s with
      tlog := s.tlog ++ (fs.map (fun f => entry s.cfg (transferBytes f) .ok) ++ [entry s.cfg (transferBytes f) (.err k)])
      answers := as
      fsm := l.foldl fsmOf s.fsm
      scroll := l.foldl scrollOf s.scroll }

/-- `s` after the transfers `fs` answered Ok, the assignments `l` and transfer number `j`, `f`, not answered: it is
pending, with `q` left to do (R50). -/
def waitAt (fs : List Instr) (f : Instr) (l : List TxItem) (j : Nat) (q : List TxItem) (s : State) : State :=
  { s with
    tlog := s.tlog ++ (fs.map (fun f => entry s.cfg (transferBytes f) .ok) ++ [entry s.cfg (transferBytes f) .pending])
    busy := true
    seq := s.seq + j
    answers := []
    fsm := l.foldl fsmOf s.fsm
    scroll := l.foldl scrollOf s.scroll
    txq := q }

theorem errAt_sentOk (gs fs : List Instr) (f : Instr) (m l : List TxItem) (j : Nat) (k : Kind) (as bs : List Answer)
    (s : State) : errAt fs f l j k as (sentOk gs m bs s) = errAt (gs ++ fs) f (m ++ l) (gs.length + j) k as s := by
  simp [errAt, sentOk, raise, setStatus, opCode, Nat.add_assoc, List.foldl_append]

theorem waitAt_sentOk (gs fs : List Instr) (f : Instr) (m l : List TxItem) (j : Nat) (q : List TxItem)
    (bs : List Answer) (s : State) :
    waitAt fs f l j q (sentOk gs m bs s) = waitAt (gs ++ fs) f (m ++ l) (gs.length + j) q s := by
  simp [waitAt, sentOk, Nat.add_assoc, List.foldl_append]

/-- All answered Ok. -/
theorem sendFrames_ok (fs : List Instr) (l : List TxItem) (s : State) (as : List Answer)
    (h : s.answers = List.replicate fs.length .ok ++ as) : sendFrames fs l s = .done (sentOk fs l as s) := by
  induction fs generalizing s with
  | nil =>
    have h' : s.answers = as := by simpa using h
    subst h'
    simp [sendFrames, foldl_assign, sentOk]
  | cons f fs ih =>
    rw [List.length_cons, List.replicate_succ, List.cons_append] at h
    rw [sendFrames, transfer_ok _ _ _ h]
    simp only
    rw [ih _ rfl]
    simp [sentOk]
    omega

/-- The first error ends it; the transfers before it are done. -/
theorem sendFrames_err (fs : List Instr) (l : List TxItem) (s : State) (j : Nat) (k : Kind) (as : List Answer)
    (f : Instr) (hj : fs[j]? = some f) (h : s.answers = List.replicate j .ok ++ .err k :: as) :
    sendFrames fs l s = .failed (errAt (fs.take j) f [] j k as s) := by
  induction fs generalizing s j with
  | nil => simp at hj
  | cons g fs ih =>
    cases j with
    | zero =>
      obtain rfl : g = f := by simpa using hj
      rw [sendFrames, transfer_err _ _ k as (by simpa using h)]
      simp [errAt, raise, setStatus]
    | succ j =>
      rw [List.replicate_succ, List.cons_append] at h
      rw [sendFrames, transfer_ok _ _ _ h]
      simp only
      rw [ih _ j (by simpa using hj) rfl]
      simp [errAt, raise, setStatus, opCode, Nat.add_assoc, Nat.add_comm 1]

/-- No answer to transfer `j`: it is pending, and what is left waits in the queue. -/
theorem sendFrames_wait (fs : List Instr) (l : List TxItem) (s : State) (j : Nat) (f : Instr)
    (hj : fs[j]? = some f) (h : s.answers = List.replicate j .ok) :
    sendFrames fs l s = .waiting (waitAt (fs.take j) f [] j ((fs.drop (j + 1)).map .cmd ++ (l ++ s.txq)) s) := by
  induction fs generalizing s j with
  | nil => simp at hj
  | cons g fs ih =>
    cases j with
    | zero =>
      obtain rfl : g = f := by simpa using hj
      have h' : s.answers = [] := by simpa using h
      rw [sendFrames, transfer_none _ _ h']
      simp [waitAt, h']
    | succ j =>
      rw [List.replicate_succ] at h
      rw [sendFrames, transfer_ok _ _ _ h]
      simp only
      rw [ih _ j (by simpa using hj) rfl]
      simp [waitAt, Nat.add_assoc, Nat.add_comm 1]

/-! ### Items and queues -/

/-- The transfers of an item. -/
def itemFrames (c : Config) : TxItem → List Instr
  | .cmd i => framesOf c i
  | .setFsm _ => []
  | .setScroll _ => []

/-- The assignments of an item, once its transfers are done. -/
def itemAfter (op : Option TxOp) : TxItem → List TxItem
  | .cmd i => scrollAfter op i
  | .setFsm f => [.setFsm f]
  | .setScroll d => [.setScroll d]

theorem runItem_ok (it : TxItem) (s : State) (as : List Answer)
    (h : s.answers = List.replicate (itemFrames s.cfg it).length .ok ++ as) :
    runItem it s = .done (sentOk (itemFrames s.cfg it) (itemAfter s.op it) as s) := by
  cases it with
  | cmd i => exact sendFrames_ok _ _ _ _ h
  | setFsm f =>
    have h' : s.answers = as := by simpa [itemFrames] using h
    subst h'
    simp [runItem, sentOk, itemFrames, itemAfter, fsmOf, scrollOf]
  | setScroll d =>
    have h' : s.answers = as := by simpa [itemFrames] using h
    subst h'
    simp [runItem, sentOk, itemFrames, itemAfter, fsmOf, scrollOf]

/-- The transfers of a queue. -/
def queueFrames (c : Config) (q : List TxItem) : List Instr := q.flatMap (itemFrames c)

/-- The assignments of a queue. -/
def queueAfter (op : Option TxOp) (q : List TxItem) : List TxItem := q.flatMap (itemAfter op)

/-- A queue whose transfers are all answered Ok runs to its end. -/
theorem runQueue_ok (q : List TxItem) (s : State) (as : List Answer)
    (h : s.answers = List.replicate (queueFrames s.cfg q).length .ok ++ as) :
    runQueue q s = completeOp (sentOk (queueFrames s.cfg q) (queueAfter s.op q) as s) := by
  induction q generalizing s with
  | nil =>
    have h' : s.answers = as := by simpa [queueFrames] using h
    simp only [runQueue, queueFrames, queueAfter, List.flatMap_nil]
    rw [sentOk_nothing s as h']
  | cons it q ih =>
    have hl : (queueFrames s.cfg (it :: q)).length
        = (itemFrames s.cfg it).length + (queueFrames s.cfg q).length := by
      simp [queueFrames]
    rw [hl, List.replicate_add, List.append_assoc] at h
    rw [runQueue, runItem_ok it _ (List.replicate (queueFrames s.cfg q).length .ok ++ as) h]
    simp only
    rw [ih _ rfl]
    change completeOp (sentOk (queueFrames s.cfg q) (queueAfter s.op q) as (sentOk _ _ _ { s with txq := q })) = _
    rw [sentOk_sentOk]
    simp [queueFrames, queueAfter, sentOk, completeOp]

/-- The assignments done before transfer `j` of a queue. -/
def doneBefore (c : Config) (op : Option TxOp) : List TxItem → Nat → List TxItem
  | [], _ => []
  | it :: q, j =>
    if j < (itemFrames c it).length then []
    else itemAfter op it ++ doneBefore c op q (j - (itemFrames c it).length)

/-- What is left in the queue while transfer `j` is pending. -/
def leftAt (c : Config) (op : Option TxOp) : List TxItem → Nat → List TxItem
  | [], _ => []
  | it :: q, j =>
    if j < (itemFrames c it).length then ((itemFrames c it).drop (j + 1)).map .cmd ++ (itemAfter op it ++ q)
    else leftAt c op q (j - (itemFrames c it).length)

theorem runItem_err (it : TxItem) (s : State) (j : Nat) (k : Kind) (as : List Answer) (f : Instr)
    (hj : (itemFrames s.cfg it)[j]? = some f) (h : s.answers = List.replicate j .ok ++ .err k :: as) :
    runItem it s = .failed (errAt ((itemFrames s.cfg it).take j) f [] j k as s) := by
  cases it with
  | cmd i => exact sendFrames_err _ _ _ _ _ _ _ hj h
  | setFsm g => simp [itemFrames] at hj
  | setScroll d => simp [itemFrames] at hj

theorem runItem_wait (it : TxItem) (s : State) (j : Nat) (f : Instr)
    (hj : (itemFrames s.cfg it)[j]? = some f) (h : s.answers = List.replicate j .ok) :
    runItem it s = .waiting (waitAt ((itemFrames s.cfg it).take j) f [] j
      (((itemFrames s.cfg it).drop (j + 1)).map .cmd ++ (itemAfter s.op it ++ s.txq)) s) := by
  cases it with
  | cmd i => exact sendFrames_wait _ _ _ _ _ hj h
  | setFsm g => simp [itemFrames] at hj
  | setScroll d => simp [itemFrames] at hj

theorem queueFrames_cons (c : Config) (it : TxItem) (q : List TxItem) :
    queueFrames c (it :: q) = itemFrames c it ++ queueFrames c q := by
  simp [queueFrames]

theorem take_length_add_append (l m : List Instr) (d : Nat) : (l ++ m).take (l.length + d) = l ++ m.take d := by
  simp [List.take_append]

/-- The first error ends an operation at its transfer `j` (R177). -/
theorem runQueue_err (q : List TxItem) (s : State) (j : Nat) (k : Kind) (as : List Answer) (f : Instr)
    (hj : (queueFrames s.cfg q)[j]? = some f) (h : s.answers = List.replicate j .ok ++ .err k :: as) :
    runQueue q s = errAt ((queueFrames s.cfg q).take j) f (doneBefore s.cfg s.op q j) j k as s := by
  induction q generalizing s j with
  | nil => simp [queueFrames] at hj
  | cons it q ih =>
    rw [queueFrames_cons] at hj ⊢
    by_cases hlt : j < (itemFrames s.cfg it).length
    · rw [List.getElem?_append_left hlt] at hj
      rw [runQueue, runItem_err it { s with txq := q } j k as f hj h]
      simp only [doneBefore, if_pos hlt]
      rw [List.take_append_of_le_length (by omega)]
      rfl
    · have hge : (itemFrames s.cfg it).length ≤ j := by omega
      rw [List.getElem?_append_right hge] at hj
      obtain ⟨d, rfl⟩ := Nat.exists_eq_add_of_le hge
      rw [List.replicate_add, List.append_assoc] at h
      rw [Nat.add_sub_cancel_left] at hj
      rw [runQueue, runItem_ok it { s with txq := q } (List.replicate d .ok ++ .err k :: as) h]
      simp only [doneBefore, if_neg hlt, Nat.add_sub_cancel_left, take_length_add_append]
      refine (ih (sentOk _ _ _ { s with txq := q }) d hj rfl).trans ?_
      exact errAt_sentOk _ _ _ _ _ _ _ _ _ { s with txq := q }

/-- An operation with no answer to its transfer `j` waits there (R50). -/
theorem runQueue_wait (q : List TxItem) (s : State) (j : Nat) (f : Instr)
    (hj : (queueFrames s.cfg q)[j]? = some f) (h : s.answers = List.replicate j .ok) :
    runQueue q s = waitAt ((queueFrames s.cfg q).take j) f (doneBefore s.cfg s.op q j) j (leftAt s.cfg s.op q j) s := by
  induction q generalizing s j with
  | nil => simp [queueFrames] at hj
  | cons it q ih =>
    rw [queueFrames_cons] at hj ⊢
    by_cases hlt : j < (itemFrames s.cfg it).length
    · rw [List.getElem?_append_left hlt] at hj
      rw [runQueue, runItem_wait it { s with txq := q } j f hj h]
      simp only [doneBefore, leftAt, if_pos hlt]
      rw [List.take_append_of_le_length (by omega)]
      rfl
    · have hge : (itemFrames s.cfg it).length ≤ j := by omega
      rw [List.getElem?_append_right hge] at hj
      obtain ⟨d, rfl⟩ := Nat.exists_eq_add_of_le hge
      rw [List.replicate_add] at h
      rw [Nat.add_sub_cancel_left] at hj
      rw [runQueue, runItem_ok it { s with txq := q } (List.replicate d .ok) h]
      simp only [doneBefore, leftAt, if_neg hlt, Nat.add_sub_cancel_left, take_length_add_append]
      refine (ih (sentOk _ _ _ { s with txq := q }) d hj rfl).trans ?_
      exact waitAt_sentOk _ _ _ _ _ _ _ _ { s with txq := q }

/-- Assignments that leave FSM. -/
theorem foldl_fsm_id (l : List TxItem) (f : Fsm) (h : ∀ it ∈ l, ∀ g, fsmOf g it = g) : l.foldl fsmOf f = f := by
  induction l generalizing f with
  | nil => rfl
  | cons a l ih => simp only [List.foldl_cons]; rw [h a (by simp), ih _ fun it hi => h it (by simp [hi])]

/-- Assignments that leave SCROLL. -/
theorem foldl_scroll_id (l : List TxItem) (f : Scroll) (h : ∀ it ∈ l, ∀ g, scrollOf g it = g) : l.foldl scrollOf f = f := by
  induction l generalizing f with
  | nil => rfl
  | cons a l ih => simp only [List.foldl_cons]; rw [h a (by simp), ih _ fun it hi => h it (by simp [hi])]

theorem queueFrames_append (c : Config) (q r : List TxItem) : queueFrames c (q ++ r) = queueFrames c q ++ queueFrames c r := by simp [queueFrames]

theorem doneBefore_append (c op) (q r : List TxItem) : ∀ j, j < (queueFrames c q).length → doneBefore c op (q ++ r) j = doneBefore c op q j := by
  induction q with
  | nil => intro j hj; simp [queueFrames] at hj
  | cons a q ih =>
    intro j hj
    simp only [queueFrames, List.flatMap_cons, List.length_append] at hj
    simp only [List.cons_append, doneBefore]
    split
    · rfl
    · rw [ih _ (by simp only [queueFrames]; omega)]

/-- A queue without assignments. -/
theorem doneBefore_nil (c op) (q : List TxItem) (h : ∀ it ∈ q, itemAfter op it = []) : ∀ j, doneBefore c op q j = [] := by
  induction q with
  | nil => intro j; rfl
  | cons a q ih =>
    intro j
    simp only [doneBefore, h a (by simp), ih fun it hi => h it (by simp [hi])]
    simp

/-! ### Every way a statement can go -/

/-- However many answers there are, a sequence of transfers is all answered Ok, fails at one, or waits at one. -/
theorem answers_cases (n : Nat) (as : List Answer) :
    (∃ bs, as = List.replicate n .ok ++ bs) ∨ (∃ j k bs, j < n ∧ as = List.replicate j .ok ++ .err k :: bs)
      ∨ (∃ j, j < n ∧ as = List.replicate j .ok) := by
  induction n generalizing as with
  | zero => exact .inl ⟨as, by simp⟩
  | succ n ih =>
    cases as with
    | nil => exact .inr (.inr ⟨0, by omega, rfl⟩)
    | cons a as =>
      cases a with
      | err k => exact .inr (.inl ⟨0, k, as, by omega, rfl⟩)
      | ok =>
        rcases ih as with ⟨bs, rfl⟩ | ⟨j, k, bs, hj, rfl⟩ | ⟨j, hj, rfl⟩
        · exact .inl ⟨bs, by simp [List.replicate_succ]⟩
        · exact .inr (.inl ⟨j + 1, k, bs, by omega, by simp [List.replicate_succ]⟩)
        · exact .inr (.inr ⟨j + 1, by omega, by simp [List.replicate_succ]⟩)

/-- A property that every item keeps, and the end of an operation and its errors with it, a queue keeps. -/
theorem runQueue_keeps (P : State → Prop) (q : List TxItem) (s : State) (hs : P s)
    (hq : ∀ t rest, P t → P { t with txq := rest }) (hi : ∀ it ∈ q, ∀ t, P t → P (runItem it t).state)
    (hd : ∀ t, P t → P (completeOp t)) : P (runQueue q s) := by
  induction q generalizing s with
  | nil => exact hd s hs
  | cons it q ih =>
    have h1 := hi it (by simp) { s with txq := q } (hq s q hs)
    rw [runQueue]
    split <;> rename_i t ht <;> rw [ht] at h1
    · exact ih t h1 fun it' h' => hi it' (by simp [h'])
    · exact h1
    · exact h1

end Sys2Proof.Machine
end

