-- ==== Sys2Proof/Laws/Step.lean ====
section
/-! SUPPORT. What a step can do, said once, and what executing a controller command or a transfer is. -/

namespace Sys2Proof.Machine

/-- Every way a step can go on. -/
inductive StepCase (s t : State) : Prop where
  | wait (idle : s.op = none) (none : s.requests = []) (same : t = s)
  | request (idle : s.op = none) (r : Request) (rs : List Request) (i : Instr) (port : s.requests = r :: rs)
      (alone : r.overlaps = false) (decoded : decodeRequest r.bytes = .ok i) (run : exec i { s with requests := rs } = .next t)
  | refused (idle : s.op = none) (r : Request) (rs : List Request) (e : RefuseReason) (port : s.requests = r :: rs)
      (alone : r.overlaps = false) (decoded : decodeRequest r.bytes = .error e) (mark : t = refuse e { s with requests := rs })
  | concurrent (r : Request) (rs : List Request) (port : s.requests = r :: rs) (overlaps : r.overlaps = true)
      (mark : t = refuse .concurrentCall { s with requests := rs })
  | answer (o : TxOp) (executing : s.op = some o) (busy : s.busy = true) (a : Answer) (as : List Answer)
      (given : s.answers = a :: as) (taken : t = (takeAnswer a { s with answers := as }).state)
  | complete (o : TxOp) (executing : s.op = some o) (busy : s.busy = false) (queue : s.txq = [])
      (done : t = completeOp s)
  | command (o : TxOp) (executing : s.op = some o) (busy : s.busy = false) (i : Instr) (q : List TxItem)
      (queue : s.txq = .cmd i :: q) (run : exec i { s with txq := q } = .next t)
  | setFsm (o : TxOp) (executing : s.op = some o) (busy : s.busy = false) (f : Fsm) (q : List TxItem)
      (queue : s.txq = .setFsm f :: q) (done : t = { s with fsm := f, txq := q })
  | setScroll (o : TxOp) (executing : s.op = some o) (busy : s.busy = false) (d : Scroll) (q : List TxItem)
      (queue : s.txq = .setScroll d :: q) (done : t = { s with scroll := d, txq := q })

/-- No request at the head of the port was issued while another was executing. -/
theorem overlapping_none (s : State) : overlapping s = none ↔ ∀ r ∈ s.requests.head?, r.overlaps = false := by
  unfold overlapping
  cases s.requests with
  | nil => simp
  | cons r rs => simp

theorem overlapping_some (s : State) (rs : List Request) :
    overlapping s = some rs ↔ ∃ r, s.requests = r :: rs ∧ r.overlaps = true := by
  unfold overlapping
  cases s.requests with
  | nil => simp
  | cons r l =>
    cases h : r.overlaps with
    | false =>
      simp only [h, Bool.false_eq_true, if_false, List.cons.injEq, reduceCtorEq, false_iff]
      rintro ⟨r', ⟨rfl, -⟩, h'⟩
      rw [h] at h'
      cases h'
    | true =>
      simp only [h, if_true, Option.some.injEq, List.cons.injEq]
      constructor
      · rintro rfl
        exact ⟨r, ⟨rfl, rfl⟩, h⟩
      · rintro ⟨-, ⟨-, rfl⟩, -⟩
        rfl

/-- What an executing operation's step fetches, where no concurrent call is to be refused. -/
theorem fetch_executing (s : State) (o : TxOp) (hf : s.faults = []) (ho : s.op = some o)
    (hr : ∀ r ∈ s.requests.head?, r.overlaps = false) : fetch s = fetchItem s := by
  simp only [fetch, hf, (overlapping_none s).mpr hr, ho]

/-- What an idle block's step fetches. -/
theorem fetch_idle (s : State) (hf : s.faults = []) (ho : s.op = none)
    (hr : ∀ r ∈ s.requests.head?, r.overlaps = false) : fetch s = fetchRequest s := by
  simp only [fetch, hf, (overlapping_none s).mpr hr, ho]

/-- A concurrent call (R187). -/
theorem step_concurrent (s : State) (r : Request) (rs : List Request) (hf : s.faults = []) (hr : s.requests = r :: rs)
    (hv : r.overlaps = true) : step s = .next (refuse .concurrentCall { s with requests := rs }) := by
  simp only [step, fetch, hf, (overlapping_some s rs).mpr ⟨r, hr, hv⟩]

/-- A step that answers a next state is one of these, and nothing has faulted before it. -/
theorem step_cases (s t : State) (h : step s = .next t) : s.faults = [] ∧ StepCase s t := by
  cases hf : s.faults with
  | cons r rs => simp [step, fetch, hf] at h
  | nil =>
    refine ⟨rfl, ?_⟩
    cases hv : overlapping s with
    | some rs =>
      obtain ⟨r, hr, ho⟩ := (overlapping_some s rs).mp hv
      rw [step_concurrent s r rs hf hr ho] at h
      exact .concurrent r rs hr ho (Host.Outcome.next.inj h).symm
    | none =>
      have hv := (overlapping_none s).mp hv
      cases ho : s.op with
      | none =>
        rw [step, fetch_idle s hf ho hv, fetchRequest] at h
        cases hr : s.requests with
        | nil =>
          simp only [hr, Host.Outcome.next.injEq] at h
          exact .wait ho hr h.symm
        | cons r rs =>
          have halone : r.overlaps = false := hv r (by rw [hr]; rfl)
          simp only [hr] at h
          cases hd : decodeRequest r.bytes with
          | ok i =>
            simp only [hd] at h
            exact .request ho r rs i hr halone hd h
          | error e =>
            simp only [hd, Host.Outcome.next.injEq] at h
            exact .refused ho r rs e hr halone hd h.symm
      | some o =>
        rw [step, fetch_executing s o hf ho hv, fetchItem] at h
        cases hb : s.busy with
        | true =>
          simp only [hb, if_true, awaitAnswer] at h
          cases ha : s.answers with
          | nil => simp [ha] at h
          | cons a as =>
            simp only [ha] at h
            refine .answer o ho hb a as ha ?_
            cases hs : takeAnswer a { s with answers := as } with
            | done u =>
              rw [hb] at hs
              rw [hs] at h
              exact (Host.Outcome.next.inj h).symm
            | failed u =>
              rw [hb] at hs
              rw [hs] at h
              exact (Host.Outcome.next.inj h).symm
            | waiting u => cases a <;> simp [takeAnswer] at hs
        | false =>
          simp only [hb, Bool.false_eq_true, if_false] at h
          cases hq : s.txq with
          | nil =>
            simp only [hq, Host.Outcome.next.injEq] at h
            exact .complete o ho hb hq h.symm
          | cons it q =>
            cases it with
            | cmd i =>
              simp only [hq] at h
              exact .command o ho hb i q hq (by rw [hb]; exact h)
            | setFsm f =>
              simp only [hq, Host.Outcome.next.injEq] at h
              exact .setFsm o ho hb f q hq (by rw [hb]; exact h.symm)
            | setScroll d =>
              simp only [hq, Host.Outcome.next.injEq] at h
              exact .setScroll o ho hb d q hq (by rw [hb]; exact h.symm)

/-- A controller command or a transfer is transmitted (R63, R64). -/
theorem exec_transmit (i : Instr) (s : State) (h : laneOf i ≠ .request) : exec i s = .next (transmit i s).state := by
  cases i <;> first | rfl | exact absurd rfl h

/-- The transfers of a controller command or a transfer, as transmitter instructions. -/
theorem framesOf_lane (c : Config) (i f : Instr) (h : f ∈ framesOf c i) : laneOf f = .transfer := by
  unfold framesOf at h
  split at h
  · cases h
  · unfold cutCommand at h
    split at h
    · rw [List.mem_singleton.mp h]
      rfl
    · obtain ⟨b, -, rfl⟩ := List.mem_map.mp h
      rfl
  · rename_i hl
    rw [List.mem_singleton.mp h]
    exact hl

theorem framesOf_wellFormed (c : Config) (i f : Instr) (hi : wellFormed i = true) (h : f ∈ framesOf c i) :
    wellFormed f = true := by
  unfold framesOf at h
  split at h
  · cases h
  · rename_i hl
    unfold cutCommand at h
    split at h
    · rw [List.mem_singleton.mp h]
      cases i <;> first | (solve | cases hl) | simp [wellFormed, cmdBytes]
    · obtain ⟨b, -, rfl⟩ := List.mem_map.mp h
      rfl
  · rw [List.mem_singleton.mp h]
    exact hi

end Sys2Proof.Machine
end

