-- ==== Sys2Proof/Laws/Invariant.lean ====
section
/-! SUPPORT. What running an operation's items keeps: the conditions under which an item or a queue is run, and that the
invariant holds wherever it ends or waits. -/

namespace Sys2Proof.Machine

theorem itemTransfers_eq (c it) : itemTransfers c it = (itemFrames c it).length := by cases it <;> rfl

/-- The transfers of a queue, counted and listed. -/
theorem queueTransfers_eq (c q) : queueTransfers c q = (queueFrames c q).length := by
  rw [queueTransfers, queueFrames, List.length_flatMap, show itemTransfers c = fun a => (itemFrames c a).length from funext (itemTransfers_eq c)]

/-- A well-formed transfer is framed (R62). -/
theorem framed_transferBytes (f : Instr) (hl : laneOf f = .transfer) (hw : wellFormed f = true) : framed (transferBytes f) = true := by
  cases f <;> (try (solve | cases hl))
  · simp [wellFormed] at hw; simp [transferBytes, framed]; omega
  · simp [wellFormed] at hw; simp [transferBytes, framed]; omega

/-- The transfers of an item are well-formed. -/
theorem itemFrames_ok (c it) (h : itemOK it = true) : ∀ f ∈ itemFrames c it, laneOf f = .transfer ∧ wellFormed f = true := by
  intro f hf
  cases it with
  | cmd i =>
    simp [itemOK, isTransmitter] at h
    exact ⟨framesOf_lane c i f hf, framesOf_wellFormed c i f h.2 hf⟩
  | setFsm _ => simp [itemFrames] at hf
  | setScroll _ => simp [itemFrames] at hf

/-- The assignments of an item are items without transfers. -/
theorem itemAfter_ok (op it) (h : itemOK it = true) : ∀ x ∈ itemAfter op it, itemOK x = true ∧ (∀ c, itemFrames c x = []) := by
  intro x hx
  cases it with
  | cmd i =>
    simp only [itemAfter, scrollAfter] at hx
    split at hx <;> simp at hx <;> subst hx <;> exact ⟨rfl, fun _ => rfl⟩
  | setFsm _ => simp [itemAfter] at hx; subst hx; exact ⟨h, fun _ => rfl⟩
  | setScroll _ => simp [itemAfter] at hx; subst hx; exact ⟨h, fun _ => rfl⟩

/-- What an operation has where it goes on with the items `q`. -/
structure Ready (q : List TxItem) (s : State) : Prop where
  admitted : admitted s.cfg = true
  memWf : Memory.wf s.fb = true
  memIn : ∀ c ∈ s.fb, c.1 < fbSize s.cfg
  font : fontOK s.font = true
  exe : s.op ≠ none
  queue : ∀ it ∈ q, itemOK it = true
  log : ∀ e ∈ s.tlog, e.bus = s.cfg.busId ∧ e.addr = s.cfg.addr ∧ framed e.bytes = true
  settled : ∀ e ∈ s.tlog, e.outcome ≠ .pending
  busy : s.busy = false
  count : s.seq + queueTransfers s.cfg q ≤ transferCap
  latched : ∀ f, s.fault = some f → f.index < transferCap
  unread : s.statusValid = false → s.status = .ok

/-- Such a state, with `q` queued, meets the invariant. -/
theorem Ready.inv {q s} (h : Ready q s) : MachineInv { s with txq := q } where
  admitted := h.admitted
  memWf := h.memWf
  memIn := h.memIn
  font := h.font
  idle := fun k => absurd k h.exe
  queue := h.queue
  log := h.log
  settled := fun e he => h.settled e (List.dropLast_subset _ he)
  pending := by
    constructor
    · intro k; exact absurd (h.busy) (by simp at k; simp [k])
    · rintro ⟨e, h1, h2⟩; exact absurd h2 (h.settled e (List.mem_of_getLast? h1))
  count := by have := h.count; have hb := h.busy; simp [hb]; exact this
  latched := h.latched
  unread := h.unread

/-- The entries of transfers answered Ok. -/
theorem okEntries_framed {c : Config} (fs : List Instr) (hf : ∀ f ∈ fs, laneOf f = .transfer ∧ wellFormed f = true) :
   ∀ e ∈ fs.map (fun f => entry c (transferBytes f) .ok), e.bus = c.busId ∧ e.addr = c.addr ∧ framed e.bytes = true ∧ e.outcome ≠ .pending := by
  intro e he
  obtain ⟨f, hfm, rfl⟩ := List.mem_map.mp he
  exact ⟨rfl, rfl, framed_transferBytes f (hf f hfm).1 (hf f hfm).2, by simp [entry]⟩

/-- No assignment leads back to Uninitialized (R141). -/
theorem foldl_fsm_initialized (l : List TxItem) (h : ∀ x ∈ l, itemOK x = true) (f : Fsm) (hf : f ≠ .uninitialized) : l.foldl fsmOf f ≠ .uninitialized := by
  induction l generalizing f with
  | nil => exact hf
  | cons a l ih =>
    apply ih (fun x hx => h x (by simp [hx]))
    have := h a (by simp)
    cases a <;> simp [fsmOf, itemOK] at * <;> assumption

/-- Running one item keeps it, or ends or suspends the operation with the invariant. -/
theorem ready_item (it : TxItem) (q : List TxItem) (s : State) (h : Ready (it :: q) s) :
    match runItem it { s with txq := q } with
    | .done t => Ready q t ∧ t.txq = q
    | .waiting t => MachineInv t
    | .failed t => MachineInv t := by
  have hit := h.queue it (by simp)
  have hfr := itemFrames_ok s.cfg it hit
  have haf := itemAfter_ok s.op it hit
  have hcount := h.count
  have hqt : queueTransfers s.cfg (it :: q) = (itemFrames s.cfg it).length + queueTransfers s.cfg q := by
    rw [queueTransfers_eq, queueTransfers_eq, queueFrames_cons, List.length_append]
  rw [hqt] at hcount
  obtain ⟨o, ho⟩ := Option.ne_none_iff_exists'.mp h.exe
  rcases answers_cases (itemFrames s.cfg it).length s.answers with ⟨bs, ha⟩ | ⟨j, k, bs, hj, ha⟩ | ⟨j, hj, ha⟩
  · rw [runItem_ok it { s with txq := q } bs ha]
    refine ⟨⟨h.admitted, h.memWf, h.memIn, h.font, h.exe, fun x hx => h.queue x (by simp [hx]), ?_, ?_, ?_, ?_, h.latched, h.unread⟩, rfl⟩
    · intro e he
      simp only [sentOk, List.mem_append] at he
      rcases he with he | he
      · exact h.log e he
      · have := okEntries_framed _ hfr e he; exact ⟨this.1, this.2.1, this.2.2.1⟩
    · intro e he
      simp only [sentOk, List.mem_append] at he
      rcases he with he | he
      · exact h.settled e he
      · exact (okEntries_framed _ hfr e he).2.2.2
    · simp [sentOk, h.busy]
    · simp only [sentOk]; omega
  · obtain ⟨f, hf⟩ : ∃ f, (itemFrames s.cfg it)[j]? = some f := ⟨_, List.getElem?_eq_getElem hj⟩
    have hfm := hfr f (List.mem_of_getElem? hf)
    rw [runItem_err it { s with txq := q } j k bs f hf ha]
    have hfrt : ∀ f ∈ (itemFrames s.cfg it).take j, laneOf f = .transfer ∧ wellFormed f = true := fun f h => hfr f (List.take_subset _ _ h)
    refine ⟨h.admitted, h.memWf, h.memIn, h.font, fun _ => ⟨rfl, rfl, rfl⟩, by simp [errAt], ?_, ?_, ?_, ?_, ?_, ?_⟩
    · intro e he
      simp only [errAt, raise_transportError_tlog, List.mem_append, List.mem_singleton] at he
      rcases he with he | he | rfl
      · exact h.log e he
      · have := okEntries_framed _ hfrt e he; exact ⟨this.1, this.2.1, this.2.2.1⟩
      · exact ⟨rfl, rfl, framed_transferBytes f hfm.1 hfm.2⟩
    · intro e he
      simp only [errAt, raise_transportError_tlog] at he
      rw [← List.append_assoc, List.dropLast_concat] at he
      simp only [List.mem_append] at he
      rcases he with he | he
      · exact h.settled e he
      · exact (okEntries_framed _ hfrt e he).2.2.2
    · simp only [errAt, raise_transportError_busy, raise_transportError_tlog]
      rw [← List.append_assoc, List.getLast?_concat]
      simp [entry]
    · simp [errAt, queueTransfers, transferCap]
    · intro fi hfi
      simp only [errAt, raise_transportError_fault] at hfi
      cases hfs : s.fault with
      | some g => simp only [hfs, latch_some] at hfi; cases hfi; exact h.latched _ hfs
      | none => simp only [hfs, latch_none] at hfi; cases hfi; simp only; omega
    · intro hv; simp [errAt] at hv
  · obtain ⟨f, hf⟩ : ∃ f, (itemFrames s.cfg it)[j]? = some f := ⟨_, List.getElem?_eq_getElem hj⟩
    have hfm := hfr f (List.mem_of_getElem? hf)
    rw [runItem_wait it { s with txq := q } j f hf ha]
    have hfrt : ∀ f ∈ (itemFrames s.cfg it).take j, laneOf f = .transfer ∧ wellFormed f = true := fun f h => hfr f (List.take_subset _ _ h)
    refine ⟨h.admitted, h.memWf, h.memIn, h.font, fun k => absurd k h.exe, ?_, ?_, ?_, ?_, ?_, h.latched, h.unread⟩
    · intro x hx
      simp only [waitAt, List.mem_append, List.mem_map] at hx
      rcases hx with ⟨g, hg, rfl⟩ | hx | hx
      · have := hfr g (List.drop_subset _ _ hg)
        simp [itemOK, isTransmitter, this]
      · exact (haf x hx).1
      · exact h.queue x (by simp [hx])
    · intro e he
      simp only [waitAt, List.mem_append, List.mem_singleton] at he
      rcases he with he | he | rfl
      · exact h.log e he
      · have := okEntries_framed _ hfrt e he; exact ⟨this.1, this.2.1, this.2.2.1⟩
      · exact ⟨rfl, rfl, framed_transferBytes f hfm.1 hfm.2⟩
    · intro e he
      simp only [waitAt] at he
      rw [← List.append_assoc, List.dropLast_concat] at he
      simp only [List.mem_append] at he
      rcases he with he | he
      · exact h.settled e he
      · exact (okEntries_framed _ hfrt e he).2.2.2
    · simp only [waitAt]
      rw [← List.append_assoc, List.getLast?_concat]
      simp [entry]
    · simp only [waitAt, if_true]
      have h1 : queueTransfers s.cfg (((itemFrames s.cfg it).drop (j + 1)).map .cmd ++ (itemAfter s.op it ++ q)) = ((itemFrames s.cfg it).length - (j + 1)) + queueTransfers s.cfg q := by
        rw [queueTransfers_eq, queueTransfers_eq, queueFrames_append, queueFrames_append]
        have e1 : queueFrames s.cfg (itemAfter s.op it) = [] := by
          simp only [queueFrames, List.flatMap_eq_nil_iff]; intro x hx; exact (haf x hx).2 _
        have e2 : queueFrames s.cfg (((itemFrames s.cfg it).drop (j + 1)).map .cmd) = (itemFrames s.cfg it).drop (j + 1) := by
          simp only [queueFrames, List.flatMap_map]
          have : ∀ l : List Instr, (∀ f ∈ l, laneOf f = .transfer) → l.flatMap (fun a => itemFrames s.cfg (.cmd a)) = l := by
            intro l hl
            induction l with
            | nil => rfl
            | cons a l ih =>
              rw [List.flatMap_cons, ih fun f hf => hl f (by simp [hf])]
              simp [itemFrames, framesOf, hl a (by simp)]
          exact this _ fun f hf => (hfr f (List.drop_subset _ _ hf)).1
        rw [e1, e2]; simp
      rw [h1]; omega

/-- Running a queue ends or suspends the operation with the invariant. -/
theorem ready_queue (q : List TxItem) (s : State) (h : Ready q s) : MachineInv (runQueue q s) := by
  induction q generalizing s with
  | nil =>
    have := h.inv
    exact ⟨h.admitted, h.memWf, h.memIn, h.font, fun _ => ⟨rfl, h.busy, rfl⟩, by simp [runQueue], h.log, this.settled, this.pending, by simp [runQueue, queueTransfers, h.busy], h.latched, by simp [runQueue]⟩
  | cons it q ih =>
    have := ready_item it q s h
    rw [runQueue]
    split <;> rename_i t ht <;> rw [ht] at this
    · exact ih t this.1
    · exact this
    · exact this

/-- An executing operation without a pending transfer is ready for its queue. -/
theorem MachineInv.ready {s : State} (h : MachineInv s) (ho : s.op ≠ none) (hb : s.busy = false) : Ready s.txq s := by
  refine ⟨h.admitted, h.memWf, h.memIn, h.font, ho, h.queue, h.log, ?_, hb, by have := h.count; simpa [hb] using this, h.latched, h.unread⟩
  intro e he hp
  rcases List.eq_nil_or_concat s.tlog with hl | ⟨l, x, hl⟩
  · rw [hl] at he; cases he
  · rw [hl, List.concat_eq_append, List.mem_append, List.mem_singleton] at he
    rcases he with he | rfl
    · exact h.settled e (by rw [hl, List.concat_eq_append, List.dropLast_concat]; exact he) hp
    · have := h.pending.mpr ⟨e, by rw [hl, List.concat_eq_append, List.getLast?_concat], hp⟩
      rw [hb] at this; cases this

end Sys2Proof.Machine
end

