-- ==== Sys2Proof/Laws/Memory.lean ====
section
/-! SUPPORT. The laws of the framebuffer's cells: read after write, read after clear, and that every operation keeps
the canonical form. -/

namespace Sys2Proof.Machine

@[simp] theorem Memory.read_nil (a : Nat) : Memory.read [] a = none := rfl

/-- An address below every listed one is not listed. -/
theorem Memory.read_below (m : Memory) (a : Nat) (h : ∀ c ∈ m, a < c.1) : Memory.read m a = none := by
  induction m with
  | nil => rfl
  | cons c m ih =>
    obtain ⟨b, v⟩ := c
    have hb : a < b := h (b, v) (by simp)
    simp only [Memory.read]
    rw [if_neg (by omega)]
    exact ih fun d hd => h d (by simp [hd])

/-- An address no cell has is not listed. -/
theorem Memory.read_absent (m : Memory) (a : Nat) (h : ∀ c ∈ m, c.1 ≠ a) : Memory.read m a = none := by
  induction m with
  | nil => rfl
  | cons c m ih =>
    obtain ⟨b, v⟩ := c
    have hb : b ≠ a := h (b, v) (by simp)
    simp only [Memory.read]
    rw [if_neg (by omega)]
    exact ih fun d hd => h d (by simp [hd])

theorem Memory.wf_cons (c : Host.Cell) (m : Memory) :
    Memory.wf (c :: m) = true ↔ (∀ d ∈ m, c.1 < d.1) ∧ Memory.wf m = true := by
  simp [Memory.wf]

/-- Reading after writing one byte. -/
theorem Memory.read_write (m : Memory) (a b : Nat) (v : Byte) :
    Memory.read (Memory.write m a v) b = if b = a then some v else Memory.read m b := by
  induction m with
  | nil => simp [Memory.write, Memory.read]
  | cons c m ih =>
    obtain ⟨e, u⟩ := c
    simp only [Memory.write]
    split
    · simp [Memory.read]
    · split
      · rename_i _ hae
        subst hae
        simp only [Memory.read]
        split <;> simp_all
      · simp only [Memory.read, ih]
        split
        · rename_i hbe
          rw [if_neg (by omega)]
        · rfl

/-- Where the cells of a written memory come from. -/
theorem Memory.mem_write (m : Memory) (a : Nat) (v : Byte) (c : Host.Cell) (h : c ∈ Memory.write m a v) :
    c = (a, v) ∨ c ∈ m := by
  induction m with
  | nil => simpa [Memory.write] using h
  | cons d m ih =>
    obtain ⟨e, u⟩ := d
    simp only [Memory.write] at h
    split at h
    · simpa using h
    · split at h
      · rcases List.mem_cons.mp h with h | h
        · exact .inl h
        · exact .inr (by simp [h])
      · rcases List.mem_cons.mp h with h | h
        · exact .inr (by simp [h])
        · rcases ih h with h | h
          · exact .inl h
          · exact .inr (by simp [h])

/-- A write keeps the canonical form. -/
theorem Memory.wf_write (m : Memory) (a : Nat) (v : Byte) (h : Memory.wf m = true) :
    Memory.wf (Memory.write m a v) = true := by
  induction m with
  | nil => rfl
  | cons d m ih =>
    obtain ⟨e, u⟩ := d
    have hm := (Memory.wf_cons _ _).mp h
    simp only [Memory.write]
    split
    · rename_i hae
      refine (Memory.wf_cons _ _).mpr ⟨?_, h⟩
      intro x hx
      rcases List.mem_cons.mp hx with rfl | hx
      · exact hae
      · exact Nat.lt_trans hae (hm.1 x hx)
    · split
      · rename_i _ hae
        subst hae
        exact (Memory.wf_cons _ _).mpr ⟨fun x hx => hm.1 x hx, hm.2⟩
      · rename_i h1 h2
        refine (Memory.wf_cons _ _).mpr ⟨?_, ih hm.2⟩
        intro x hx
        rcases Memory.mem_write m a v x hx with rfl | hx
        · simp only
          omega
        · exact hm.1 x hx

theorem Memory.read_append (m n : Memory) (a : Nat) :
    Memory.read (m ++ n) a = (Memory.read m a).or (Memory.read n a) := by
  induction m with
  | nil => simp
  | cons c m ih =>
    obtain ⟨b, v⟩ := c
    simp only [List.cons_append, Memory.read]
    split <;> simp_all

theorem Memory.read_zeros (n a : Nat) :
    Memory.read ((List.range n).map (fun k => (k, 0x00#8))) a = if a < n then some 0x00#8 else none := by
  induction n with
  | zero => rfl
  | succ n ih =>
    rw [List.range_succ, List.map_append, Memory.read_append, ih]
    simp only [List.map_cons, List.map_nil, Memory.read]
    by_cases h1 : a < n
    · rw [if_pos h1, if_neg (by omega), if_pos (by omega)]
      rfl
    · by_cases h2 : a = n
      · rw [if_neg h1, if_pos h2, if_pos (by omega)]
        rfl
      · rw [if_neg h1, if_neg h2, if_neg (by omega)]
        rfl

theorem Memory.read_filter_ge (m : Memory) (n a : Nat) (h : n ≤ a) :
    Memory.read (m.filter (fun c => decide (n ≤ c.1))) a = Memory.read m a := by
  induction m with
  | nil => rfl
  | cons c m ih =>
    obtain ⟨b, v⟩ := c
    by_cases hb : n ≤ b
    · rw [List.filter_cons_of_pos (by simpa using hb)]
      simp only [Memory.read, ih]
    · rw [List.filter_cons_of_neg (by simpa using hb), ih]
      simp only [Memory.read]
      rw [if_neg (by omega)]

/-- Reading after PREPARE's loop: zero below the bound, unchanged from it on. -/
theorem Memory.read_clear (m : Memory) (n a : Nat) :
    Memory.read (Memory.clear m n) a = if a < n then some 0x00#8 else Memory.read m a := by
  rw [Memory.clear, Memory.read_append, Memory.read_zeros]
  split
  · rfl
  · rw [Memory.read_filter_ge _ _ _ (by omega)]
    rfl

theorem Memory.wf_append (m n : Memory) (hm : Memory.wf m = true) (hn : Memory.wf n = true)
    (h : ∀ c ∈ m, ∀ d ∈ n, c.1 < d.1) : Memory.wf (m ++ n) = true := by
  induction m with
  | nil => exact hn
  | cons c m ih =>
    have hc := (Memory.wf_cons _ _).mp hm
    refine (Memory.wf_cons _ _).mpr ⟨?_, ih hc.2 fun d hd => h d (by simp [hd])⟩
    intro d hd
    rcases List.mem_append.mp hd with hd | hd
    · exact hc.1 d hd
    · exact h c (by simp) d hd

theorem Memory.wf_zeros (n : Nat) : Memory.wf ((List.range n).map (fun k => (k, 0x00#8))) = true := by
  induction n with
  | zero => rfl
  | succ n ih =>
    rw [List.range_succ, List.map_append]
    refine Memory.wf_append _ _ ih rfl ?_
    simp

theorem Memory.wf_filter (m : Memory) (p : Host.Cell → Bool) (h : Memory.wf m = true) :
    Memory.wf (m.filter p) = true := by
  induction m with
  | nil => rfl
  | cons c m ih =>
    have hc := (Memory.wf_cons _ _).mp h
    by_cases hp : p c = true
    · rw [List.filter_cons_of_pos hp]
      exact (Memory.wf_cons _ _).mpr ⟨fun d hd => hc.1 d (List.mem_filter.mp hd).1, ih hc.2⟩
    · rw [List.filter_cons_of_neg hp]
      exact ih hc.2

/-- PREPARE's loop keeps the canonical form. -/
theorem Memory.wf_clear (m : Memory) (n : Nat) (h : Memory.wf m = true) : Memory.wf (Memory.clear m n) = true := by
  refine Memory.wf_append _ _ (Memory.wf_zeros n) (Memory.wf_filter _ _ h) ?_
  intro c hc d hd
  obtain ⟨k, hk, rfl⟩ := List.mem_map.mp hc
  have h1 := List.mem_range.mp hk
  have h2 := of_decide_eq_true (List.mem_filter.mp hd).2
  simp only
  omega

/-- PREPARE's loop lists no address outside the buffer where none was listed. -/
theorem Memory.mem_clear (m : Memory) (n : Nat) (h : ∀ c ∈ m, c.1 < n) (c : Host.Cell)
    (hc : c ∈ Memory.clear m n) : c.1 < n := by
  rcases List.mem_append.mp hc with hc | hc
  · obtain ⟨k, hk, rfl⟩ := List.mem_map.mp hc
    exact List.mem_range.mp hk
  · exact h c (List.mem_filter.mp hc).1

theorem fbByte_write (s : State) (a b : Nat) (v : Byte) :
    fbByte { s with fb := Memory.write s.fb a v } b = if b = a then v else fbByte s b := by
  unfold fbByte
  simp only [Memory.read_write]
  split <;> rfl

theorem fbByte_clearFb (s : State) (a : Nat) :
    fbByte (clearFb s) a = if a < fbSize s.cfg then 0x00#8 else fbByte s a := by
  unfold fbByte clearFb
  simp only [Memory.read_clear]
  split <;> rfl

end Sys2Proof.Machine
end

