-- ==== Sys2Proof/Laws/PerInstr.lean ====
section
/-! SUPPORT. One lemma per instruction about its encoding: its length in bytes (30_encoding.md R60, R62, R66 to R89) and
the match and mask of its row of spec/opcode_table.json. -/

namespace Sys2Proof.Laws.EncodedLength

/-- The mask of the instruction's row. -/
def rowMask : Instr → Byte
  | .prepare => 0xFF#8
  | .setPixel _ _ _ => 0xFF#8
  | .drawLine _ _ _ _ _ => 0xFF#8
  | .drawRect _ _ _ _ _ => 0xFF#8
  | .setFont _ => 0xFF#8
  | .drawChar _ _ _ => 0xFF#8
  | .drawText _ _ _ => 0xFF#8
  | .initialise => 0xFF#8
  | .write => 0xFF#8
  | .clearScreen => 0xFF#8
  | .startScroll _ => 0xFF#8
  | .stopScroll => 0xFF#8
  | .displayOff => 0xFF#8
  | .displayOn => 0xFF#8
  | .setMultiplex _ => 0xFF#8
  | .setDisplayOffset _ => 0xFF#8
  | .setStartLine _ => 0xC0#8
  | .segRemapOn => 0xFF#8
  | .segRemapOff => 0xFF#8
  | .comScanRemapped => 0xFF#8
  | .comScanNormal => 0xFF#8
  | .setComPins _ => 0xFF#8
  | .setContrast _ => 0xFF#8
  | .entireDisplayResume => 0xFF#8
  | .entireDisplayOn => 0xFF#8
  | .normalDisplay => 0xFF#8
  | .invertDisplay => 0xFF#8
  | .setClockDiv _ => 0xFF#8
  | .chargePump _ => 0xFF#8
  | .memoryMode _ => 0xFF#8
  | .columnAddr _ _ => 0xFF#8
  | .pageAddr _ _ => 0xFF#8
  | .scrollSetupRight _ _ _ => 0xFF#8
  | .scrollSetupLeft _ _ _ => 0xFF#8
  | .scrollActivate => 0xFF#8
  | .scrollDeactivate => 0xFF#8
  | .ctrlCommand _ => 0xFF#8
  | .ctrlData _ => 0xFF#8

/-- The match of the instruction's row. -/
def rowMatch : Instr → Byte
  | .prepare => 0x01#8
  | .setPixel _ _ _ => 0x02#8
  | .drawLine _ _ _ _ _ => 0x03#8
  | .drawRect _ _ _ _ _ => 0x04#8
  | .setFont _ => 0x05#8
  | .drawChar _ _ _ => 0x06#8
  | .drawText _ _ _ => 0x07#8
  | .initialise => 0x10#8
  | .write => 0x11#8
  | .clearScreen => 0x12#8
  | .startScroll _ => 0x13#8
  | .stopScroll => 0x14#8
  | .displayOff => 0xAE#8
  | .displayOn => 0xAF#8
  | .setMultiplex _ => 0xA8#8
  | .setDisplayOffset _ => 0xD3#8
  | .setStartLine _ => 0x40#8
  | .segRemapOn => 0xA1#8
  | .segRemapOff => 0xA0#8
  | .comScanRemapped => 0xC8#8
  | .comScanNormal => 0xC0#8
  | .setComPins _ => 0xDA#8
  | .setContrast _ => 0x81#8
  | .entireDisplayResume => 0xA4#8
  | .entireDisplayOn => 0xA5#8
  | .normalDisplay => 0xA6#8
  | .invertDisplay => 0xA7#8
  | .setClockDiv _ => 0xD5#8
  | .chargePump _ => 0x8D#8
  | .memoryMode _ => 0x20#8
  | .columnAddr _ _ => 0x21#8
  | .pageAddr _ _ => 0x22#8
  | .scrollSetupRight _ _ _ => 0x26#8
  | .scrollSetupLeft _ _ _ => 0x27#8
  | .scrollActivate => 0x2F#8
  | .scrollDeactivate => 0x2E#8
  | .ctrlCommand _ => 0x00#8
  | .ctrlData _ => 0x40#8

/-- The length of the encoding in bytes. -/
def bytes : Instr → Nat
  | .prepare => 1
  | .setPixel _ _ _ => 10
  | .drawLine _ _ _ _ _ => 18
  | .drawRect _ _ _ _ _ => 18
  | .setFont none => 2
  | .setFont (some f) => 14 + 4 * f.table.length
  | .drawChar _ _ _ => 10
  | .drawText _ _ text => 11 + text.length
  | .initialise => 1
  | .write => 1
  | .clearScreen => 1
  | .startScroll _ => 2
  | .stopScroll => 1
  | .displayOff => 1
  | .displayOn => 1
  | .setMultiplex _ => 2
  | .setDisplayOffset _ => 2
  | .setStartLine _ => 1
  | .segRemapOn => 1
  | .segRemapOff => 1
  | .comScanRemapped => 1
  | .comScanNormal => 1
  | .setComPins _ => 2
  | .setContrast _ => 2
  | .entireDisplayResume => 1
  | .entireDisplayOn => 1
  | .normalDisplay => 1
  | .invertDisplay => 1
  | .setClockDiv _ => 2
  | .chargePump _ => 2
  | .memoryMode _ => 2
  | .columnAddr _ _ => 3
  | .pageAddr _ _ => 3
  | .scrollSetupRight _ _ _ => 7
  | .scrollSetupLeft _ _ _ => 7
  | .scrollActivate => 1
  | .scrollDeactivate => 1
  | .ctrlCommand rest => 1 + rest.length
  | .ctrlData payload => 1 + payload.length

/-- The encoding has the row's length, and its first byte is the row's match under the row's mask. -/
def Statement (i : Instr) : Prop :=
  (encode i).length = bytes i ∧ ∃ b rest, encode i = b :: rest ∧ b &&& rowMask i = rowMatch i

theorem prepare : Statement .prepare := ⟨rfl, _, _, rfl, rfl⟩

theorem setPixel (x y : Int) (on : Bool) : Statement (.setPixel x y on) :=
  ⟨rfl, _, _, rfl, by simp only [rowMask, rowMatch]; rfl⟩

theorem drawLine (x0 y0 x1 y1 : Int) (on : Bool) : Statement (.drawLine x0 y0 x1 y1 on) :=
  ⟨rfl, _, _, rfl, by simp only [rowMask, rowMatch]; rfl⟩

theorem drawRect (x y w h : Int) (on : Bool) : Statement (.drawRect x y w h on) :=
  ⟨rfl, _, _, rfl, by simp only [rowMask, rowMatch]; rfl⟩

theorem setFont (font : Option Font) : Statement (.setFont font) := by
  refine ⟨?_, _, _, rfl, by simp only [rowMask, rowMatch]; rfl⟩
  cases font with
  | none => rfl
  | some f =>
    simp only [encode, laneOf, requestBytes, fontBytes, i32Bytes, bytes, List.length_cons, List.length_append,
      wordBytes_length, flatMap_wordBytes_length]
    omega

theorem drawChar (x y : Int) (c : Byte) : Statement (.drawChar x y c) :=
  ⟨rfl, _, _, rfl, by simp only [rowMask, rowMatch]; rfl⟩

theorem drawText (x y : Int) (text : List Byte) : Statement (.drawText x y text) := by
  refine ⟨?_, _, _, rfl, by simp only [rowMask, rowMatch]; rfl⟩
  simp only [encode, laneOf, requestBytes, strBytes, i32Bytes, bytes, List.length_cons, List.length_append,
    wordBytes_length]
  omega

theorem initialise : Statement .initialise := ⟨rfl, _, _, rfl, rfl⟩

theorem write : Statement .write := ⟨rfl, _, _, rfl, rfl⟩

theorem clearScreen : Statement .clearScreen := ⟨rfl, _, _, rfl, rfl⟩

theorem startScroll (left : Bool) : Statement (.startScroll left) :=
  ⟨rfl, _, _, rfl, by simp only [rowMask, rowMatch]; rfl⟩

theorem stopScroll : Statement .stopScroll := ⟨rfl, _, _, rfl, rfl⟩

theorem displayOff : Statement .displayOff := ⟨rfl, _, _, rfl, rfl⟩

theorem displayOn : Statement .displayOn := ⟨rfl, _, _, rfl, rfl⟩

theorem setMultiplex (ratio : Byte) : Statement (.setMultiplex ratio) :=
  ⟨rfl, _, _, rfl, by simp only [rowMask, rowMatch]; rfl⟩

theorem setDisplayOffset (offset : Byte) : Statement (.setDisplayOffset offset) :=
  ⟨rfl, _, _, rfl, by simp only [rowMask, rowMatch]; rfl⟩

theorem setStartLine (line : BitVec 6) : Statement (.setStartLine line) := by
  have h : ∀ l : BitVec 6, (0x40#8 ||| l.setWidth 8) &&& 0xC0#8 = 0x40#8 := by decide
  exact ⟨rfl, _, _, rfl, h line⟩

theorem segRemapOn : Statement .segRemapOn := ⟨rfl, _, _, rfl, rfl⟩

theorem segRemapOff : Statement .segRemapOff := ⟨rfl, _, _, rfl, rfl⟩

theorem comScanRemapped : Statement .comScanRemapped := ⟨rfl, _, _, rfl, rfl⟩

theorem comScanNormal : Statement .comScanNormal := ⟨rfl, _, _, rfl, rfl⟩

theorem setComPins (pins : Byte) : Statement (.setComPins pins) :=
  ⟨rfl, _, _, rfl, by simp only [rowMask, rowMatch]; rfl⟩

theorem setContrast (level : Byte) : Statement (.setContrast level) :=
  ⟨rfl, _, _, rfl, by simp only [rowMask, rowMatch]; rfl⟩

theorem entireDisplayResume : Statement .entireDisplayResume := ⟨rfl, _, _, rfl, rfl⟩

theorem entireDisplayOn : Statement .entireDisplayOn := ⟨rfl, _, _, rfl, rfl⟩

theorem normalDisplay : Statement .normalDisplay := ⟨rfl, _, _, rfl, rfl⟩

theorem invertDisplay : Statement .invertDisplay := ⟨rfl, _, _, rfl, rfl⟩

theorem setClockDiv (div : Byte) : Statement (.setClockDiv div) :=
  ⟨rfl, _, _, rfl, by simp only [rowMask, rowMatch]; rfl⟩

theorem chargePump (setting : Byte) : Statement (.chargePump setting) :=
  ⟨rfl, _, _, rfl, by simp only [rowMask, rowMatch]; rfl⟩

theorem memoryMode (mode : Byte) : Statement (.memoryMode mode) :=
  ⟨rfl, _, _, rfl, by simp only [rowMask, rowMatch]; rfl⟩

theorem columnAddr (first last : Byte) : Statement (.columnAddr first last) :=
  ⟨rfl, _, _, rfl, by simp only [rowMask, rowMatch]; rfl⟩

theorem pageAddr (first last : Byte) : Statement (.pageAddr first last) :=
  ⟨rfl, _, _, rfl, by simp only [rowMask, rowMatch]; rfl⟩

theorem scrollSetupRight (startPage interval endPage : Byte) : Statement (.scrollSetupRight startPage interval endPage) :=
  ⟨rfl, _, _, rfl, by simp only [rowMask, rowMatch]; rfl⟩

theorem scrollSetupLeft (startPage interval endPage : Byte) : Statement (.scrollSetupLeft startPage interval endPage) :=
  ⟨rfl, _, _, rfl, by simp only [rowMask, rowMatch]; rfl⟩

theorem scrollActivate : Statement .scrollActivate := ⟨rfl, _, _, rfl, rfl⟩

theorem scrollDeactivate : Statement .scrollDeactivate := ⟨rfl, _, _, rfl, rfl⟩

theorem ctrlCommand (rest : List Byte) : Statement (.ctrlCommand rest) := by
  refine ⟨?_, _, _, rfl, by simp only [rowMask, rowMatch]; rfl⟩
  simp only [encode, laneOf, transferBytes, bytes, List.length_cons]
  omega

theorem ctrlData (payload : List Byte) : Statement (.ctrlData payload) := by
  refine ⟨?_, _, _, rfl, by simp only [rowMask, rowMatch]; rfl⟩
  simp only [encode, laneOf, transferBytes, bytes, List.length_cons]
  omega

end Sys2Proof.Laws.EncodedLength
end

