-- ==== Sys2Proof/Laws/Pixel.lean ====
section
/-! SUPPORT. The laws of the pixel primitives and of the loops over them. `Paints` says once what a drawing can do: it
puts one value into a set of pixels and leaves everything else. -/

namespace Sys2Proof.Machine

/-! ### Geometry -/

theorem admitted_iff (c : Config) : admitted c = true ↔
    (1 ≤ c.w ∧ c.w ≤ 256) ∧ (8 ≤ c.h ∧ c.h ≤ 256 ∧ c.h % 8 = 0) ∧ c.addr ≤ 0x7F := by
  simp only [admitted, Bool.and_eq_true, decide_eq_true_eq]
  tauto

theorem onPanel_iff (c : Config) (x y : Int) :
    onPanel c x y = true ↔ 0 ≤ x ∧ x < (c.w : Int) ∧ 0 ≤ y ∧ y < (c.h : Int) := by
  simp only [onPanel, Bool.and_eq_true, decide_eq_true_eq]
  tauto

/-- FBSIZE over the integers, where the height is a whole number of pages. -/
theorem fbSize_cast (c : Config) : (fbSize c : Int) = ((c.h / 8 : Nat) : Int) * (c.w : Int) := by
  simp [fbSize, pages]

/-- Every pixel of the panel has an address in the framebuffer (R41, R43). -/
theorem fbAddr_in (c : Config) (hc : admitted c = true) (x y : Int) (h : onPanel c x y = true) :
    0 ≤ fbAddr c x y ∧ fbAddr c x y < (fbSize c : Int) := by
  rw [onPanel_iff] at h
  have ha := (admitted_iff c).mp hc
  obtain ⟨hx0, hxw, hy0, hyh⟩ := h
  have hq0 : 0 ≤ y / 8 := by omega
  have hq : y / 8 ≤ ((c.h / 8 : Nat) : Int) - 1 := by omega
  rw [fbSize_cast]
  unfold fbAddr
  constructor
  · positivity
  · have := mul_le_mul_of_nonneg_right hq (Int.natCast_nonneg c.w)
    nlinarith

/-- Two pixels with the same address and the same bit are the same pixel (R43). -/
theorem fbAddr_inj (c : Config) (x y x' y' : Int) (h : onPanel c x y = true) (h' : onPanel c x' y' = true)
    (ha : fbAddr c x y = fbAddr c x' y') (hb : y % 8 = y' % 8) : x = x' ∧ y = y' := by
  rw [onPanel_iff] at h h'
  unfold fbAddr at ha
  have hq : y / 8 = y' / 8 := by
    rcases lt_trichotomy (y / 8) (y' / 8) with hlt | heq | hgt
    · have := mul_le_mul_of_nonneg_right (show y / 8 + 1 ≤ y' / 8 by omega) (Int.natCast_nonneg c.w)
      nlinarith
    · exact heq
    · have := mul_le_mul_of_nonneg_right (show y' / 8 + 1 ≤ y / 8 by omega) (Int.natCast_nonneg c.w)
      nlinarith
  rw [hq] at ha
  omega

/-! ### One bit of a byte -/

theorem putBit_getLsbD (v : Byte) (b k : Nat) (on : Bool) (hb : b < 8) (hk : k < 8) :
    (putBit v b on).getLsbD k = if k = b then on else v.getLsbD k := by
  have h1 : (0x01#8 <<< b).getLsbD k = decide (k = b) := by
    rw [BitVec.getLsbD_shiftLeft, BitVec.getLsbD_one]
    by_cases h : k = b
    · subst h
      simp [hk]
    · rcases Nat.lt_or_gt_of_ne h with h' | h'
      · simp [h, h']
      · have : ¬ k < b := by omega
        have h3 : ¬ (k - b = 0) := by omega
        simp [h, h3]
  cases on
  · simp only [putBit, Bool.false_eq_true, if_false, BitVec.getLsbD_and, BitVec.getLsbD_not, h1]
    by_cases h : k = b <;> simp [h, hk, hb]
  · simp only [putBit, if_true, BitVec.getLsbD_or, h1]
    by_cases h : k = b <;> simp [h]

/-! ### What a drawing does -/

/-- `t` is `s` with the pixels of `S` that are on the panel put to `on`, and nothing else changed: no other pixel, no
byte without a pixel of `S`, no other part of the state; the list stays canonical. -/
structure Paints (S : Int → Int → Prop) (on : Bool) (s t : State) : Prop where
  frame : t = { s with fb := t.fb }
  inside : ∀ x y, onPanel s.cfg x y = true → S x y → pixelGet t x y = on
  outside : ∀ x y, onPanel s.cfg x y = true → ¬ S x y → pixelGet t x y = pixelGet s x y
  bytes : ∀ a : Nat, (∀ x y, onPanel s.cfg x y = true → S x y → (fbAddr s.cfg x y).toNat ≠ a) →
    fbByte t a = fbByte s a
  memWf : Memory.wf s.fb = true → Memory.wf t.fb = true
  memIn : (∀ c ∈ s.fb, c.1 < fbSize s.cfg) → ∀ c ∈ t.fb, c.1 < fbSize s.cfg

theorem Paints.cfg_eq {S : Int → Int → Prop} {on : Bool} {s t : State} (h : Paints S on s t) : t.cfg = s.cfg := by
  rw [h.frame]

theorem Paints.nothing (on : Bool) (s : State) : Paints (fun _ _ => False) on s s :=
  ⟨rfl, fun _ _ _ h => h.elim, fun _ _ _ _ => rfl, fun _ _ => rfl, id, id⟩

/-- The same drawing under another description of its pixels. -/
theorem Paints.congr {S S' : Int → Int → Prop} {on : Bool} {s t : State} (h : Paints S on s t)
    (hS : ∀ x y, onPanel s.cfg x y = true → (S x y ↔ S' x y)) : Paints S' on s t :=
  ⟨h.frame, fun x y hp hs => h.inside x y hp ((hS x y hp).mpr hs),
    fun x y hp hs => h.outside x y hp fun hs' => hs ((hS x y hp).mp hs'),
    fun a ha => h.bytes a fun x y hp hs => ha x y hp ((hS x y hp).mp hs), h.memWf, h.memIn⟩

/-- One drawing after another paints the union. -/
theorem Paints.trans {S S' : Int → Int → Prop} {on : Bool} {s t u : State} (h : Paints S on s t)
    (h' : Paints S' on t u) : Paints (fun x y => S x y ∨ S' x y) on s u := by
  have hc := h.cfg_eq
  refine ⟨?_, ?_, ?_, ?_, fun hw => h'.memWf (h.memWf hw), ?_⟩
  · rw [h'.frame, h.frame]
  · intro x y hp hs
    by_cases hs' : S' x y
    · exact h'.inside x y (hc ▸ hp) hs'
    · rw [h'.outside x y (hc ▸ hp) hs']
      exact h.inside x y hp (hs.resolve_right hs')
  · intro x y hp hs
    rw [h'.outside x y (hc ▸ hp) fun k => hs (.inr k), h.outside x y hp fun k => hs (.inl k)]
  · intro a ha
    rw [h'.bytes a fun x y hp hs => hc ▸ ha x y (hc ▸ hp) (.inr hs), h.bytes a fun x y hp hs => ha x y hp (.inl hs)]
  · intro hm
    have := h'.memIn (hc.symm ▸ h.memIn hm)
    rwa [hc] at this

/-- A loop whose every body paints paints the union. -/
theorem forEach_paints {α : Type} (f : α → State → Flow) (S : α → Int → Int → Prop) (on : Bool) (c : Config)
    (l : List α) (s : State) (hc : s.cfg = c)
    (h : ∀ a ∈ l, ∀ t, t.cfg = c → ∃ u, f a t = .go u ∧ Paints (S a) on t u) :
    ∃ u, forEach f l s = .go u ∧ Paints (fun x y => ∃ a ∈ l, S a x y) on s u := by
  induction l generalizing s with
  | nil => exact ⟨s, rfl, (Paints.nothing on s).congr fun _ _ _ => by simp⟩
  | cons a l ih =>
    obtain ⟨t, ht, hp⟩ := h a (by simp) s hc
    obtain ⟨u, hu, hq⟩ := ih t (hp.cfg_eq.trans hc) fun b hb => h b (by simp [hb])
    refine ⟨u, ?_, (hp.trans hq).congr fun _ _ _ => by simp⟩
    rw [forEach, ht]
    exact hu

/-- `PixelPut` on the panel paints its one pixel (R45). -/
theorem pixelPut_paints (x y : Int) (on : Bool) (s : State) (hc : admitted s.cfg = true)
    (h : onPanel s.cfg x y = true) :
    ∃ t, pixelPut x y on s = .go t ∧ Paints (fun x' y' => x' = x ∧ y' = y) on s t := by
  have ha := fbAddr_in s.cfg hc x y h
  have hp := (onPanel_iff _ _ _).mp h
  have hput : pixelPut x y on s = .go { s with
      fb := Memory.write s.fb (fbAddr s.cfg x y).toNat (putBit (fbByte s (fbAddr s.cfg x y).toNat) (y % 8).toNat on) } := by
    simp only [pixelPut, memRead, memWrite, if_pos ha]
  refine ⟨_, hput, rfl, ?_, ?_, ?_, fun hw => Memory.wf_write _ _ _ hw, ?_⟩
  · rintro x' y' - ⟨rfl, rfl⟩
    simp only [pixelGet, fbByte_write, if_true]
    rw [putBit_getLsbD _ _ _ _ (by omega) (by omega), if_pos rfl]
  · intro x' y' hp' hne
    simp only [pixelGet, fbByte_write]
    split
    · rename_i hae
      rw [putBit_getLsbD _ _ _ _ (by omega) (by omega), if_neg, hae]
      intro hb
      have ha' := fbAddr_in s.cfg hc x' y' hp'
      exact hne (fbAddr_inj s.cfg x' y' x y hp' h (by omega) (by omega))
    · rfl
  · intro a hn
    rw [fbByte_write, if_neg]
    rintro rfl
    exact hn x y h ⟨rfl, rfl⟩ rfl
  · intro hm c hcm
    rcases Memory.mem_write _ _ _ _ hcm with rfl | hcm
    · simp only
      omega
    · exact hm c hcm

/-- SETPIXEL's body paints its pixel if it is on the panel (R101). -/
theorem clippedPut_paints (x y : Int) (on : Bool) (s : State) (hc : admitted s.cfg = true) :
    ∃ t, clippedPut x y on s = .go t ∧ Paints (fun x' y' => x' = x ∧ y' = y) on s t := by
  unfold clippedPut
  split
  · rename_i h
    exact pixelPut_paints x y on s hc h
  · rename_i h
    refine ⟨s, rfl, (Paints.nothing on s).congr ?_⟩
    rintro x' y' hp
    simp only [false_iff]
    rintro ⟨rfl, rfl⟩
    exact h hp

/-! ### Lines -/

theorem mem_span (a b v : Int) : v ∈ span a b ↔ a ≤ v ∧ v ≤ b := by
  simp only [span, List.mem_map, List.mem_range]
  constructor
  · rintro ⟨k, hk, rfl⟩
    omega
  · rintro ⟨h1, h2⟩
    exact ⟨(v - a).toNat, by omega, by omega⟩

theorem lineOK_iff (c : Config) (l : Line) : lineOK c l = true ↔
    0 ≤ l.x0 ∧ 0 ≤ l.y0 ∧ l.x0 ≤ l.x1 ∧ l.y0 ≤ l.y1 ∧ l.x1 ≤ (c.w : Int) ∧ l.y1 ≤ (c.h : Int) := by
  simp only [lineOK, Bool.and_eq_true, decide_eq_true_eq]
  tauto

/-- The closed rectangle between the clamped corners (R103). -/
def inLine (c : Config) (l : Line) (x y : Int) : Prop :=
  min l.x0 ((c.w : Int) - 1) ≤ x ∧ x ≤ min l.x1 ((c.w : Int) - 1)
    ∧ min l.y0 ((c.h : Int) - 1) ≤ y ∧ y ≤ min l.y1 ((c.h : Int) - 1)

/-- `LineFill` paints its clamped rectangle (R103). -/
theorem lineFill_paints (l : Line) (on : Bool) (s : State) (hc : admitted s.cfg = true)
    (h : lineOK s.cfg l = true) : ∃ t, lineFill l on s = .go t ∧ Paints (inLine s.cfg l) on s t := by
  have hl := (lineOK_iff _ _).mp h
  have ha := (admitted_iff s.cfg).mp hc
  obtain ⟨t, ht, hp⟩ := forEach_paints
    (fun y => forEach (fun x => pixelPut x y on) (span (clampLine s.cfg l).x0 (clampLine s.cfg l).x1))
    (fun y x' y' => ∃ x ∈ span (clampLine s.cfg l).x0 (clampLine s.cfg l).x1, x' = x ∧ y' = y) on s.cfg
    (span (clampLine s.cfg l).y0 (clampLine s.cfg l).y1) s rfl (by
      intro y hy t ht
      refine forEach_paints _ (fun x x' y' => x' = x ∧ y' = y) on s.cfg _ t ht ?_
      intro x hx u hu
      refine pixelPut_paints x y on u (hu ▸ hc) ?_
      rw [hu, onPanel_iff]
      have h1 := (mem_span _ _ _).mp hx
      have h2 := (mem_span _ _ _).mp hy
      simp only [clampLine] at h1 h2
      omega)
  refine ⟨t, ht, hp.congr ?_⟩
  intro x y _
  simp only [mem_span, clampLine, inLine]
  constructor
  · rintro ⟨y', hy', x', hx', rfl, rfl⟩
    exact ⟨hx'.1, hx'.2, hy'.1, hy'.2⟩
  · rintro ⟨h1, h2, h3, h4⟩
    exact ⟨y, ⟨h3, h4⟩, x, ⟨h1, h2⟩, rfl, rfl⟩

/-- The four edges of a valid rectangle are painted (R106). -/
theorem rectFill_paints (es : List Line) (on : Bool) (s : State) (hc : admitted s.cfg = true)
    (h : es.all (lineOK s.cfg) = true) :
    ∃ t, forEach (fun e => lineFill e on) es s = .go t ∧ Paints (fun x y => ∃ e ∈ es, inLine s.cfg e x y) on s t := by
  refine forEach_paints _ (fun e => inLine s.cfg e) on s.cfg es s rfl ?_
  intro e he t ht
  have := lineFill_paints e on t (ht ▸ hc) (by rw [ht]; exact List.all_eq_true.mp h e he)
  rwa [ht] at this

/-! ### Glyphs -/

/-- The pixels a glyph sets at `(x, y)` (R124). -/
def inGlyph (f : Font) (g : Nat) (x y px py : Int) : Prop :=
  ∃ r col : Nat, r < f.height.toNat ∧ col < f.width.toNat ∧ glyphBit (glyphRow f g r) col = true
    ∧ px = x + (col : Int) ∧ py = y + (r : Int)

/-- `DrawGlyph` of a glyph the font has turns its set bits on (R124). -/
theorem drawGlyph_paints (f : Font) (x y : Int) (c : Byte) (g : Nat) (s : State) (hc : admitted s.cfg = true)
    (hg : glyphIndex f c = .ok g) : ∃ t, drawGlyph f x y c s = .go t ∧ Paints (inGlyph f g x y) true s t := by
  obtain ⟨t, ht, hp⟩ := forEach_paints
    (fun r => forEach (fun col => fun t =>
        if glyphBit (glyphRow f g r) col then clippedPut (x + (col : Int)) (y + (r : Int)) true t else .go t)
      (List.range f.width.toNat))
    (fun (r : Nat) px py => ∃ col ∈ List.range f.width.toNat, glyphBit (glyphRow f g r) col = true
      ∧ px = x + (col : Int) ∧ py = y + (r : Int)) true s.cfg (List.range f.height.toNat) s rfl (by
      intro r _ t ht
      refine forEach_paints _ (fun (col : Nat) px py => glyphBit (glyphRow f g r) col = true
        ∧ px = x + (col : Int) ∧ py = y + (r : Int)) true s.cfg _ t ht ?_
      intro col _ u hu
      by_cases hb : glyphBit (glyphRow f g r) col = true
      · simp only [hb, if_true, true_and]
        exact clippedPut_paints _ _ true u (hu ▸ hc)
      · simp only [hb, Bool.false_eq_true, if_false]
        exact ⟨u, rfl, (Paints.nothing true u).congr fun _ _ _ => by simp⟩)
  refine ⟨t, by simpa only [drawGlyph, hg] using ht, hp.congr ?_⟩
  intro px py _
  simp only [inGlyph, List.mem_range]
  constructor
  · rintro ⟨r, hr, col, hcol, hb, h1, h2⟩
    exact ⟨r, col, hr, hcol, hb, h1, h2⟩
  · rintro ⟨r, col, hr, hcol, hb, h1, h2⟩
    exact ⟨r, hr, col, hcol, hb, h1, h2⟩

theorem drawGlyph_missing (f : Font) (x y : Int) (c : Byte) (r : FaultReason) (s : State)
    (hg : glyphIndex f c = .error r) : drawGlyph f x y c s = .fault r s := by
  simp only [drawGlyph, hg]

/-- DRAWTEXT's loop only turns pixels on, whether it ends or a glyph is missing (R126, R175). -/
theorem textLoop_paints (f : Font) (x : Int) (c : Config) (hc : admitted c = true) (text : List Byte) : ∀ (cx cy : Int) (s : State), s.cfg = c →
    (∃ t S, textLoop f x text cx cy s = .go t ∧ Paints S true s t) ∨ (∃ t S, textLoop f x text cx cy s = .fault .missingFallbackGlyph t ∧ Paints S true s t) := by
  induction text with
  | nil => intro cx cy s hs; exact .inl ⟨s, _, rfl, (Paints.nothing true s)⟩
  | cons a l ih =>
    intro cx cy s hs
    simp only [textLoop]
    by_cases h13 : a = 13#8
    · simp only [if_pos h13]; exact ih _ _ _ hs
    by_cases h10 : a = 10#8
    · simp only [if_neg h13, if_pos h10]; exact ih _ _ _ hs
    simp only [if_neg h13, if_neg h10]
    generalize wrapAt s.cfg f x cx cy = p
    split
    · exact .inl ⟨s, _, rfl, (Paints.nothing true s)⟩
    · cases hg : glyphIndex f a with
      | error r =>
        rw [drawGlyph_missing _ _ _ _ _ _ hg]
        refine .inr ⟨s, _, ?_, Paints.nothing true s⟩
        simp only [glyphIndex] at hg
        split at hg
        · cases hg
        · split at hg
          · cases hg
          · cases hg; rfl
      | ok g =>
        obtain ⟨t, ht, hp⟩ := drawGlyph_paints f p.1 p.2 a g s (hs ▸ hc) hg
        rw [ht]
        rcases ih (p.1 + f.width + 1) p.2 t (hp.cfg_eq.trans hs) with ⟨u, S, hu, hq⟩ | ⟨u, S, hu, hq⟩
        · exact .inl ⟨u, _, hu, hp.trans hq⟩
        · exact .inr ⟨u, _, hu, hp.trans hq⟩

/-! ### The frame of any drawing, in every state -/

/-- Where a drawing stands. -/
def Flow.state : Flow → State
  | .go s => s
  | .fault _ s => s

/-- A loop changes only what its body changes. -/
theorem forEach_onlyFb {α : Type} (f : α → State → Flow) (l : List α) (s : State)
    (h : ∀ a t, (f a t).state = { t with fb := (f a t).state.fb }) :
    (forEach f l s).state = { s with fb := (forEach f l s).state.fb } := by
  induction l generalizing s with
  | nil => rfl
  | cons a l ih =>
    have ha := h a s
    simp only [forEach]
    split
    · rename_i t ht
      rw [ht] at ha
      simp only [Flow.state] at ha
      rw [ih t, ha]
    · rename_i r t ht
      rw [ht] at ha
      exact ha

theorem pixelPut_onlyFb (x y : Int) (on : Bool) (s : State) :
    (pixelPut x y on s).state = { s with fb := (pixelPut x y on s).state.fb } := by
  unfold pixelPut memRead memWrite
  split <;> (try split) <;> rfl

theorem clippedPut_onlyFb (x y : Int) (on : Bool) (s : State) :
    (clippedPut x y on s).state = { s with fb := (clippedPut x y on s).state.fb } := by
  unfold clippedPut
  split
  · exact pixelPut_onlyFb x y on s
  · rfl

theorem lineFill_onlyFb (l : Line) (on : Bool) (s : State) :
    (lineFill l on s).state = { s with fb := (lineFill l on s).state.fb } :=
  forEach_onlyFb _ _ _ fun _ t => forEach_onlyFb _ _ t fun _ u => pixelPut_onlyFb _ _ _ u

theorem drawGlyph_onlyFb (f : Font) (x y : Int) (c : Byte) (s : State) :
    (drawGlyph f x y c s).state = { s with fb := (drawGlyph f x y c s).state.fb } := by
  unfold drawGlyph
  split
  · rfl
  · refine forEach_onlyFb _ _ _ fun _ t => forEach_onlyFb _ _ t fun _ u => ?_
    split
    · exact clippedPut_onlyFb _ _ _ u
    · rfl

theorem textLoop_onlyFb (f : Font) (x : Int) (l : List Byte) (cx cy : Int) (s : State) :
    (textLoop f x l cx cy s).state = { s with fb := (textLoop f x l cx cy s).state.fb } := by
  induction l generalizing cx cy s with
  | nil => rfl
  | cons c cs ih =>
    rw [textLoop]
    split
    · exact ih _ _ _
    · split
      · exact ih _ _ _
      · dsimp only
        generalize wrapAt s.cfg f x cx cy = p
        split
        · rfl
        · have hd := drawGlyph_onlyFb f p.1 p.2 c s
          split
          · rename_i r t ht
            rw [ht] at hd
            exact hd
          · rename_i t ht
            rw [ht] at hd
            simp only [Flow.state] at hd
            rw [ih _ _ t, hd]

end Sys2Proof.Machine
end

