-- ==== Sys2Proof/Laws/Resume.lean ====
section
/-! SUPPORT. The laws of a suspended operation: what its queue holds while a transfer is pending, that running that
queue on from the transfer's Ok is what running the operation with the answers at hand is, and that steps run a queue. -/

namespace Sys2Proof.Machine

/-! ### What is left in the queue -/

theorem framesOf_transfer (c : Config) (f : Instr) (h : laneOf f = .transfer) : framesOf c f = [f] := by
  simp [framesOf, h]

theorem scrollAfter_transfer (op : Option TxOp) (f : Instr) (h : laneOf f = .transfer) : scrollAfter op f = [] := by
  cases f <;> first | (solve | cases h) | (cases op <;> rfl)

theorem queueFrames_transfers (c : Config) (fs : List Instr) (h : ∀ f ∈ fs, laneOf f = .transfer) :
    queueFrames c (fs.map .cmd) = fs := by
  induction fs with
  | nil => rfl
  | cons f fs ih =>
    rw [List.map_cons, queueFrames_cons, ih fun g hg => h g (List.mem_cons_of_mem _ hg)]
    simp [itemFrames, framesOf_transfer c f (h f (List.mem_cons_self ..))]

/-- An assignment: an item that sends nothing. -/
def isAssign : TxItem → Bool
  | .cmd _ => false
  | .setFsm _ => true
  | .setScroll _ => true

theorem queueFrames_assigns (c : Config) (l : List TxItem) (h : ∀ x ∈ l, isAssign x = true) : queueFrames c l = [] := by
  induction l with
  | nil => rfl
  | cons a l ih =>
    rw [queueFrames_cons, ih fun x hx => h x (List.mem_cons_of_mem _ hx)]
    cases a with
    | cmd i => exact absurd (h _ (List.mem_cons_self ..)) (by simp [isAssign])
    | setFsm f => rfl
    | setScroll d => rfl

theorem scrollAfter_assigns (op : Option TxOp) (i : Instr) : ∀ x ∈ scrollAfter op i, isAssign x = true := by
  unfold scrollAfter
  split <;> simp [isAssign]

theorem itemAfter_assigns (op : Option TxOp) (it : TxItem) : ∀ x ∈ itemAfter op it, isAssign x = true := by
  cases it with
  | cmd i => exact scrollAfter_assigns op i
  | setFsm f => simp [itemAfter, isAssign]
  | setScroll d => simp [itemAfter, isAssign]

theorem itemFrames_lane (c : Config) (it : TxItem) : ∀ f ∈ itemFrames c it, laneOf f = .transfer := by
  cases it with
  | cmd i => exact fun f h => framesOf_lane c i f h
  | setFsm f => simp [itemFrames]
  | setScroll d => simp [itemFrames]

/-- While transfer `j` is pending, the queue holds exactly the transfers after it. -/
theorem leftAt_frames (c : Config) (op : Option TxOp) (q : List TxItem) (j : Nat) (hj : j < (queueFrames c q).length) :
    queueFrames c (leftAt c op q j) = (queueFrames c q).drop (j + 1) := by
  induction q generalizing j with
  | nil => simp [queueFrames] at hj
  | cons it q ih =>
    rw [queueFrames_cons] at hj ⊢
    rw [List.length_append] at hj
    unfold leftAt
    split
    · rename_i hlt
      rw [queueFrames_append, queueFrames_append, queueFrames_assigns c _ (itemAfter_assigns op it), List.nil_append,
        queueFrames_transfers c _ fun f hf => itemFrames_lane c it f (List.mem_of_mem_drop hf),
        List.drop_append_of_le_length (by omega)]
    · rename_i hge
      rw [ih _ (by omega), List.drop_append,
        List.drop_eq_nil_of_le (as := itemFrames c it) (by omega), List.nil_append]
      congr 1
      omega

/-- What is queued while a transfer is pending are the operation's items, transfers of one, and assignments. -/
theorem leftAt_mem (c : Config) (op : Option TxOp) (q : List TxItem) (j : Nat) :
    ∀ x ∈ leftAt c op q j, x ∈ q ∨ isAssign x = true ∨ ∃ f, x = .cmd f ∧ laneOf f = .transfer := by
  induction q generalizing j with
  | nil => simp [leftAt]
  | cons it q ih =>
    intro x hx
    unfold leftAt at hx
    split at hx
    · rw [List.mem_append, List.mem_append] at hx
      rcases hx with hx | hx | hx
      · obtain ⟨f, hf, rfl⟩ := List.mem_map.mp hx
        exact .inr (.inr ⟨f, rfl, itemFrames_lane c it f (List.mem_of_mem_drop hf)⟩)
      · exact .inr (.inl (itemAfter_assigns op it x hx))
      · exact .inl (List.mem_cons_of_mem _ hx)
    · exact (ih _ x hx).imp_left (List.mem_cons_of_mem _)

/-! ### Running on -/

/-- What the queue's field held before does not matter to running a queue. -/
theorem runQueue_txq (q l : List TxItem) (s : State) : runQueue q { s with txq := l } = runQueue q s := by
  cases q <;> rfl

/-- Where a statement stands, the rest run on from where it completed. -/
def andThen (rest : List TxItem) : Sent → State
  | .done t => runQueue rest t
  | .waiting t => t
  | .failed t => t

theorem runQueue_cons (it : TxItem) (q : List TxItem) (s : State) :
    runQueue (it :: q) s = andThen q (runItem it { s with txq := q }) := by
  rw [runQueue]
  cases runItem it { s with txq := q } <;> rfl

theorem runQueue_assigns (l rest : List TxItem) (s : State) (h : ∀ x ∈ l, isAssign x = true) :
    runQueue (l ++ rest) s = runQueue rest (l.foldl (fun t it => assign it t) s) := by
  induction l generalizing s with
  | nil => rfl
  | cons a l ih =>
    have hl := fun x hx => h x (List.mem_cons_of_mem _ hx)
    rw [List.cons_append, runQueue_cons, List.foldl_cons, ← ih _ hl]
    cases a with
    | cmd i => exact absurd (h _ (List.mem_cons_self ..)) (by simp [isAssign])
    | setFsm f => exact runQueue_txq (l ++ rest) (l ++ rest) { s with fsm := f }
    | setScroll d => exact runQueue_txq (l ++ rest) (l ++ rest) { s with scroll := d }

/-- Transfers, assignments and a rest in the queue run as the statement they are left of runs, and then the rest. -/
theorem runQueue_frames (fs : List Instr) (l rest : List TxItem) (s : State) (hf : ∀ f ∈ fs, laneOf f = .transfer)
    (hl : ∀ x ∈ l, isAssign x = true) :
    runQueue (fs.map .cmd ++ (l ++ rest)) s = andThen rest (sendFrames fs l { s with txq := rest }) := by
  induction fs generalizing s with
  | nil =>
    rw [List.map_nil, List.nil_append, runQueue_assigns l rest s hl, sendFrames, andThen, foldl_assign, foldl_assign]
    exact (runQueue_txq rest rest { s with fsm := l.foldl fsmOf s.fsm, scroll := l.foldl scrollOf s.scroll }).symm
  | cons f fs ih =>
    have hfl := hf f (List.mem_cons_self ..)
    rw [List.map_cons, List.cons_append, runQueue_cons, runItem, transmit, framesOf_transfer _ f hfl,
      scrollAfter_transfer _ f hfl, sendFrames, sendFrames]
    obtain ha | ⟨a, as, ha⟩ : s.answers = [] ∨ ∃ a as, s.answers = a :: as := by cases s.answers <;> simp
    · rw [transfer_none _ { s with txq := fs.map .cmd ++ (l ++ rest) } ha, transfer_none _ { s with txq := rest } ha]
      rfl
    · cases a with
      | ok =>
        rw [transfer_ok _ { s with txq := fs.map .cmd ++ (l ++ rest) } as ha, transfer_ok _ { s with txq := rest } as ha]
        refine Eq.trans ?_ (ih (s := { s with
          tlog := s.tlog ++ [entry s.cfg (transferBytes f) .ok], busy := false, seq := s.seq + 1, answers := as })
          fun g hg => hf g (List.mem_cons_of_mem _ hg))
        exact runQueue_txq _ _ { s with
          tlog := s.tlog ++ [entry s.cfg (transferBytes f) .ok], busy := false, seq := s.seq + 1, answers := as }
      | err k =>
        rw [transfer_err _ { s with txq := fs.map .cmd ++ (l ++ rest) } k as ha,
          transfer_err _ { s with txq := rest } k as ha]
        rfl

theorem sendFrames_split (fs gs : List Instr) (l : List TxItem) (s : State) (as : List Answer)
    (h : s.answers = List.replicate fs.length .ok ++ as) :
    sendFrames (fs ++ gs) l s = sendFrames gs l (sentOk fs [] as s) := by
  induction fs generalizing s with
  | nil =>
    rw [List.nil_append, sentOk_nothing s as (by simpa using h)]
  | cons f fs ih =>
    rw [List.length_cons, List.replicate_succ, List.cons_append] at h
    rw [List.cons_append, sendFrames, transfer_ok _ _ _ h]
    simp only
    rw [ih _ rfl]
    simp [sentOk, Nat.add_assoc, Nat.add_comm 1]

theorem runItem_frames (it : TxItem) (s : State) : runItem it s = sendFrames (itemFrames s.cfg it) (itemAfter s.op it) s := by
  cases it <;> rfl

/-- An operation that waits at transfer `j` goes on, after its Ok, as it would have gone on with the answer at hand. -/
theorem runQueue_resume (q : List TxItem) (s : State) (j : Nat) (as : List Answer)
    (hj : j < (queueFrames s.cfg q).length) (h : s.answers = List.replicate (j + 1) .ok ++ as) :
    runQueue q s = runQueue (leftAt s.cfg s.op q j)
      (sentOk ((queueFrames s.cfg q).take (j + 1)) (doneBefore s.cfg s.op q j) as s) := by
  induction q generalizing s j with
  | nil => simp [queueFrames] at hj
  | cons it q ih =>
    rw [queueFrames_cons] at hj ⊢
    rw [runQueue_cons]
    by_cases hlt : j < (itemFrames s.cfg it).length
    · simp only [leftAt, doneBefore, if_pos hlt]
      rw [List.take_append_of_le_length (by omega), runItem_frames,
        runQueue_frames _ _ _ _ (fun f hf => itemFrames_lane _ it f (List.mem_of_mem_drop hf)) (itemAfter_assigns _ it)]
      refine congrArg (andThen q) ?_
      have hs := sendFrames_split ((itemFrames s.cfg it).take (j + 1)) ((itemFrames s.cfg it).drop (j + 1))
        (itemAfter s.op it) { s with txq := q } as
        (by rw [List.length_take, Nat.min_eq_left (by omega)]; exact h)
      rw [List.take_append_drop] at hs
      exact hs
    · have hge : (itemFrames s.cfg it).length ≤ j := by omega
      obtain ⟨d, rfl⟩ := Nat.exists_eq_add_of_le hge
      rw [Nat.add_assoc, List.replicate_add, List.append_assoc] at h
      rw [List.length_append] at hj
      rw [runItem_ok it { s with txq := q } (List.replicate (d + 1) .ok ++ as) h]
      simp only [leftAt, doneBefore, if_neg hlt, Nat.add_sub_cancel_left, andThen]
      rw [Nat.add_assoc, take_length_add_append]
      refine (ih (sentOk _ _ _ { s with txq := q }) d (by exact Nat.lt_of_add_lt_add_left hj) rfl).trans ?_
      have e := sentOk_sentOk (itemFrames s.cfg it) ((queueFrames s.cfg q).take (d + 1)) (itemAfter s.op it)
        (doneBefore s.cfg s.op q d) (List.replicate (d + 1) .ok ++ as) as { s with txq := q }
      refine (congrArg (runQueue (leftAt s.cfg s.op q d)) e).trans ?_
      exact runQueue_txq _ q (sentOk (itemFrames s.cfg it ++ (queueFrames s.cfg q).take (d + 1))
        (itemAfter s.op it ++ doneBefore s.cfg s.op q d) as s)

/-! ### The answer to a pending transfer -/

/-- Ok completes the pending transfer. -/
theorem takeAnswer_ok_waitAt (fs : List Instr) (f : Instr) (l : List TxItem) (j : Nat) (q : List TxItem)
    (as : List Answer) (s : State) (hj : j = fs.length) :
    takeAnswer .ok { waitAt fs f l j q s with answers := as } = .done { sentOk (fs ++ [f]) l as s with txq := q } := by
  subst hj
  simp [takeAnswer, waitAt, sentOk, ← List.append_assoc, entry]
  omega

/-- An error ends the operation at the pending transfer. -/
theorem takeAnswer_err_waitAt (fs : List Instr) (f : Instr) (l : List TxItem) (j : Nat) (q : List TxItem) (k : Kind)
    (as : List Answer) (s : State) :
    takeAnswer (.err k) { waitAt fs f l j q s with answers := as } = .failed (errAt fs f l j k as s) := by
  simp [takeAnswer, waitAt, errAt, raise, setStatus, opCode, ← List.append_assoc, entry]

/-! ### Steps -/

theorem run_succ (n : Nat) (s t : State) (h : step s = .next t) :
    Sys2Proof.core.run (n + 1) s = Sys2Proof.core.run n t := by
  have h' : Sys2Proof.core.step s = .next t := h
  simp only [Host.Core.run, h']

/-- The step of an executing operation with no transfer pending runs its next item. -/
theorem step_item (s : State) (o : TxOp) (it : TxItem) (q : List TxItem) (hf : s.faults = []) (ho : s.op = some o)
    (hr : ∀ r ∈ s.requests.head?, r.overlaps = false) (hb : s.busy = false) (hq : s.txq = it :: q)
    (hi : ∀ i, it = .cmd i → laneOf i ≠ .request) : step s = .next (runItem it { s with txq := q }).state := by
  rw [step, fetch_executing s o hf ho hr]
  cases it with
  | cmd i =>
    simp only [fetchItem, hb, hq, Bool.false_eq_true, if_false]
    exact exec_transmit i _ (hi i rfl)
  | setFsm f => simp [fetchItem, hb, hq, runItem, Sent.state]
  | setScroll d => simp [fetchItem, hb, hq, runItem, Sent.state]

/-- The step of an executing operation with a transfer pending takes the transport's answer. -/
theorem step_answer (s : State) (o : TxOp) (a : Answer) (as : List Answer) (hf : s.faults = []) (ho : s.op = some o)
    (hr : ∀ r ∈ s.requests.head?, r.overlaps = false) (hb : s.busy = true) (ha : s.answers = a :: as) :
    step s = .next (takeAnswer a { s with answers := as }).state := by
  rw [step, fetch_executing s o hf ho hr]
  cases a <;> simp [fetchItem, hb, awaitAnswer, ha, takeAnswer, Sent.state]

/-- Steps run a queue to where running it in one go comes, whatever the answers. -/
theorem run_queue (q : List TxItem) (s : State) (o : TxOp) (hf : s.faults = []) (ho : s.op = some o)
    (hr : ∀ r ∈ s.requests.head?, r.overlaps = false) (hb : s.busy = false) (hq : s.txq = q)
    (hi : ∀ i, .cmd i ∈ q → laneOf i ≠ .request) : ∃ n, Sys2Proof.core.run n s = .next (runQueue q s) := by
  induction q generalizing s with
  | nil =>
    refine ⟨1, run_succ 0 s _ ?_⟩
    rw [step, fetch_executing s o hf ho hr]
    simp [fetchItem, hb, hq, runQueue]
  | cons it q ih =>
    have hs := step_item s o it q hf ho hr hb hq fun i h => hi i (h ▸ List.mem_cons_self ..)
    rw [runQueue_cons]
    rcases answers_cases (itemFrames s.cfg it).length s.answers with ⟨bs, ha⟩ | ⟨j, k, bs, hj, ha⟩ | ⟨j, hj, ha⟩
    · have e := runItem_ok it { s with txq := q } bs ha
      rw [e] at hs ⊢
      obtain ⟨n, hn⟩ := ih (sentOk (itemFrames s.cfg it) (itemAfter s.op it) bs { s with txq := q }) hf ho hr
        (by simp [sentOk, hb]) rfl fun i h => hi i (List.mem_cons_of_mem _ h)
      exact ⟨n + 1, (run_succ n s _ hs).trans hn⟩
    · have e := runItem_err it { s with txq := q } j k bs _ (List.getElem?_eq_getElem hj) ha
      rw [e] at hs ⊢
      exact ⟨1, run_succ 0 s _ hs⟩
    · have e := runItem_wait it { s with txq := q } j _ (List.getElem?_eq_getElem hj) ha
      rw [e] at hs ⊢
      exact ⟨1, run_succ 0 s _ hs⟩

/-- A queue that waits at transfer `j` comes, given any answers, by steps to where it comes with them at hand. -/
theorem run_resumed (q : List TxItem) (s : State) (o : TxOp) (j : Nat) (as : List Answer)
    (hj : j < (queueFrames s.cfg q).length) (ha : s.answers = List.replicate j .ok) (hf : s.faults = [])
    (ho : s.op = some o) (hr : ∀ r ∈ s.requests.head?, r.overlaps = false) (hi : ∀ i, .cmd i ∈ q → laneOf i ≠ .request) :
    ∃ n, Sys2Proof.core.run n { runQueue q s with answers := as }
      = .next (runQueue q { s with answers := s.answers ++ as }) := by
  have hget := List.getElem?_eq_getElem hj
  have hw := runQueue_wait q s j _ hget ha
  have hlen : j = ((queueFrames s.cfg q).take j).length := by rw [List.length_take]; omega
  cases as with
  | nil =>
    refine ⟨0, congrArg Host.Outcome.next ?_⟩
    rw [List.append_nil, hw]
    rfl
  | cons a as =>
    have hstep : step { runQueue q s with answers := a :: as }
        = .next (takeAnswer a { runQueue q s with answers := as }).state := by
      rw [hw]
      exact step_answer { waitAt _ _ _ _ _ s with answers := a :: as } o a as hf ho hr rfl rfl
    cases a with
    | err k =>
      refine ⟨1, (run_succ 0 _ _ hstep).trans (congrArg Host.Outcome.next ?_)⟩
      rw [hw, takeAnswer_err_waitAt]
      exact (runQueue_err q { s with answers := s.answers ++ .err k :: as } j k as _ hget (by rw [ha])).symm
    | ok =>
      rw [hw, takeAnswer_ok_waitAt _ _ _ _ _ _ _ hlen] at hstep
      rw [hw]
      have hq := runQueue_resume q { s with answers := s.answers ++ .ok :: as } j as hj
        (by rw [ha, List.replicate_succ', List.append_assoc, List.singleton_append])
      have htake : (queueFrames s.cfg q).take j ++ [(queueFrames s.cfg q)[j]] = (queueFrames s.cfg q).take (j + 1) := by
        rw [List.take_add_one, hget]
        rfl
      rw [htake] at hstep
      have hne : ((queueFrames s.cfg q).take (j + 1)).isEmpty = false := by
        rw [← htake]
        cases (queueFrames s.cfg q).take j <;> rfl
      obtain ⟨n, hn⟩ := run_queue (leftAt s.cfg s.op q j)
        { sentOk ((queueFrames s.cfg q).take (j + 1)) (doneBefore s.cfg s.op q j) as s with
          txq := leftAt s.cfg s.op q j } o hf ho hr (by
          show (s.busy && ((queueFrames s.cfg q).take (j + 1)).isEmpty) = false
          rw [hne, Bool.and_false])
        rfl (by
          intro i hmem
          rcases leftAt_mem _ _ _ _ _ hmem with h | h | ⟨f, h, hl⟩
          · exact hi i h
          · cases h
          · cases h
            rw [hl]
            decide)
      refine ⟨n + 1, (run_succ n _ _ hstep).trans (hn.trans (congrArg Host.Outcome.next ?_))⟩
      rw [runQueue_txq]
      exact hq.symm

end Sys2Proof.Machine
end

