-- ==== Sys2Proof/Machine/Assembler.lean ====
section
/-! DEFINITION. The textual syntax of host operations (30_encoding.md R94): one operation a line. The block never sees
text: this is how a program as the spec writes it becomes the messages of the request port (70_reset_and_hazards.md
R194). What R94 leaves open is log 26. -/

namespace Sys2Proof.Machine

/-- The pieces of a line. -/
inductive Token where
  | word (cs : List Char)
  | text (t : List Byte)
  | char (c : Byte)
  | mark (c : Char)
  deriving DecidableEq, Repr

/-- Where the scan of a line stands: in a word, in a double-quoted string, after its backslash, in a character
literal, after it. What has been read of the piece is held reversed. -/
inductive Scan where
  | plain (word : List Char)
  | quoted (t : List Byte)
  | escaped (t : List Byte)
  | charOpen
  | charClose (c : Byte)
  deriving DecidableEq, Repr

/-- The code of an ASCII character. -/
def asciiCode (c : Char) : Option Byte := if c.toNat < 128 then some (BitVec.ofNat 8 c.toNat) else none

/-- A finished word before the pieces that follow it. -/
def endWord (word : List Char) (ts : List Token) : List Token := if word.isEmpty then ts else .word word.reverse :: ts

/-- A character that is a piece by itself. -/
def isMark (c : Char) : Bool := c == ',' || c == '(' || c == ')' || c == '[' || c == ']'

/-- The escapes of a string (R94): `\n` is code 10, `\r` code 13, then the backslash and the quote. -/
def escapeCode (c : Char) : Option Byte :=
  if c == 'n' then some 10#8
  else if c == 'r' then some 13#8
  else if c == '\\' || c == '"' then asciiCode c
  else none

/-- The pieces of a line, up to its comment (R94). None where a literal is not closed or a character has no code. -/
def scan : Scan → List Char → Option (List Token)
  | .plain w, [] => some (endWord w [])
  | .plain w, c :: cs =>
    if c == ';' then some (endWord w [])
    else if c == ' ' || c == '\t' || c == '\r' then (scan (.plain []) cs).map (endWord w)
    else if isMark c then (scan (.plain []) cs).map (fun ts => endWord w (.mark c :: ts))
    else if c == '"' then (scan (.quoted []) cs).map (endWord w)
    else if c == '\'' then (scan .charOpen cs).map (endWord w)
    else scan (.plain (c :: w)) cs
  | .quoted t, c :: cs =>
    if c == '"' then (scan (.plain []) cs).map (.text t.reverse :: ·)
    else if c == '\\' then scan (.escaped t) cs
    else
      match asciiCode c with
      | some b => scan (.quoted (b :: t)) cs
      | none => none
  | .escaped t, c :: cs =>
    match escapeCode c with
    | some b => scan (.quoted (b :: t)) cs
    | none => none
  | .charOpen, c :: cs =>
    match asciiCode c with
    | some b => scan (.charClose b) cs
    | none => none
  | .charClose b, c :: cs => if c == '\'' then (scan (.plain []) cs).map (.char b :: ·) else none
  | .quoted _, [] => none
  | .escaped _, [] => none
  | .charOpen, [] => none
  | .charClose _, [] => none

/-- The value of a digit. -/
def digit (c : Char) : Option Nat :=
  let n := c.toNat
  if 48 ≤ n ∧ n ≤ 57 then some (n - 48)
  else if 97 ≤ n ∧ n ≤ 102 then some (n - 87)
  else if 65 ≤ n ∧ n ≤ 70 then some (n - 55)
  else none

/-- The value of digits in a base, after the value of those before them. -/
def digits (base : Nat) : Nat → List Char → Option Nat
  | acc, [] => some acc
  | acc, c :: cs =>
    match digit c with
    | some d => if d < base then digits base (base * acc + d) cs else none
    | none => none

/-- An integer (R94): decimal, optionally negative, or `0x` hexadecimal. -/
def integer : List Char → Option Int
  | [] => none
  | ['-'] => none
  | '-' :: cs => (digits 10 0 cs).map (fun n => -(n : Int))
  | ['0', 'x'] => none
  | '0' :: 'x' :: cs => (digits 16 0 cs).map (fun n => (n : Int))
  | cs => (digits 10 0 cs).map (fun n => (n : Int))

/-- An integer operand. -/
def operandInt : List Token → Option (Int × List Token)
  | .word w :: ts => (integer w).map (fun n => (n, ts))
  | _ => none

/-- A `BOOL` operand (R94): `on` or `off`, `true` or `false`, `1` or `0`. -/
def operandBool : List Token → Option (Bool × List Token)
  | .word w :: ts =>
    if w = ['o', 'n'] ∨ w = ['t', 'r', 'u', 'e'] ∨ w = ['1'] then some (true, ts)
    else if w = ['o', 'f', 'f'] ∨ w = ['f', 'a', 'l', 's', 'e'] ∨ w = ['0'] then some (false, ts)
    else none
  | _ => none

/-- A `CHR` operand: a quoted character, or an integer in 0..255. -/
def operandChar : List Token → Option (Byte × List Token)
  | .char c :: ts => some (c, ts)
  | .word w :: ts =>
    match integer w with
    | some n => if 0 ≤ n ∧ n < 256 then some (BitVec.ofNat 8 n.toNat, ts) else none
    | none => none
  | _ => none

/-- A `STR` operand. -/
def operandText : List Token → Option (List Byte × List Token)
  | .text t :: ts => some (t, ts)
  | _ => none

/-- The separator of two operands. -/
def comma : List Token → Option (List Token)
  | .mark c :: ts => if c == ',' then some ts else none
  | _ => none

/-- The words of a font's table, up to the closing bracket. -/
def operandWords : List Token → Option (List Word × List Token)
  | .mark ']' :: ts => some ([], ts)
  | .word w :: .mark ',' :: ts =>
    match integer w, operandWords ts with
    | some n, some (l, rest) => if 0 ≤ n ∧ n < 2 ^ 32 ∧ l ≠ [] then some (BitVec.ofNat 32 n.toNat :: l, rest) else none
    | _, _ => none
  | .word w :: .mark ']' :: ts =>
    match integer w with
    | some n => if 0 ≤ n ∧ n < 2 ^ 32 then some ([BitVec.ofNat 32 n.toNat], ts) else none
    | none => none
  | _ => none

/-- A `FONTREF` operand (R94): `null`, or `font(width, height, [w0, w1, ...])`. -/
def operandFont : List Token → Option (Option Font × List Token)
  | .word ['n', 'u', 'l', 'l'] :: ts => some (none, ts)
  | .word ['f', 'o', 'n', 't'] :: .mark '(' :: .word a :: .mark ',' :: .word b :: .mark ',' :: .mark '[' :: ts =>
    match integer a, integer b, operandWords ts with
    | some w, some h, some (l, .mark ')' :: rest) => some (some ⟨w, h, l⟩, rest)
    | _, _, _ => none
  | _ => none

/-- Two integers with their comma. -/
def operandPair (ts : List Token) : Option ((Int × Int) × List Token) := do
  let (x, ts) ← operandInt ts
  let ts ← comma ts
  let (y, ts) ← operandInt ts
  return ((x, y), ts)

/-- Two integers and one more operand. -/
def operandsAt {α : Type} (last : List Token → Option (α × List Token)) (ts : List Token) :
    Option ((Int × Int × α) × List Token) := do
  let ((x, y), ts) ← operandPair ts
  let ts ← comma ts
  let (a, ts) ← last ts
  return ((x, y, a), ts)

/-- Four integers and a Boolean. -/
def operandsBox (ts : List Token) : Option ((Int × Int × Int × Int × Bool) × List Token) := do
  let ((x, y), ts) ← operandPair ts
  let ts ← comma ts
  let ((z, w, on), ts) ← operandsAt operandBool ts
  return ((x, y, z, w, on), ts)

/-- The operation of a mnemonic and its operands, in R60's order, with what is left of the line. -/
def parseOperation (name : List Char) (ts : List Token) : Option (Instr × List Token) :=
  if name = ['P', 'R', 'E', 'P', 'A', 'R', 'E'] then some (.prepare, ts)
  else if name = ['S', 'E', 'T', 'P', 'I', 'X', 'E', 'L'] then
    (operandsAt operandBool ts).map (fun p => (.setPixel p.1.1 p.1.2.1 p.1.2.2, p.2))
  else if name = ['D', 'R', 'A', 'W', 'L', 'I', 'N', 'E'] then
    (operandsBox ts).map (fun p => (.drawLine p.1.1 p.1.2.1 p.1.2.2.1 p.1.2.2.2.1 p.1.2.2.2.2, p.2))
  else if name = ['D', 'R', 'A', 'W', 'R', 'E', 'C', 'T'] then
    (operandsBox ts).map (fun p => (.drawRect p.1.1 p.1.2.1 p.1.2.2.1 p.1.2.2.2.1 p.1.2.2.2.2, p.2))
  else if name = ['S', 'E', 'T', 'F', 'O', 'N', 'T'] then (operandFont ts).map (fun p => (.setFont p.1, p.2))
  else if name = ['D', 'R', 'A', 'W', 'C', 'H', 'A', 'R'] then
    (operandsAt operandChar ts).map (fun p => (.drawChar p.1.1 p.1.2.1 p.1.2.2, p.2))
  else if name = ['D', 'R', 'A', 'W', 'T', 'E', 'X', 'T'] then
    (operandsAt operandText ts).map (fun p => (.drawText p.1.1 p.1.2.1 p.1.2.2, p.2))
  else if name = ['I', 'N', 'I', 'T', 'I', 'A', 'L', 'I', 'Z', 'E'] then some (.initialise, ts)
  else if name = ['W', 'R', 'I', 'T', 'E'] then some (.write, ts)
  else if name = ['C', 'L', 'E', 'A', 'R', 'S', 'C', 'R', 'E', 'E', 'N'] then some (.clearScreen, ts)
  else if name = ['S', 'T', 'A', 'R', 'T', 'S', 'C', 'R', 'O', 'L', 'L'] then
    (operandBool ts).map (fun p => (.startScroll p.1, p.2))
  else if name = ['S', 'T', 'O', 'P', 'S', 'C', 'R', 'O', 'L', 'L'] then some (.stopScroll, ts)
  else none

/-- One line (R94): at most one operation. The outer none is a line that is no operation's; the inner none an empty
line or a comment. An operand outside its type's range (R61) is no operation's. -/
def assembleLine (cs : List Char) : Option (Option Instr) :=
  match scan (.plain []) cs with
  | some [] => some none
  | some (.word name :: ts) =>
    match parseOperation name ts with
    | some (i, []) => if wellFormed i then some (some i) else none
    | _ => none
  | _ => none

/-- A program: its lines' operations in order (R97), or none if some line is no operation's. -/
def assemble : List (List Char) → Option (List Instr)
  | [] => some []
  | l :: ls =>
    match assembleLine l, assemble ls with
    | some (some i), some is => some (i :: is)
    | some none, some is => some is
    | _, _ => none

/-- The host's requests of a program, each issued after the one before it has returned (R194). -/
def programRequests (is : List Instr) : List Request := is.map (fun i => ⟨requestBytes i, false⟩)

/-- A block about to run a program: the host has its requests to issue. -/
def withProgram (is : List Instr) (s : State) : State := { s with requests := s.requests ++ programRequests is }

end Sys2Proof.Machine
end

