-- ==== Sys2Proof/Tests/Slice0.lean ====
section
/-! SUPPORT. Tests: ill-formed terms, words written out from the spec's encodings, single steps whose results are the
vectors of 95_test_vectors.md (or hand calculation on a small panel), and a witness for the hypotheses of each statement
that has some. -/

namespace Sys2Proof.Tests

open Sys2Proof.Machine Sys2Proof.Claims

/-! ### Helpers -/

/-- The test font TF of 95_test_vectors.md. -/
def tf : Font where
  width := 2
  height := 2
  table := List.replicate 62 0 ++
    ([0xC0000000, 0xC0000000, 0, 0, 0x80000000, 0x40000000, 0x40000000, 0x80000000] ++ List.replicate 10 0)

/-- A block with font TF and the default command bytes. -/
def params (w h : Nat) (split : CmdSplit) : Config where
  w := w
  h := h
  addr := 0x3C
  busId := 5
  cmdtab := ssd1306Default
  contrast := 0x7F#8
  compins := defaultCompins h
  clkdiv := 0x80#8
  chgpump := 0x14#8
  addrmode := 0x00#8
  split := split
  defaultFont := tf

/-- It, right after construction. -/
def block (w h : Nat) : State := State.fresh (params w h .perCommand) 0

/-- It, with the answers `as`. -/
def told (w h : Nat) (split : CmdSplit) (as : List Answer) : State :=
  { State.fresh (params w h split) 0 with answers := as }

/-- It, with an operation executing and the queue `q`. -/
def executing (q : List TxItem) (as : List Answer) : State := { block 16 8 with op := some .write, txq := q, answers := as }

/-- It, with one request on the port. -/
def asked (bs : List Byte) : State := { block 16 8 with requests := [⟨bs, false⟩] }

/-- The state after an instruction. -/
def after (i : Instr) (s : State) : State :=
  match exec i s with
  | .next t => t
  | .fault _ => s
  | .refused _ => s

/-- The state after a step. -/
def stepped (s : State) : State :=
  match step s with
  | .next t => t
  | .fault _ => s
  | .refused _ => s

/-- The bytes that were handed over. -/
def sent (s : State) : List (List Byte) := s.tlog.map (fun e => e.bytes)

def oks (n : Nat) : List Answer := List.replicate n .ok

/-- Whether a step stops, and how. -/
def stop (s : State) : Option Fault :=
  match step s with
  | .next _ => none
  | .fault f => some f
  | .refused _ => none

/-- A panel of 16x8 with every byte `v`. -/
def filled (v : Byte) : State := { block 16 8 with fb := (List.range 16).map (fun a => (a, v)) }

/-! ### WellFormed: an ill-formed term for each check (R61, R62, R64) -/

theorem test_wellFormed_setPixel : wellFormed (.setPixel 2147483648 0 true) = false
    ∧ wellFormed (.setPixel 0 (-2147483649) true) = false ∧ wellFormed (.setPixel (-2147483648) 2147483647 true) = true := by
  decide

theorem test_wellFormed_drawLine : wellFormed (.drawLine 2147483648 0 0 0 true) = false
    ∧ wellFormed (.drawLine 0 2147483648 0 0 true) = false ∧ wellFormed (.drawLine 0 0 2147483648 0 true) = false
    ∧ wellFormed (.drawLine 0 0 0 2147483648 true) = false := by
  decide

theorem test_wellFormed_drawRect : wellFormed (.drawRect 2147483648 0 0 0 true) = false
    ∧ wellFormed (.drawRect 0 2147483648 0 0 true) = false ∧ wellFormed (.drawRect 0 0 2147483648 0 true) = false
    ∧ wellFormed (.drawRect 0 0 0 2147483648 true) = false := by
  decide

theorem test_wellFormed_drawChar : wellFormed (.drawChar 2147483648 0 0) = false
    ∧ wellFormed (.drawChar 0 2147483648 0) = false := by
  decide

theorem test_wellFormed_drawText : wellFormed (.drawText 2147483648 0 []) = false
    ∧ wellFormed (.drawText 0 2147483648 []) = false
    ∧ ∀ t : List Byte, t.length = 65536 → wellFormed (.drawText 0 0 t) = false := by
  refine ⟨by decide, by decide, fun t h => ?_⟩
  simp [wellFormed, h]

theorem test_wellFormed_setFont : wellFormed (.setFont (some ⟨2147483648, 1, []⟩)) = false
    ∧ wellFormed (.setFont (some ⟨1, 2147483648, []⟩)) = false
    ∧ ∀ t : List Word, t.length = 4294967296 → wellFormed (.setFont (some ⟨1, 1, t⟩)) = false := by
  refine ⟨by decide, by decide, fun t h => ?_⟩
  simp [wellFormed, isFontRef, h]

theorem test_wellFormed_transfers : wellFormed (.ctrlCommand []) = false ∧ wellFormed (.ctrlData []) = false
    ∧ wellFormed (.ctrlData (List.replicate 17 0#8)) = false ∧ wellFormed (.ctrlData (List.replicate 16 0#8)) = true := by
  decide

/-! ### Decoding: words written out from 30_encoding.md -/

/-- V-D-E1. -/
theorem test_decode_setPixel : decodeRequest [0x02, 0x03, 0, 0, 0, 0x0A, 0, 0, 0, 0x01] = .ok (.setPixel 3 10 true) := by
  rfl

/-- V-D-E2. -/
theorem test_decode_drawLine : decodeRequest [0x03, 0xFF, 0xFF, 0xFF, 0xFF, 0, 0, 0, 0, 3, 0, 0, 0, 0, 0, 0, 0, 1]
    = .ok (.drawLine (-1) 0 3 0 true) := by
  rfl

/-- V-S3. -/
theorem test_decode_drawRect : decodeRequest [0x04, 0, 0, 0, 0, 0, 0, 0, 0, 0x0A, 0, 0, 0, 0x05, 0, 0, 0, 0x01]
    = .ok (.drawRect 0 0 10 5 true) := by
  rfl

/-- V-D-E8, V-D-E10. -/
theorem test_decode_setFont : decodeRequest [0x05, 0x00] = .ok (.setFont none)
    ∧ decodeRequest [0x05, 0x01, 0, 0, 0, 0, 2, 0, 0, 0, 0, 0, 0, 0] = .ok (.setFont (some ⟨0, 2, []⟩))
    ∧ decodeRequest [0x05, 0x01, 2, 0, 0, 0, 1, 0, 0, 0, 1, 0, 0, 0, 0, 0, 0, 0xC0]
        = .ok (.setFont (some ⟨2, 1, [0xC0000000]⟩)) := by
  refine ⟨rfl, rfl, rfl⟩

/-- V-D-E14. -/
theorem test_decode_drawChar : decodeRequest [0x06, 0, 0, 0, 0, 0, 0, 0, 0, 0x41] = .ok (.drawChar 0 0 0x41) := by
  rfl

/-- V-D-E11. -/
theorem test_decode_drawText : decodeRequest [0x07, 0, 0, 0, 0, 0, 0, 0, 0, 4, 0, 0x54, 0x65, 0x73, 0x74]
    = .ok (.drawText 0 0 [0x54, 0x65, 0x73, 0x74]) := by
  rfl

/-- R60, V-D-E13. -/
theorem test_decode_protocol : decodeRequest [0x01] = .ok .prepare ∧ decodeRequest [0x10] = .ok .initialise
    ∧ decodeRequest [0x11] = .ok .write ∧ decodeRequest [0x12] = .ok .clearScreen
    ∧ decodeRequest [0x13, 0x01] = .ok (.startScroll true) ∧ decodeRequest [0x13, 0x00] = .ok (.startScroll false)
    ∧ decodeRequest [0x14] = .ok .stopScroll := by
  refine ⟨rfl, rfl, rfl, rfl, rfl, rfl, rfl⟩

/-- V-D-E3, V-D-E4. -/
theorem test_decode_unassigned : decodeRequest [0x00] = .error .unassignedOpcode
    ∧ decodeRequest [0x08] = .error .unassignedOpcode ∧ decodeRequest [0x0F] = .error .unassignedOpcode
    ∧ decodeRequest [0x15] = .error .unassignedOpcode ∧ decodeRequest [0xFF] = .error .unassignedOpcode := by
  refine ⟨rfl, rfl, rfl, rfl, rfl⟩

/-- V-D-E5, E6, E7, E9, E12. -/
theorem test_decode_malformed : decodeRequest [0x02, 0, 0, 0, 0, 0, 0, 0, 0, 0x02] = .error .malformedRequest
    ∧ decodeRequest [0x01, 0x00] = .error .malformedRequest ∧ decodeRequest [0x02, 0, 0, 0, 0] = .error .malformedRequest
    ∧ decodeRequest [0x05, 0x02] = .error .malformedRequest
    ∧ decodeRequest [0x07, 0, 0, 0, 0, 0, 0, 0, 0, 5, 0, 0x54, 0x65, 0x73, 0x74] = .error .malformedRequest := by
  refine ⟨rfl, rfl, rfl, rfl, rfl⟩

/-- The bytes of R66 to R77. -/
theorem test_decode_commands : decodeCommand [0xAE] = some .displayOff ∧ decodeCommand [0xAF] = some .displayOn
    ∧ decodeCommand [0xA8, 0x1F] = some (.setMultiplex 0x1F) ∧ decodeCommand [0xD3, 0x00] = some (.setDisplayOffset 0)
    ∧ decodeCommand [0x40] = some (.setStartLine 0) ∧ decodeCommand [0x7F] = some (.setStartLine 63)
    ∧ decodeCommand [0xA1] = some .segRemapOn ∧ decodeCommand [0xA0] = some .segRemapOff
    ∧ decodeCommand [0xC8] = some .comScanRemapped ∧ decodeCommand [0xC0] = some .comScanNormal
    ∧ decodeCommand [0xDA, 0x02] = some (.setComPins 2) ∧ decodeCommand [0x81, 0x7F] = some (.setContrast 0x7F)
    ∧ decodeCommand [0xA4] = some .entireDisplayResume := by
  decide

/-- The bytes of R78 to R89. -/
theorem test_decode_more_commands : decodeCommand [0xA5] = some .entireDisplayOn
    ∧ decodeCommand [0xA6] = some .normalDisplay ∧ decodeCommand [0xA7] = some .invertDisplay
    ∧ decodeCommand [0xD5, 0x80] = some (.setClockDiv 0x80) ∧ decodeCommand [0x8D, 0x14] = some (.chargePump 0x14)
    ∧ decodeCommand [0x20, 0x00] = some (.memoryMode 0) ∧ decodeCommand [0x21, 0x00, 0x7F] = some (.columnAddr 0 0x7F)
    ∧ decodeCommand [0x22, 0x00, 0x03] = some (.pageAddr 0 3)
    ∧ decodeCommand [0x26, 0x00, 0x00, 0x00, 0x03, 0x00, 0xFF] = some (.scrollSetupRight 0 0 3)
    ∧ decodeCommand [0x27, 0x00, 0x00, 0x00, 0x03, 0x00, 0xFF] = some (.scrollSetupLeft 0 0 3)
    ∧ decodeCommand [0x2F] = some .scrollActivate ∧ decodeCommand [0x2E] = some .scrollDeactivate
    ∧ decodeCommand [0x00] = none ∧ decodeCommand [0x2E, 0x2E] = none := by
  decide

/-- R62, R64. -/
theorem test_decode_transfers : decodeTransfer [0x00, 0xA8, 0x1F] = some (.ctrlCommand [0xA8, 0x1F])
    ∧ decodeTransfer [0x40, 0x01, 0x02] = some (.ctrlData [0x01, 0x02]) ∧ decodeTransfer [0x40] = none
    ∧ decodeTransfer [0x80, 0x01] = none := by
  decide

/-- The table's numbering: bit 0 is the least significant bit of the first byte. -/
theorem test_decode_table_words : decodeTableWord 8 0x01 = some .prepare
    ∧ decodeTableWord 8 0x03 = some (.drawLine 0 0 0 0 false) ∧ decodeTableWord 16 0x1FA8 = some (.setMultiplex 0x1F)
    ∧ decodeTableWord 8 0xAE = some .displayOff ∧ decodeTableWord 8 0x40 = some (.ctrlData [0])
    ∧ decodeTableWord 8 0x08 = none := by
  decide

theorem test_withFetchWord : (stepped ((block 16 8).withFetchWord 8 0x10)).fsm = .initializing
    ∧ sent (stepped ((block 16 8).withFetchWord 8 0xA1)) = [[0x00, 0xA1]] := by
  decide

/-! ### Concurrent calls (R187, R201) and final states (R175, R194) -/

/-- PREPARE, and STOPSCROLL issued before PREPARE's call has returned. -/
def twoCalls : State := { block 16 8 with requests := [⟨[0x01], false⟩, ⟨[0x14], true⟩] }

/-- The second is refused and sends nothing; PREPARE's effect stands. -/
theorem test_concurrent_behind_one_step : (stepped (stepped twoCalls)).refused = some .concurrentCall
    ∧ (stepped (stepped twoCalls)).tlog = [] ∧ (stepped (stepped twoCalls)).requests = []
    ∧ fbByte (stepped (stepped twoCalls)) 15 = 0x00 ∧ (stepped (stepped twoCalls)).status = .ok := by
  decide

/-- The same behind STOPSCROLL whose answer is at hand. -/
theorem test_concurrent_behind_transmitting :
    (stepped (stepped { twoCalls with requests := [⟨[0x14], false⟩, ⟨[0x01], true⟩], answers := [.ok] })).refused
      = some .concurrentCall := by
  decide

/-- A faulted state is no final state. -/
theorem test_faulted_not_final : runEnded (block 16 8) = true
    ∧ runEnded { block 16 8 with faults := [.missingFallbackGlyph] } = false := by
  decide

/-! ### The textual form (R94) -/

/-- R94's own example. -/
theorem test_assemble_setPixel : (assembleLine "SETPIXEL 3, 10, on".toList).map (·.map requestBytes)
    = some (some [0x02, 3, 0, 0, 0, 0x0A, 0, 0, 0, 1]) := by decide

theorem test_assemble_font : assembleLine "SETFONT font(2, 2, [0x80000000, 0x40000000]) ; two rows".toList
    = some (some (.setFont (some ⟨2, 2, [0x80000000, 0x40000000]⟩))) := by decide

theorem test_assemble_text : assembleLine "DRAWTEXT -1, 0x10, \"A;\\n\\\"\"".toList
    = some (some (.drawText (-1) 16 [65, 59, 10, 34])) := by decide

theorem test_assemble_lines : assembleLine "DRAWCHAR 0, 0, 'A'".toList = some (some (.drawChar 0 0 65))
    ∧ assembleLine "  ; comment".toList = some none ∧ assembleLine "SETPIXEL 3, 10".toList = none
    ∧ assembleLine "DRAWCHAR 0, 0, 300".toList = none := by decide

theorem test_assemble_program : assemble ["INITIALIZE".toList, "".toList, "STARTSCROLL off".toList, "SETFONT null".toList]
    = some [.initialise, .startScroll false, .setFont none] := by decide

/-! ### Construction (V-D-C1 to V-D-C6) -/

theorem test_construct_registers : cr4 (block 128 32) = 0x00200080 ∧ cr5 (block 128 32) = 0x3C
    ∧ cr4 (block 128 64) = 0x00400080 ∧ fbSize (params 128 64 .perByte) = 1024 ∧ fbSize (params 1 8 .perByte) = 1
    ∧ cr0 (block 128 32) = 0 ∧ cr3 (block 128 32) = 0 := by
  decide

theorem test_construct_domain : admitted (params 1 8 .perByte) = true ∧ admitted (params 256 256 .perByte) = true
    ∧ admitted (params 128 30 .perByte) = false ∧ admitted (params 0 32 .perByte) = false
    ∧ admitted (params 257 32 .perByte) = false ∧ admitted (params 128 264 .perByte) = false
    ∧ admitted { params 128 32 .perByte with addr := 0x80 } = false := by
  decide

/-! ### Raster -/

/-- V-D-R33 on 16x8. -/
theorem test_prepare : (after .prepare (filled 0xFF)).fb = (filled 0).fb ∧ (after .prepare (filled 0xFF)).status = .ok := by
  decide

/-- V-S1: `SETPIXEL 3, 10` on 128x32. -/
theorem test_setPixel : (after (.setPixel 3 10 true) { block 128 32 with fb := [(131, 0)] }).fb = [(131, 0x04)]
    ∧ (after (.setPixel 3 10 false) { block 128 32 with fb := [(131, 0xFF)] }).fb = [(131, 0xFB)] := by
  decide

/-- V-D-R2: ignored, status OK. -/
theorem test_setPixel_off_panel : (after (.setPixel 128 0 true) (block 128 32)).fb = []
    ∧ (after (.setPixel (-1) 5 true) (block 128 32)).fb = [] ∧ (after (.setPixel 0 32 true) (block 128 32)).fb = []
    ∧ cr3 (after (.setPixel 0 (-1) true) (block 128 32)) = 0x4 := by
  decide

/-- V-D-R9, V-D-R10 on 16x16: column W clamps; a run across a page boundary. -/
theorem test_drawLine : (after (.drawLine 16 0 16 0 true) { block 16 16 with fb := [(15, 0)] }).fb = [(15, 0x01)]
    ∧ (after (.drawLine 10 7 10 8 true) { block 16 16 with fb := [(10, 0), (26, 0)] }).fb = [(10, 0x80), (26, 0x01)] := by
  decide

/-- V-D-R12, R13, R14, R15, R16: InvalidArgument, buffer unchanged. -/
theorem test_drawLine_invalid : cr3 (after (.drawLine 0 0 129 0 true) (block 128 32)) = 0x5
    ∧ cr3 (after (.drawLine 5 0 4 0 true) (block 128 32)) = 0x5
    ∧ cr3 (after (.drawLine 128 0 127 0 true) (block 128 32)) = 0x5
    ∧ cr3 (after (.drawLine (-1) 0 3 0 true) (block 128 32)) = 0x5
    ∧ (after (.drawLine 0 0 0 33 true) (block 128 32)).fb = [] := by
  decide

/-- P3 lines 2 and 4 on 16x8: the border, and the bottom edge at row h - 1. -/
theorem test_drawRect : (after (.drawRect 5 5 3 2 true) (after (.drawRect 0 0 16 8 true) (filled 0))).fb.map (·.2)
    = [0xFF, 0x81, 0x81, 0x81, 0x81, 0xE3, 0xA3, 0xE3, 0x81, 0x81, 0x81, 0x81, 0x81, 0x81, 0x81, 0xFF] := by
  decide

/-- V-D-R25 to V-D-R29. -/
theorem test_drawRect_invalid : (after (.drawRect 0 29 4 5 true) (block 128 32)).fb = []
    ∧ cr3 (after (.drawRect 0 29 4 5 true) (block 128 32)) = 0x5
    ∧ cr3 (after (.drawRect 0 0 0 5 true) (block 128 32)) = 0x5
    ∧ cr3 (after (.drawRect 0 0 129 5 true) (block 128 32)) = 0x5
    ∧ cr3 (after (.drawRect 0 0 5 33 true) (block 128 32)) = 0x5
    ∧ cr3 (after (.drawRect (-1) 0 3 3 true) (block 128 32)) = 0x5 := by
  decide

/-! ### Text, with TF -/

/-- V-D-T1, T2, T3, T4, T5. -/
theorem test_setFont : cr3 (after (.setFont none) (block 16 8)) = 0x6 ∧ (after (.setFont none) (block 16 8)).font = tf
    ∧ (after (.setFont (some ⟨0, 2, []⟩)) (block 16 8)).refused = some .illFormedFont
    ∧ (after (.setFont (some ⟨2, 2, [0]⟩)) (block 16 8)).refused = some .illFormedFont
    ∧ (after (.setFont (some ⟨33, 1, [0]⟩)) (block 16 8)).refused = some .illFormedFont
    ∧ (after (.setFont (some ⟨1, 1, [7]⟩)) (block 16 8)).font = ⟨1, 1, [7]⟩ := by
  decide

/-- V-D-T6, T8, T10, T12 on 16x8. -/
theorem test_drawChar : (after (.drawChar 0 0 0x41) { block 16 8 with fb := [(0, 0), (1, 0)] }).fb = [(0, 0x01), (1, 0x02)]
    ∧ (after (.drawChar 0 0 255) { block 16 8 with fb := [(0, 0), (1, 0)] }).fb = [(0, 0x03), (1, 0x03)]
    ∧ (after (.drawChar (-1) (-1) 0x3F) { block 16 8 with fb := [(0, 0)] }).fb = [(0, 0x01)]
    ∧ (after (.drawChar 0 0 0x41) (filled 0xFF)).fb = (filled 0xFF).fb := by
  decide

/-- V-D-T13: the model fault, and no status. -/
theorem test_drawChar_fault :
    (after (.drawChar 0 0 0x41) { block 16 8 with font := ⟨2, 2, [0, 0]⟩ }).faults = [.missingFallbackGlyph]
    ∧ cr3 (after (.drawChar 0 0 0x41) { block 16 8 with font := ⟨2, 2, [0, 0]⟩ }) = 0 := by
  decide

/-- V-D-T17, T18 (on 16 columns: 12, 12, 12), T19. -/
theorem test_drawText :
    (after (.drawText 0 0 [0x41, 13, 10, 0x42]) { block 16 8 with fb := [(0, 0), (1, 0)] }).fb = [(0, 0x11), (1, 0x0A)]
    ∧ (after (.drawText 12 0 [0x41, 0x41, 0x41]) { block 16 8 with fb := [(12, 0), (13, 0)] }).fb
        = [(12, 0x49), (13, 0x92)]
    ∧ (after (.drawText 15 0 [0x41, 0x41]) { block 16 8 with fb := [(15, 0)] }).fb = [(15, 0x48)] := by
  decide

/-- V-D-T22, T24. -/
theorem test_drawText_stops : (after (.drawText 0 7 [0x41]) (block 16 8)).fb = []
    ∧ (after (.drawText 0 0 []) (block 16 8)).fb = [] ∧ cr3 (after (.drawText 0 0 [13, 13]) (block 16 8)) = 0x4 := by
  decide

/-! ### Protocol -/

/-- V-D-P1. -/
theorem test_initialise : sent (after .initialise (told 128 32 .perCommand (oks 14)))
    = [[0x00, 0xAE], [0x00, 0xA8, 0x1F], [0x00, 0xD3, 0x00], [0x00, 0x40], [0x00, 0xA1], [0x00, 0xC8], [0x00, 0xDA, 0x02],
       [0x00, 0x81, 0x7F], [0x00, 0xA4], [0x00, 0xA6], [0x00, 0xD5, 0x80], [0x00, 0x8D, 0x14], [0x00, 0x20, 0x00],
       [0x00, 0xAF]]
    ∧ (after .initialise (told 128 32 .perCommand (oks 14))).fsm = .active := by
  decide

/-- V-D-P3, V-D-P4. -/
theorem test_initialise_fails : cr2 (after .initialise (told 128 32 .perCommand (oks 5 ++ [.err .nack]))) = 0x00051001
    ∧ (after .initialise (told 128 32 .perCommand (oks 5 ++ [.err .nack]))).fsm = .initializing
    ∧ sent (after .initialise (told 128 32 .perByte (oks 2 ++ [.err .timeout]))) = [[0x00, 0xAE], [0x00, 0xA8], [0x00, 0x1F]]
    ∧ cr2 (after .initialise (told 128 32 .perByte (oks 2 ++ [.err .timeout]))) = 0x00021005 := by
  decide

/-- V-D-P8: a short last burst. -/
theorem test_write : sent (after .write { told 20 8 .perCommand (oks 6) with
      fb := (List.range 20).map (fun k => (k, BitVec.ofNat 8 (k + 1))) })
    = [[0x00, 0x21, 0x00, 0x13], [0x00, 0x22, 0x00, 0x00], [0x00, 0x40],
       [0x40, 0x01, 0x02, 0x03, 0x04, 0x05, 0x06, 0x07, 0x08, 0x09, 0x0A, 0x0B, 0x0C, 0x0D, 0x0E, 0x0F, 0x10],
       [0x00, 0x40], [0x40, 0x11, 0x12, 0x13, 0x14]] := by
  decide

/-- V-D-P24: only the first failure is kept. -/
theorem test_write_fails : cr2 (after .write { told 128 32 .perCommand [.err .nack] with fault := some ⟨0x10, 5, .nack⟩ })
    = 0x00051001 ∧ cr3 (after .write (told 128 32 .perCommand [.err .nack])) = 0x7 := by
  decide

/-- V-D-P15 on 16x8. -/
theorem test_clearScreen :
    (after .clearScreen { filled 0xFF with answers := oks 2 ++ [.err .nack] }).fb = (filled 0).fb
    ∧ sent (after .clearScreen { filled 0xFF with answers := oks 4 })
      = [[0x00, 0x21, 0x00, 0x0F], [0x00, 0x22, 0x00, 0x00], [0x00, 0x40], 0x40 :: List.replicate 16 0x00] := by
  decide

/-- V-D-P17, V-D-P18. -/
theorem test_startScroll : sent (after (.startScroll true) (told 128 32 .perCommand (oks 3)))
      = [[0x00, 0x2E], [0x00, 0x27, 0x00, 0x00, 0x00, 0x03, 0x00, 0xFF], [0x00, 0x2F]]
    ∧ (after (.startScroll true) (told 128 32 .perCommand (oks 3))).scroll = .scrollingLeft
    ∧ sent (after (.startScroll false) (told 128 32 .perByte (oks 9)))
      = [[0x00, 0x2E], [0x00, 0x26], [0x00, 0x00], [0x00, 0x00], [0x00, 0x00], [0x00, 0x03], [0x00, 0x00], [0x00, 0xFF],
         [0x00, 0x2F]] := by
  decide

/-- V-D-P19, P20, P21. -/
theorem test_startScroll_fails :
    (after (.startScroll true) { told 128 32 .perCommand [.err .nack] with scroll := .scrollingRight }).scroll
      = .scrollingRight
    ∧ (after (.startScroll true) { told 128 32 .perCommand [.ok, .err .nack] with scroll := .scrollingRight }).scroll = .off
    ∧ cr2 (after (.startScroll true) (told 128 32 .perCommand [.ok, .ok, .err .other])) = 0x00021307 := by
  decide

/-- V-D-P23, V-D-P22, V-D-P25. -/
theorem test_stopScroll : sent (after .stopScroll (told 128 32 .perCommand [.ok])) = [[0x00, 0x2E]]
    ∧ (after .stopScroll { told 128 32 .perCommand [.err .timeout] with scroll := .scrollingLeft }).scroll = .scrollingLeft
    ∧ cr7 (after .stopScroll (block 128 32)) = 1
    ∧ stop (after .stopScroll (block 128 32)) = some .transportStalled := by
  decide

/-! ### Controller commands and transfers, in the middle of an operation -/

/-- R66 to R70. -/
theorem test_commands_a : sent (after .displayOff (executing [] (oks 1))) = [[0x00, 0xAE]]
    ∧ sent (after .displayOn (executing [] (oks 1))) = [[0x00, 0xAF]]
    ∧ sent (after (.setMultiplex 0x3F) (executing [] (oks 1))) = [[0x00, 0xA8, 0x3F]]
    ∧ sent (after (.setDisplayOffset 1) (executing [] (oks 1))) = [[0x00, 0xD3, 0x01]]
    ∧ sent (after (.setStartLine 5) (executing [] (oks 1))) = [[0x00, 0x45]] := by
  decide

/-- R71 to R80. -/
theorem test_commands_b : sent (after .segRemapOn (executing [] (oks 1))) = [[0x00, 0xA1]]
    ∧ sent (after .segRemapOff (executing [] (oks 1))) = [[0x00, 0xA0]]
    ∧ sent (after .comScanRemapped (executing [] (oks 1))) = [[0x00, 0xC8]]
    ∧ sent (after .comScanNormal (executing [] (oks 1))) = [[0x00, 0xC0]]
    ∧ sent (after (.setComPins 0x12) (executing [] (oks 1))) = [[0x00, 0xDA, 0x12]]
    ∧ sent (after (.setContrast 0xCF) (executing [] (oks 1))) = [[0x00, 0x81, 0xCF]]
    ∧ sent (after .entireDisplayResume (executing [] (oks 1))) = [[0x00, 0xA4]]
    ∧ sent (after .entireDisplayOn (executing [] (oks 1))) = [[0x00, 0xA5]]
    ∧ sent (after .normalDisplay (executing [] (oks 1))) = [[0x00, 0xA6]]
    ∧ sent (after .invertDisplay (executing [] (oks 1))) = [[0x00, 0xA7]] := by
  decide

/-- R81 to R87. -/
theorem test_commands_c : sent (after (.setClockDiv 0x80) (executing [] (oks 1))) = [[0x00, 0xD5, 0x80]]
    ∧ sent (after (.chargePump 0x14) (executing [] (oks 1))) = [[0x00, 0x8D, 0x14]]
    ∧ sent (after (.memoryMode 0) (executing [] (oks 1))) = [[0x00, 0x20, 0x00]]
    ∧ sent (after (.columnAddr 1 2) (executing [] (oks 1))) = [[0x00, 0x21, 0x01, 0x02]]
    ∧ sent (after (.pageAddr 3 4) (executing [] (oks 1))) = [[0x00, 0x22, 0x03, 0x04]]
    ∧ sent (after (.scrollSetupRight 1 2 3) (executing [] (oks 1))) = [[0x00, 0x26, 0x00, 0x01, 0x02, 0x03, 0x00, 0xFF]]
    ∧ sent (after (.scrollSetupLeft 1 2 3) (executing [] (oks 1))) = [[0x00, 0x27, 0x00, 0x01, 0x02, 0x03, 0x00, 0xFF]] := by
  decide

/-- R88, R89, R149. -/
theorem test_commands_scroll :
    (after .scrollActivate { executing [] (oks 1) with op := some (.startScroll false) }).scroll = .scrollingRight
    ∧ (after .scrollActivate { executing [] (oks 1) with op := some (.startScroll true) }).scroll = .scrollingLeft
    ∧ (after .scrollActivate (executing [] (oks 1))).scroll = .off
    ∧ (after .scrollDeactivate { executing [] (oks 1) with scroll := .scrollingLeft }).scroll = .off
    ∧ (after .scrollDeactivate { executing [] [.err .other] with scroll := .scrollingLeft }).scroll = .scrollingLeft := by
  decide

/-- R62, R64, R49. -/
theorem test_transfers : sent (after (.ctrlCommand [0xA8, 0x1F]) (executing [] (oks 1))) = [[0x00, 0xA8, 0x1F]]
    ∧ sent (after (.ctrlData [1, 2]) (executing [] (oks 1))) = [[0x40, 1, 2]]
    ∧ cr6 (after (.ctrlData [1, 2]) (executing [] (oks 1))) = 1
    ∧ (after (.ctrlData [1, 2]) (executing [] [.err .nack])).fault = some ⟨0x11, 0, .nack⟩ := by
  decide

/-! ### Witnesses: each statement's hypotheses are met, at the ends of their ranges -/

/-- `MachineInv` of a state whose lists are short, checked field by field. -/
theorem inv_of (s : State) (h1 : admitted s.cfg = true) (h2 : Memory.wf s.fb = true)
    (h3 : s.fb.all (fun c => decide (c.1 < fbSize s.cfg)) = true) (h4 : fontOK s.font = true)
    (h5 : s.op ≠ none ∨ (s.seq = 0 ∧ s.busy = false ∧ s.txq = [])) (h6 : s.txq.all itemOK = true)
    (h7 : s.tlog.all (fun e => decide (e.bus = s.cfg.busId) && decide (e.addr = s.cfg.addr) && framed e.bytes) = true)
    (h8 : s.tlog.dropLast.all (fun e => decide (e.outcome ≠ .pending)) = true)
    (h9 : s.busy = (s.tlog.getLast?.map (fun e => decide (e.outcome = .pending))).getD false)
    (h10 : s.seq + (if s.busy then 1 else 0) + queueTransfers s.cfg s.txq ≤ transferCap) (h11 : s.fault = none)
    (h12 : s.status = .ok) : MachineInv s := by
  refine ⟨h1, h2, fun c hc => of_decide_eq_true (List.all_eq_true.mp h3 c hc), h4, fun ho => h5.resolve_left (fun k => k ho),
    fun it hi => List.all_eq_true.mp h6 it hi, fun e he => ?_, fun e he => of_decide_eq_true (List.all_eq_true.mp h8 e he), ?_,
    h10, fun f hf => ?_, fun _ => h12⟩
  · have := List.all_eq_true.mp h7 e he
    simpa [and_assoc] using this
  · rw [h9]
    cases s.tlog.getLast? with
    | none => simp
    | some e => simp
  · rw [h11] at hf
    cases hf

/-- WRITE in the middle: one transfer pending, one to go. -/
def midWrite : State :=
  { executing [.cmd (.setStartLine 0)] [.ok] with busy := true, tlog := [⟨5, 0x3C, [0x00, 0x22], .pending⟩] }

theorem witness_inv_idle : MachineInv (block 16 8) := by
  apply inv_of <;> decide

theorem witness_inv_executing : MachineInv midWrite := by
  apply inv_of <;> decide

theorem witness_ConstructionChecksTheDomain :
    ((1 ≤ (params 1 8 .perByte).w ∧ (params 1 8 .perByte).w ≤ 256) ∧
      (8 ≤ (params 1 8 .perByte).h ∧ (params 1 8 .perByte).h ≤ 256 ∧ (params 1 8 .perByte).h % 8 = 0) ∧
      (params 1 8 .perByte).addr ≤ 0x7F)
    ∧ ¬ ((1 ≤ (params 257 8 .perByte).w ∧ (params 257 8 .perByte).w ≤ 256) ∧
      (8 ≤ (params 257 8 .perByte).h ∧ (params 257 8 .perByte).h ≤ 256 ∧ (params 257 8 .perByte).h % 8 = 0) ∧
      (params 257 8 .perByte).addr ≤ 0x7F) := by
  decide

theorem witness_ConstructedBlocksMeetTheInvariant :
    construct (params 256 256 .perCommand) 3 = .next (State.fresh (params 256 256 .perCommand) 3)
    ∧ fontOK (params 256 256 .perCommand).defaultFont = true := by
  exact ⟨rfl, by decide⟩

/-- An idle step, and one that takes the answer of a pending transfer. -/
theorem witness_StepKeepsTheInvariant : MachineInv (asked [0x01]) ∧ step (asked [0x01]) = .next (stepped (asked [0x01]))
    ∧ MachineInv midWrite ∧ step midWrite = .next (stepped midWrite) := by
  refine ⟨?_, rfl, witness_inv_executing, rfl⟩
  apply inv_of <;> decide

theorem witness_DecodeOfEncode : wellFormed (.setPixel (-2147483648) 2147483647 true) = true
    ∧ wellFormed (.setStartLine 63) = true ∧ wellFormed (.ctrlData (List.replicate 16 0xFF)) = true := by
  decide

theorem witness_RequestsHaveOneEncoding : decodeRequest [0x13, 0x01] = .ok (.startScroll true) := by
  rfl

theorem witness_CommandsDecodeInAStream : laneOf (.setStartLine 63) = .command := by
  rfl

/-- Every end of the three ranges of R91, and a state. -/
theorem witness_UnassignedOpcodesAreRefused : (0x00#8 : Byte).toNat = 0 ∧ 0x08 ≤ (0x08#8 : Byte).toNat
    ∧ (0x0F#8 : Byte).toNat ≤ 0x0F ∧ 0x15 ≤ (0x15#8 : Byte).toNat ∧ 0x15 ≤ (0xFF#8 : Byte).toNat
    ∧ (asked [0x08, 1]).faults = [] ∧ (asked [0x08, 1]).op = none
    ∧ (asked [0x08, 1]).requests = ⟨0x08#8 :: [1], false⟩ :: []
    ∧ (stepped (asked [0x08, 1])).refused = some .unassignedOpcode := by
  decide

theorem witness_MalformedRequestsAreRefused : assigned 0x01#8 = true
    ∧ (∀ i, wellFormed i = true → requestBytes i ≠ 0x01#8 :: [0x00#8])
    ∧ decodeRequest [0x01#8, 0x00#8] = .error .malformedRequest
    ∧ (stepped (asked [0x01, 0x00])).refused = some .malformedRequest := by
  refine ⟨by decide, fun i hi he => ?_, rfl, by decide⟩
  have hl : laneOf i = .request := by cases i <;> first | rfl | cases he
  have hd := (decodeRequest_iff [0x01#8, 0x00#8] i).mpr ⟨hl, hi, he.symm⟩
  have hx : decodeRequest [0x01#8, 0x00#8] = .error .malformedRequest := rfl
  rw [hx] at hd
  cases hd

theorem witness_StepRunsTheDecodedRequest : (asked [0x14]).faults = [] ∧ (asked [0x14]).op = none
    ∧ (asked [0x14]).requests = ⟨[0x14], false⟩ :: [] ∧ (⟨[0x14], false⟩ : Request).overlaps = false
    ∧ decodeRequest [0x14] = .ok .stopScroll := by
  exact ⟨rfl, rfl, rfl, rfl, rfl⟩

theorem witness_StepRunsTheQueuedCommand : (executing [.cmd .displayOn] []).faults = []
    ∧ (executing [.cmd .displayOn] []).op = some .write
    ∧ (∀ r ∈ (executing [.cmd .displayOn] []).requests.head?, r.overlaps = false)
    ∧ (executing [.cmd .displayOn] []).busy = false
    ∧ (executing [.cmd .displayOn] []).txq = .cmd .displayOn :: [] := by
  decide

theorem witness_StepWaitsOrStops : (block 16 8).faults = [] ∧ (block 16 8).op = none ∧ (block 16 8).requests = []
    ∧ ({ block 16 8 with faults := [.missingFallbackGlyph] } : State).faults = .missingFallbackGlyph :: []
    ∧ ({ midWrite with answers := [] } : State).faults = [] ∧ ({ midWrite with answers := [] } : State).op = some .write
    ∧ (∀ r ∈ ({ midWrite with answers := [] } : State).requests.head?, r.overlaps = false)
    ∧ ({ midWrite with answers := [] } : State).busy = true ∧ ({ midWrite with answers := [] } : State).answers = [] := by
  decide

theorem witness_AnswerCompletesThePendingTransfer : midWrite.faults = [] ∧ midWrite.op = some .write
    ∧ (∀ r ∈ midWrite.requests.head?, r.overlaps = false) ∧ midWrite.busy = true ∧ midWrite.answers = .ok :: []
    ∧ midWrite.tlog = [] ++ [⟨5, 0x3C, [0x00, 0x22], .pending⟩]
    ∧ ({ midWrite with answers := [.err .timeout] } : State).answers = .err .timeout :: [] := by
  decide

/-- A call while a transfer is pending, and one issued into PREPARE, which ends in its own step. -/
theorem witness_ConcurrentCallsAreRefused :
    ({ midWrite with requests := [⟨[0x14], true⟩] } : State).faults = []
    ∧ ({ midWrite with requests := [⟨[0x14], true⟩] } : State).requests = ⟨[0x14], true⟩ :: []
    ∧ (twoCalls).faults = [] ∧ (twoCalls).op = none ∧ (twoCalls).requests = ⟨[0x01], false⟩ :: ⟨[0x14], true⟩ :: []
    ∧ decodeRequest [0x01] = .ok .prepare
    ∧ exec .prepare { twoCalls with requests := ⟨[0x14], true⟩ :: [] }
        = .next (after .prepare { twoCalls with requests := ⟨[0x14], true⟩ :: [] })
    ∧ (after .prepare { twoCalls with requests := ⟨[0x14], true⟩ :: [] }).faults = [] := by
  exact ⟨rfl, rfl, rfl, rfl, rfl, rfl, rfl, rfl⟩

/-- The corners of the panel, and the last bit of the last byte. -/
theorem witness_PixelMapIsABijection : admitted (params 16 8 .perByte) = true ∧ onPanel (params 16 8 .perByte) 0 0 = true
    ∧ onPanel (params 16 8 .perByte) 15 7 = true ∧ 15 < fbSize (params 16 8 .perByte) := by
  decide

theorem witness_PixelPutChangesOneBit : admitted (block 16 8).cfg = true ∧ onPanel (block 16 8).cfg 15 7 = true := by
  decide

/-- On the panel's last pixel, and just past it. -/
theorem witness_SetPixelWritesOnePixel : admitted (block 16 8).cfg = true ∧ onPanel (block 16 8).cfg 15 7 = true
    ∧ ¬ ((0 : Int) ≤ 16 ∧ (16 : Int) < ((block 16 8).cfg.w : Int) ∧ (0 : Int) ≤ 0 ∧ (0 : Int) < ((block 16 8).cfg.h : Int)) := by
  decide

/-- Corners at `W` and `H` (clamped), and one past. -/
theorem witness_DrawLineFillsARectangle : admitted (block 16 8).cfg = true
    ∧ ((0 : Int) ≤ 16 ∧ (0 : Int) ≤ 8 ∧ (16 : Int) ≤ 16 ∧ (8 : Int) ≤ 8 ∧ (16 : Int) ≤ ((block 16 8).cfg.w : Int)
      ∧ (8 : Int) ≤ ((block 16 8).cfg.h : Int))
    ∧ ¬ ((0 : Int) ≤ 0 ∧ (0 : Int) ≤ 0 ∧ (0 : Int) ≤ 17 ∧ (0 : Int) ≤ 8 ∧ (17 : Int) ≤ ((block 16 8).cfg.w : Int)
      ∧ (8 : Int) ≤ ((block 16 8).cfg.h : Int)) := by
  decide

/-- The full panel shifted by one (clamped), and by two (V-D-R22, V-D-R23). -/
theorem witness_DrawRectDrawsItsOutline : admitted (block 16 8).cfg = true
    ∧ ((1 : Int) ≤ 16 ∧ (16 : Int) ≤ ((block 16 8).cfg.w : Int) ∧ (1 : Int) ≤ 8 ∧ (8 : Int) ≤ ((block 16 8).cfg.h : Int)
      ∧ (0 : Int) ≤ 1 ∧ (0 : Int) ≤ 1 ∧ (1 : Int) + 16 - 1 ≤ ((block 16 8).cfg.w : Int)
      ∧ (1 : Int) + 8 - 1 ≤ ((block 16 8).cfg.h : Int))
    ∧ ¬ ((1 : Int) ≤ 16 ∧ (16 : Int) ≤ ((block 16 8).cfg.w : Int) ∧ (1 : Int) ≤ 8 ∧ (8 : Int) ≤ ((block 16 8).cfg.h : Int)
      ∧ (0 : Int) ≤ 2 ∧ (0 : Int) ≤ 1 ∧ (2 : Int) + 16 - 1 ≤ ((block 16 8).cfg.w : Int)
      ∧ (1 : Int) + 8 - 1 ≤ ((block 16 8).cfg.h : Int)) := by
  decide

/-- Each of the five drawings, twice. -/
theorem witness_DrawingIsIdempotent : admitted (filled 0).cfg = true
    ∧ exec .prepare (filled 0) = .next (after .prepare (filled 0))
    ∧ exec .prepare (after .prepare (filled 0)) = .next (after .prepare (after .prepare (filled 0)))
    ∧ (after (.setPixel 15 7 true) (after (.setPixel 15 7 true) (filled 0))).fb = (after (.setPixel 15 7 true) (filled 0)).fb
    ∧ (after (.drawLine 3 3 9 5 true) (after (.drawLine 3 3 9 5 true) (filled 0))).fb
        = (after (.drawLine 3 3 9 5 true) (filled 0)).fb
    ∧ (after (.drawRect 5 5 3 2 true) (after (.drawRect 5 5 3 2 true) (filled 0))).fb
        = (after (.drawRect 5 5 3 2 true) (filled 0)).fb
    ∧ (after (.drawChar 0 0 0x3F) (after (.drawChar 0 0 0x3F) (filled 0))).fb = (after (.drawChar 0 0 0x3F) (filled 0)).fb := by
  refine ⟨by decide, rfl, rfl, by decide, by decide, by decide, by decide⟩

/-- A drawing whose hypotheses hold; the reason of the conclusion's premise stands in a state that had it before. -/
theorem witness_NoInstructionLeavesTheFramebuffer : admitted (block 16 8).cfg = true
    ∧ exec .stopScroll { block 16 8 with faults := [.fbAddressFault] }
        = .next (after .stopScroll { block 16 8 with faults := [.fbAddressFault] })
    ∧ .fbAddressFault ∈ (after .stopScroll { block 16 8 with faults := [.fbAddressFault] }).faults := by
  refine ⟨by decide, rfl, by decide⟩

/-- The widest font, and one column wider. -/
theorem witness_SetFontInstallsAdmittedFonts :
    ((1 : Int) ≤ 32 ∧ (32 : Int) ≤ 32 ∧ (1 : Int) ≤ 1 ∧ ([0] : List Word).length % (1 : Int).toNat = 0)
    ∧ ¬ ((1 : Int) ≤ 33 ∧ (33 : Int) ≤ 32 ∧ (1 : Int) ≤ 1 ∧ ([0] : List Word).length % (1 : Int).toNat = 0) := by
  decide

/-- TF's last glyph (code 71), the code after it, and a font with one glyph. -/
theorem witness_GlyphIndexSubstitutes :
    (32 ≤ (71#8 : Byte).toNat ∧ (71#8 : Byte).toNat - 32 < tf.table.length / tf.height.toNat)
    ∧ ¬ (32 ≤ (72#8 : Byte).toNat ∧ (72#8 : Byte).toNat - 32 < tf.table.length / tf.height.toNat)
    ∧ 31 < tf.table.length / tf.height.toNat
    ∧ ¬ (32 ≤ (33#8 : Byte).toNat ∧ (33#8 : Byte).toNat - 32 < ([0, 0] : List Word).length / (2 : Int).toNat)
    ∧ ¬ 31 < ([0, 0] : List Word).length / (2 : Int).toNat := by
  decide

theorem witness_DrawCharTurnsGlyphPixelsOn : admitted (block 16 8).cfg = true ∧ fontOK (block 16 8).font = true
    ∧ glyphIndex (block 16 8).font 0x41 = .ok 33 := by
  refine ⟨by decide, by decide, rfl⟩

/-- One glyph, and a code below 32 and one above the table. -/
theorem witness_MissingGlyphFaults : ({ block 16 8 with font := ⟨2, 2, [0, 0]⟩ } : State).faults = []
    ∧ ([0, 0] : List Word).length / (2 : Int).toNat ≤ 31 ∧ (31#8 : Byte).toNat < 32
    ∧ ([0, 0] : List Word).length / (2 : Int).toNat ≤ (33#8 : Byte).toNat - 32 := by
  decide

theorem witness_DrawTextDrawsItsGlyphs : admitted (block 16 8).cfg = true ∧ fontOK (block 16 8).font = true
    ∧ glyphPlaces tf 16 8 12 [0x41, 0x41, 10, 0x41, 0x41] 12 0 = [(12, 0, 0x41), (12, 3, 0x41), (12, 6, 0x41)]
    ∧ ∀ p ∈ glyphPlaces (block 16 8).font ((block 16 8).cfg.w : Int) ((block 16 8).cfg.h : Int) 12
        [0x41, 0x41, 10, 0x41, 0x41] 12 0, ∃ g, glyphIndex (block 16 8).font p.2.2 = .ok g := by
  refine ⟨by decide, by decide, by decide, fun p hp => ?_⟩
  rw [show glyphPlaces (block 16 8).font ((block 16 8).cfg.w : Int) ((block 16 8).cfg.h : Int) 12
    [0x41, 0x41, 10, 0x41, 0x41] 12 0 = [(12, 0, 0x41), (12, 3, 0x41), (12, 6, 0x41)] by decide] at hp
  simp only [List.mem_cons, List.not_mem_nil, or_false] at hp
  rcases hp with rfl | rfl | rfl <;> exact ⟨_, rfl⟩

/-- A font with one glyph, the blank of code 32, and the text of a blank and a letter. -/
theorem witness_TextFaultKeepsEarlierGlyphs :
    ∃ s : State, s = { block 16 8 with font := ⟨2, 2, [0xC0000000, 0]⟩ } ∧ admitted s.cfg = true ∧ fontOK s.font = true
      ∧ s.faults = [] ∧ glyphPlaces s.font (s.cfg.w : Int) (s.cfg.h : Int) 11 [32, 65] 11 6
          = [(11, 6, 32#8)] ++ (14, 6, 65#8) :: []
      ∧ (∀ q ∈ [((11 : Int), (6 : Int), 32#8)], ∃ g, glyphIndex s.font q.2.2 = .ok g)
      ∧ glyphIndex s.font 65#8 = .error .missingFallbackGlyph := by
  refine ⟨_, rfl, by decide, by decide, rfl, by decide, fun q hq => ?_, rfl⟩
  obtain rfl := List.mem_singleton.mp hq
  exact ⟨0, rfl⟩

theorem witness_DrawingTouchesNoControlState : isDrawing (.setFont none) = true
    ∧ exec (.setFont none) (block 16 8) = .next (after (.setFont none) (block 16 8))
    ∧ isDrawing .prepare = true ∧ exec .prepare (block 16 8) = .next (after .prepare (block 16 8)) := by
  exact ⟨rfl, rfl, rfl, rfl⟩

/-- The three ways. -/
theorem witness_TransferFollowsItsAnswer : (executing [] [.ok]).answers = .ok :: []
    ∧ (executing [] [.err .other]).answers = .err .other :: [] ∧ (executing [] [.err .other]).op = some .write
    ∧ (executing [] []).answers = [] := by
  decide

theorem witness_InitializeSendsItsSequence : (told 128 32 .perByte (oks 21)).answers
    = List.replicate (cut (told 128 32 .perByte (oks 21)).cfg.split
        (initCommands (told 128 32 .perByte (oks 21)).cfg)).length .ok ++ [] := by
  decide

theorem witness_WriteStreamsTheFramebuffer : (told 20 8 .perCommand (oks 6)).answers
    = List.replicate (writeFrames (told 20 8 .perCommand (oks 6))).length .ok ++ [] := by
  simp [told, oks, writeFrames, cut, State.fresh, params, fbSize, pages, List.replicate]

theorem witness_ClearScreenClearsAndTransmits : (told 20 8 .perCommand (oks 6)).answers
    = List.replicate (writeFrames (cleared (told 20 8 .perCommand (oks 6)))).length .ok ++ [] := by
  simp [told, oks, writeFrames, cleared, cut, State.fresh, params, fbSize, pages, List.replicate]

theorem witness_StartScrollStartsScrolling : (told 128 32 .perByte (oks 9)).answers
    = List.replicate (startScrollFrames (told 128 32 .perByte (oks 9)).cfg true).length .ok ++ [] := by
  decide

theorem witness_StopScrollStopsScrolling : (told 128 32 .perByte (oks 2)).answers = .ok :: [.ok] := by
  decide

/-- The first transfer and the last: STARTSCROLL fails at 0 and at 2. -/
theorem witness_TransportErrorEndsTheOperation :
    (opFrames (.startScroll true) (told 128 32 .perCommand [.err .nack]))[0]? = some [0x00, 0x2E]
    ∧ (told 128 32 .perCommand [.err .nack]).answers = List.replicate 0 .ok ++ .err .nack :: []
    ∧ (opFrames (.startScroll true) (told 128 32 .perCommand [.ok, .ok, .err .other]))[2]? = some [0x00, 0x2F]
    ∧ (told 128 32 .perCommand [.ok, .ok, .err .other]).answers = List.replicate 2 .ok ++ .err .other :: [] := by
  decide

/-- No answer to the first transfer, and none to the last. -/
theorem witness_UnansweredTransferBlocks :
    (opFrames .stopScroll (told 128 32 .perCommand []))[0]? = some [0x00, 0x2E]
    ∧ (told 128 32 .perCommand []).answers = List.replicate 0 .ok
    ∧ (opFrames .initialise (told 128 32 .perByte (oks 20)))[20]? = some [0x00, 0xAF]
    ∧ (told 128 32 .perByte (oks 20)).answers = List.replicate 20 .ok := by
  decide

/-- 20 bytes: a full burst and a short one. -/
theorem witness_PayloadsAreTheFramebuffer : (told 20 8 .perCommand (oks 6)).answers
      = List.replicate (writeFrames (told 20 8 .perCommand (oks 6))).length .ok ++ []
    ∧ (fbSize (told 20 8 .perCommand (oks 6)).cfg + 15) / 16 = 2 := by
  refine ⟨?_, by decide⟩
  simp [told, oks, writeFrames, Claims.cut, State.fresh, params, fbSize, pages, List.replicate]

/-- Both splits for each operation, and the largest panel. -/
theorem witness_TransferCounts :
    (told 128 32 .perCommand (oks 14)).answers
      = List.replicate (if (told 128 32 .perCommand (oks 14)).cfg.split = .perCommand then 14 else 21) .ok ++ []
    ∧ (told 128 32 .perByte (oks 21)).answers
      = List.replicate (if (told 128 32 .perByte (oks 21)).cfg.split = .perCommand then 14 else 21) .ok ++ []
    ∧ (told 20 8 .perByte (oks 10)).answers
      = List.replicate ((if (told 20 8 .perByte (oks 10)).cfg.split = .perCommand then 2 else 6)
          + 2 * ((fbSize (told 20 8 .perByte (oks 10)).cfg + 15) / 16)) .ok ++ []
    ∧ (told 20 8 .perCommand (oks 6)).answers
      = List.replicate ((if (told 20 8 .perCommand (oks 6)).cfg.split = .perCommand then 2 else 6)
          + 2 * ((fbSize (told 20 8 .perCommand (oks 6)).cfg + 15) / 16)) .ok ++ []
    ∧ admitted (block 256 256).cfg = true ∧ laneOf .write = .request
    ∧ exec .write (block 256 256) = .next (after .write (block 256 256)) := by
  refine ⟨by decide, by decide, by decide, by decide, by decide, rfl, rfl⟩

/-- Every one of the 24 rows is one; a command with two parameters, and SCROLL_DEACTIVATE. -/
theorem witness_CommandsSendTheirBytes : (commandRows ssd1306Default 1 2 3 63).length = 24
    ∧ (.columnAddr 1 2, [0x21, 1, 2]) ∈ commandRows (executing [] (oks 1)).cfg.cmdtab 1 2 3 63
    ∧ (executing [] (oks 1)).answers = List.replicate (cut (executing [] (oks 1)).cfg.split [[0x21, 1, 2]]).length .ok ++ []
    ∧ (.scrollDeactivate, [0x2E]) ∈ commandRows (executing [] (oks 1)).cfg.cmdtab 1 2 3 63
    ∧ (executing [] (oks 1)).answers = List.replicate (cut (executing [] (oks 1)).cfg.split [[0x2E]]).length .ok ++ [] := by
  decide

theorem witness_WireTransfersAppendOneEntry : (executing [] (oks 1)).answers = .ok :: [] := by
  decide

theorem witness_ParametersFitOneByte : admitted (params 256 256 .perByte) = true ∧ admitted (params 1 8 .perByte) = true := by
  decide

theorem witness_EveryTransferIsFramed : wellFormed (.ctrlData [7]) = true
    ∧ exec (.ctrlData [7]) (executing [] [.err .nack]) = .next (after (.ctrlData [7]) (executing [] [.err .nack])) := by
  exact ⟨by decide, rfl⟩

theorem witness_OperationsWriteOnlyTheirElements : laneOf .write = .request
    ∧ exec .write (block 16 8) = .next (after .write (block 16 8)) ∧ laneOf (.drawLine 0 0 1 1 true) = .request
    ∧ exec (.drawLine 0 0 1 1 true) (block 16 8) = .next (after (.drawLine 0 0 1 1 true) (block 16 8)) := by
  exact ⟨rfl, rfl, rfl, rfl⟩

theorem witness_StatusesComeFromTheirOperations : laneOf (.setFont none) = .request
    ∧ exec (.setFont none) (block 16 8) = .next (after (.setFont none) (block 16 8))
    ∧ (after (.setFont none) (block 16 8)).status = .configurationError := by
  exact ⟨rfl, rfl, rfl⟩

theorem witness_NothingUndoesConstruction : MachineInv midWrite ∧ step midWrite = .next (stepped midWrite)
    ∧ ({ midWrite with fsm := .active } : State).fsm ≠ .uninitialized := by
  exact ⟨witness_inv_executing, rfl, by decide⟩

/-- An instruction in a state with every mark, and a step with the latch and the refusal mark. -/
theorem witness_LatchAndMarksAreSticky :
    ∃ s : State, s = { asked [0x00] with fault := some ⟨0x10, 5, .nack⟩, refused := some .concurrentCall }
      ∧ step s = .next (stepped s) ∧ s.fault = some ⟨0x10, 5, .nack⟩ ∧ s.refused ≠ none
      ∧ exec .stopScroll { s with faults := [.missingFallbackGlyph], answers := [.err .other] }
          = .next (after .stopScroll { s with faults := [.missingFallbackGlyph], answers := [.err .other] })
      ∧ .missingFallbackGlyph ∈ ({ s with faults := [.missingFallbackGlyph], answers := [.err .other] } : State).faults := by
  exact ⟨_, rfl, rfl, rfl, by decide, rfl, by decide⟩

theorem witness_LogOnlyGrows : MachineInv midWrite ∧ step midWrite = .next (stepped midWrite)
    ∧ midWrite.tlog[0]? = some ⟨5, 0x3C, [0x00, 0x22], .pending⟩ := by
  exact ⟨witness_inv_executing, rfl, rfl⟩

theorem witness_ControlRegisterFields : MachineInv midWrite ∧ midWrite.fault = none := by
  exact ⟨witness_inv_executing, rfl⟩

/-- STARTSCROLL without an answer to its first transfer and to its last; the answers that follow are free. -/
theorem witness_SuspendedOperationEndsAsAtOnce :
    (opFrames (.startScroll true) (told 128 32 .perByte []))[0]? = some [0x00, 0x2E]
    ∧ (told 128 32 .perByte []).answers = List.replicate 0 .ok ∧ (told 128 32 .perByte []).faults = []
    ∧ (∀ r ∈ (told 128 32 .perByte []).requests.head?, r.overlaps = false)
    ∧ (opFrames (.startScroll true) (told 128 32 .perByte (oks 8)))[8]? = some [0x00, 0x2F]
    ∧ (told 128 32 .perByte (oks 8)).answers = List.replicate 8 .ok := by
  decide

/-- An operation with two transfers left and both answers given. -/
theorem witness_ResumedOperationAgrees :
    ∃ s : State, s = executing [.cmd (.setStartLine 0), .cmd (.ctrlData [1])] (oks 2) ∧ s.faults = [] ∧ s.requests = []
      ∧ s.op = some .write ∧ s.busy = false ∧ (∀ it ∈ s.txq, itemOK it = true)
      ∧ queueTransfers s.cfg s.txq ≤ s.answers.length := by
  exact ⟨_, rfl, rfl, rfl, rfl, rfl, by decide, by decide⟩

end Sys2Proof.Tests
end

/-! SUPPORT. The transmitting operations as queues (log 11): what each queues and from which state, that the queue's
transfers are those of the spec, and what running a queue leaves unchanged. -/

section
namespace Sys2Proof.Machine

open Sys2Proof.Claims

/-! ### A transmitting operation is a queue run from its start -/

/-- The items an operation queues. -/
def opItems (o : TxOp) (s : State) : List TxItem :=
  match o with
  | .initialise => initItems s.cfg
  | .write => writeItems s
  | .clearScreen => writeItems (clearFb s)
  | .startScroll left => startScrollItems s.cfg left
  | .stopScroll => stopScrollItems

/-- The state from which an operation runs its items: CLEARSCREEN has cleared FB (R148), INITIALIZE has set FSM
(R144). -/
def opStart (o : TxOp) (s : State) : State := { beginOp o s with fb := opFb o s, fsm := opFsm o s }

theorem exec_opInstr (o : TxOp) (s : State) : exec (opInstr o) s = .next (runQueue (opItems o s) (opStart o s)) := by
  cases o <;> rfl

/-- What an operation queues does not depend on the answers. -/
theorem opItems_withAnswers (o : TxOp) (as : List Answer) (s : State) : opItems o (withAnswers as s) = opItems o s := by
  cases o <;> rfl

theorem opStart_withAnswers (o : TxOp) (as : List Answer) (s : State) :
    opStart o (withAnswers as s) = withAnswers as (opStart o s) := by
  cases o <;> rfl

theorem initSeq_lane (c : Config) : ∀ i ∈ initSeq c, laneOf i = .command := by
  simp [initSeq, laneOf]

theorem startScroll_lane (c : Config) (left : Bool) :
    ∀ i ∈ [Instr.scrollDeactivate, scrollSetup c left, .scrollActivate], laneOf i = .command := by
  cases left <;> simp [scrollSetup, laneOf]

theorem writeItems_lane (s : State) (i : Instr) (h : .cmd i ∈ writeItems s) : laneOf i ≠ .request := by
  simp only [writeItems, List.cons_append, List.nil_append, List.mem_cons, List.mem_flatMap, TxItem.cmd.injEq,
    List.not_mem_nil, or_false] at h
  rcases h with rfl | rfl | ⟨b, -, rfl | rfl⟩ <;> simp [laneOf]

/-- An operation queues commands, transfers and assignments, never a request. -/
theorem opItems_lane (o : TxOp) (s : State) (i : Instr) (h : .cmd i ∈ opItems o s) : laneOf i ≠ .request := by
  cases o with
  | initialise =>
    have hi : i ∈ initSeq s.cfg := by simpa [opItems, initItems] using h
    simp [initSeq_lane s.cfg i hi]
  | write => exact writeItems_lane s i h
  | clearScreen => exact writeItems_lane (clearFb s) i h
  | startScroll left =>
    have hi : i ∈ [.scrollDeactivate, scrollSetup s.cfg left, .scrollActivate] := by
      simpa [opItems, startScrollItems] using h
    simp [startScroll_lane s.cfg left i hi]
  | stopScroll =>
    obtain rfl : i = .scrollDeactivate := by simpa [opItems, stopScrollItems] using h
    simp [laneOf]

/-! ### The queue's transfers are the operation's -/

/-- `Cmd` of one command (R63). -/
theorem cutCommand_bytes (split : CmdSplit) (c : List Byte) :
    (cutCommand split c).map transferBytes = cut split [c] := by
  cases split <;> simp [cutCommand, cut, transferBytes]

theorem cut_cons (split : CmdSplit) (c : List Byte) (cs : List (List Byte)) :
    cut split (c :: cs) = cut split [c] ++ cut split cs := by
  cases split <;> simp [cut]

theorem itemFrames_command (c : Config) (i : Instr) (h : laneOf i = .command) :
    (itemFrames c (.cmd i)).map transferBytes = cut c.split [cmdBytes c.cmdtab i] := by
  simp only [itemFrames, framesOf, h, cutCommand_bytes]

/-- Commands in order are sent as `Cmd` of each (R63). -/
theorem queueFrames_commands (c : Config) (is : List Instr) (h : ∀ i ∈ is, laneOf i = .command) :
    (queueFrames c (is.map .cmd)).map transferBytes = cut c.split (is.map (cmdBytes c.cmdtab)) := by
  induction is with
  | nil => cases hs : c.split <;> simp [queueFrames, cut]
  | cons i is ih =>
    rw [List.map_cons, queueFrames_cons, List.map_append, itemFrames_command c i (h i (List.mem_cons_self ..)),
      ih fun j hj => h j (List.mem_cons_of_mem _ hj), List.map_cons, ← cut_cons]

/-- The commands of INITIALIZE are those of R140. -/
theorem initSeq_bytes (c : Config) : (initSeq c).map (cmdBytes c.cmdtab) = initCommands c := by
  simp [initSeq, initCommands, cmdBytes, paramByte]

theorem burst_eq_payload (s : State) (b : Nat) : burst s b = payload s b := by
  have h : min (16 * b + 16) (fbSize s.cfg) - 16 * b = min 16 (fbSize s.cfg - 16 * b) := by omega
  simp only [burst, payload, burstCap, h]

/-- SET_START_LINE 0 is one byte, so CMD_SPLIT does not matter to it (R63, R70). -/
theorem itemFrames_startLine (c : Config) :
    (itemFrames c (.cmd (.setStartLine 0#6))).map transferBytes = [[0x00#8, c.cmdtab.setStartLine]] := by
  rw [itemFrames_command c _ rfl]
  cases c.split <;> simp [cut, cmdBytes]

theorem writeItems_frames (s : State) : (queueFrames s.cfg (writeItems s)).map transferBytes = writeFrames s := by
  have hwin := queueFrames_commands s.cfg
    [.columnAddr 0x00#8 (paramByte (s.cfg.w - 1)), .pageAddr 0x00#8 (paramByte (pages s.cfg - 1))] (by simp [laneOf])
  have hburst : ∀ b, (queueFrames s.cfg [.cmd (.setStartLine 0#6), .cmd (.ctrlData (burst s b))]).map transferBytes
      = [[0x00#8, s.cfg.cmdtab.setStartLine], 0x40#8 :: payload s b] := by
    intro b
    rw [queueFrames_cons, List.map_append, itemFrames_startLine, burst_eq_payload]
    rfl
  rw [writeItems, queueFrames_append, List.map_append, writeFrames]
  congr 1
  rw [queueFrames, List.flatMap_assoc, List.map_flatMap]
  exact congrArg (List.flatMap · _) (funext hburst)

/-- The transfers that an operation queues are its transfers of the spec (R144, R146, R148, R150, R151). -/
theorem opItems_frames (o : TxOp) (s : State) :
    (queueFrames s.cfg (opItems o s)).map transferBytes = opFrames o s := by
  cases o with
  | initialise =>
    have h := queueFrames_commands s.cfg (initSeq s.cfg) (initSeq_lane s.cfg)
    rw [initSeq_bytes] at h
    rw [opItems, initItems, queueFrames_append, List.map_append, h]
    exact List.append_nil _
  | write => exact writeItems_frames s
  | clearScreen => exact writeItems_frames (clearFb s)
  | startScroll left =>
    refine (queueFrames_commands s.cfg _ (startScroll_lane s.cfg left)).trans ?_
    cases left <;> rfl
  | stopScroll =>
    refine (queueFrames_commands s.cfg [.scrollDeactivate] (by simp [laneOf])).trans ?_
    simp only [opFrames, stopScrollFrames]
    cases s.cfg.split <;> rfl

/-! ### Steps of an idle block, and of a queue whose answers are there -/

/-- An idle block with no request waits for one (R191). -/
theorem step_waits (s : State) (hf : s.faults = []) (ho : s.op = none) (hr : s.requests = []) : step s = .next s := by
  rw [step, fetch_idle s hf ho (by simp [hr]), fetchRequest, hr]

/-- An idle block takes the request at the head of its port and runs what it decodes (R96, R184). -/
theorem step_request (s : State) (r : Request) (rs : List Request) (i : Instr) (hf : s.faults = []) (ho : s.op = none)
    (hr : s.requests = r :: rs) (halone : r.overlaps = false) (hd : decodeRequest r.bytes = .ok i) :
    step s = exec i { s with requests := rs } := by
  rw [step, fetch_idle s hf ho (by simp [hr, halone]), fetchRequest]
  simp only [hr, hd]

/-- A state that a step does not leave is not left by any number of them. -/
theorem run_of_step_eq_self (n : Nat) (s : State) (h : step s = .next s) : Sys2Proof.core.run n s = .next s := by
  induction n with
  | zero => rfl
  | succ n ih => rw [run_succ n s s h, ih]

/-- With enough answers no item waits: one step an item, and one for the end, run a queue to its end, or to its first
failure and no further. -/
theorem run_answered_queue (q : List TxItem) (s : State) (o : TxOp) (hf : s.faults = []) (hr : s.requests = [])
    (ho : s.op = some o) (hb : s.busy = false) (hq : s.txq = q) (hi : ∀ i, .cmd i ∈ q → laneOf i ≠ .request)
    (ha : (queueFrames s.cfg q).length ≤ s.answers.length) :
    Sys2Proof.core.run (q.length + 1) s = .next (runQueue q s) := by
  induction q generalizing s with
  | nil =>
    refine run_succ 0 s _ ?_
    rw [step, fetch_executing s o hf ho (by simp [hr])]
    simp [fetchItem, hb, hq, runQueue]
  | cons it q ih =>
    have hs := step_item s o it q hf ho (by simp [hr]) hb hq fun i h => hi i (h ▸ List.mem_cons_self ..)
    rw [runQueue_cons, List.length_cons]
    rw [queueFrames_cons, List.length_append] at ha
    rcases answers_cases (itemFrames s.cfg it).length s.answers with
      ⟨bs, hbs⟩ | ⟨j, k, bs, hj, hbs⟩ | ⟨j, hj, hbs⟩
    · rw [runItem_ok it { s with txq := q } bs hbs] at hs ⊢
      refine (run_succ _ s _ hs).trans (ih _ hf hr ho ?_ rfl (fun i h => hi i (List.mem_cons_of_mem _ h)) ?_)
      · simp [sentOk, hb]
      · rw [hbs, List.length_append, List.length_replicate] at ha
        exact Nat.le_of_add_le_add_left ha
    · have e := runItem_err it { s with txq := q } j k bs _ (List.getElem?_eq_getElem hj) hbs
      rw [e] at hs ⊢
      exact (run_succ _ s _ hs).trans (run_of_step_eq_self _ _ (step_waits _ hf rfl hr))
    · rw [hbs, List.length_replicate] at ha
      omega

/-! ### What running a queue leaves unchanged -/

/-- Nothing outside the transmitter has changed: parameters, framebuffer, font, model marks and request port (R36). -/
structure KeepsBlock (s t : State) : Prop where
  cfg : t.cfg = s.cfg
  draw : t.draw = s.draw
  fb : t.fb = s.fb
  font : t.font = s.font
  faults : t.faults = s.faults
  refused : t.refused = s.refused
  requests : t.requests = s.requests

theorem KeepsBlock.trans {s t u : State} (h : KeepsBlock s t) (h' : KeepsBlock t u) : KeepsBlock s u :=
  ⟨h'.cfg.trans h.cfg, h'.draw.trans h.draw, h'.fb.trans h.fb, h'.font.trans h.font, h'.faults.trans h.faults,
    h'.refused.trans h.refused, h'.requests.trans h.requests⟩

/-- Transfers keep the block, whether they are all answered, fail or wait. -/
theorem sendFrames_keepsBlock (fs : List Instr) (l : List TxItem) (s : State) :
    KeepsBlock s (sendFrames fs l s).state := by
  rcases answers_cases fs.length s.answers with ⟨bs, h⟩ | ⟨j, k, bs, hj, h⟩ | ⟨j, hj, h⟩
  · rw [sendFrames_ok fs l s bs h]
    exact ⟨rfl, rfl, rfl, rfl, rfl, rfl, rfl⟩
  · rw [sendFrames_err fs l s j k bs _ (List.getElem?_eq_getElem hj) h]
    exact ⟨rfl, rfl, rfl, rfl, rfl, rfl, rfl⟩
  · rw [sendFrames_wait fs l s j _ (List.getElem?_eq_getElem hj) h]
    exact ⟨rfl, rfl, rfl, rfl, rfl, rfl, rfl⟩

theorem transmit_keepsBlock (i : Instr) (s : State) : KeepsBlock s (transmit i s).state :=
  sendFrames_keepsBlock _ _ s

theorem runItem_keepsBlock (it : TxItem) (s : State) : KeepsBlock s (runItem it s).state := by
  rw [runItem_frames]
  exact sendFrames_keepsBlock _ _ s

theorem runQueue_keepsBlock (q : List TxItem) (s : State) : KeepsBlock s (runQueue q s) :=
  runQueue_keeps (KeepsBlock s) q s ⟨rfl, rfl, rfl, rfl, rfl, rfl, rfl⟩ (fun _ _ h => { h with })
    (fun it _ t h => h.trans (runItem_keepsBlock it t)) (fun _ h => { h with })

/-- A transmitting operation marks no model fault. -/
theorem exec_opInstr_faults (o : TxOp) (s t : State) (h : exec (opInstr o) s = .next t) : t.faults = s.faults := by
  rw [exec_opInstr] at h
  cases h
  exact (runQueue_keepsBlock (opItems o s) (opStart o s)).faults

/-- A command or a transfer marks no model fault. -/
theorem exec_transmit_faults (i : Instr) (s t : State) (hl : laneOf i ≠ .request) (h : exec i s = .next t) :
    t.faults = s.faults := by
  rw [exec_transmit i s hl] at h
  cases h
  exact (transmit_keepsBlock i s).faults

/-! ### Which model faults a drawing can mark -/

/-- The only reason that FAULTS can have gained is a missing glyph (R122). -/
def GainsOnlyMissingGlyph (s t : State) : Prop := ∀ r ∈ t.faults, r ∈ s.faults ∨ r = .missingFallbackGlyph

theorem GainsOnlyMissingGlyph.of_eq {s t : State} (h : t.faults = s.faults) : GainsOnlyMissingGlyph s t :=
  fun _ hr => .inl (h ▸ hr)

theorem glyphIndex_error (f : Font) (c : Byte) (r : FaultReason) (h : glyphIndex f c = .error r) :
    r = .missingFallbackGlyph := by
  simp only [glyphIndex] at h
  split at h
  · cases h
  · split at h <;> cases h
    rfl

theorem Paints.faults_eq {S : Int → Int → Prop} {on : Bool} {s t : State} (h : Paints S on s t) :
    t.faults = s.faults := by
  rw [h.frame]

/-- A drawing that goes through marks nothing. -/
theorem finish_painted {S : Int → Int → Prop} {on : Bool} {s : State} {f : Flow}
    (h : ∃ t, f = .go t ∧ Paints S on s t) : GainsOnlyMissingGlyph s (finish f) := by
  obtain ⟨t, rfl, hp⟩ := h
  exact .of_eq hp.faults_eq

/-- A drawing that ends at a missing glyph marks that. -/
theorem finish_missing {S : Int → Int → Prop} {on : Bool} {s t : State} (h : Paints S on s t) :
    GainsOnlyMissingGlyph s (finish (.fault .missingFallbackGlyph t)) := by
  intro r hr
  rw [finish_fault, markFault_faults, h.faults_eq] at hr
  split at hr
  · exact .inl hr
  · simpa using hr

theorem finish_drawGlyph (f : Font) (x y : Int) (c : Byte) (s : State) (hc : admitted s.cfg = true) :
    GainsOnlyMissingGlyph s (finish (drawGlyph f x y c s)) := by
  cases hg : glyphIndex f c with
  | ok g => exact finish_painted (drawGlyph_paints f x y c g s hc hg)
  | error r =>
    rw [drawGlyph_missing f x y c r s hg, glyphIndex_error f c r hg]
    exact finish_missing (Paints.nothing true s)

theorem finish_textLoop (f : Font) (x : Int) (text : List Byte) (cx cy : Int) (s : State) (hc : admitted s.cfg = true) :
    GainsOnlyMissingGlyph s (finish (textLoop f x text cx cy s)) := by
  rcases textLoop_paints f x s.cfg hc text cx cy s rfl with ⟨t, S, h, hp⟩ | ⟨t, S, h, hp⟩
  · exact finish_painted ⟨t, h, hp⟩
  · rw [h]
    exact finish_missing hp

/-- In the admitted geometry a host operation marks no model fault but a missing glyph. -/
theorem exec_request_gains (i : Instr) (s t : State) (hc : admitted s.cfg = true) (hl : laneOf i = .request)
    (h : exec i s = .next t) : GainsOnlyMissingGlyph s t := by
  cases i with
  | prepare =>
    cases h
    exact .of_eq rfl
  | setPixel x y on =>
    cases h
    exact finish_painted (clippedPut_paints x y on s hc)
  | drawLine x0 y0 x1 y1 on =>
    cases h
    split
    next hok => exact finish_painted (lineFill_paints _ on s hc hok)
    next => exact .of_eq rfl
  | drawRect x y w h on =>
    cases h
    split
    next hok => exact finish_painted (rectFill_paints _ on s hc (Bool.and_eq_true_iff.mp hok).2)
    next => exact .of_eq rfl
  | setFont font =>
    cases h
    cases font with
    | none => exact .of_eq rfl
    | some f =>
      dsimp only
      split
      · exact .of_eq rfl
      · exact .of_eq rfl
  | drawChar x y c =>
    cases h
    exact finish_drawGlyph s.font x y c s hc
  | drawText x y text =>
    cases h
    exact finish_textLoop s.font x text x y s hc
  | initialise => exact .of_eq (exec_opInstr_faults .initialise s t h)
  | write => exact .of_eq (exec_opInstr_faults .write s t h)
  | clearScreen => exact .of_eq (exec_opInstr_faults .clearScreen s t h)
  | startScroll left => exact .of_eq (exec_opInstr_faults (.startScroll left) s t h)
  | stopScroll => exact .of_eq (exec_opInstr_faults .stopScroll s t h)
  | _ => cases hl

/-- In the admitted geometry no instruction marks a model fault but a missing glyph (R174). -/
theorem exec_gains (i : Instr) (s t : State) (hc : admitted s.cfg = true) (h : exec i s = .next t) :
    GainsOnlyMissingGlyph s t := by
  by_cases hl : laneOf i = .request
  · exact exec_request_gains i s t hc hl h
  · exact .of_eq (exec_transmit_faults i s t hl h)

end Sys2Proof.Machine

end

/-! SUPPORT. The statements of the spec's scope, settled. -/

section
namespace Sys2Proof.Proofs

open Sys2Proof.Machine Sys2Proof.Claims

/-- Settles O56: the operation is its queue run from its start, and a queue that waits is brought on by steps
(`run_resumed`). -/
theorem suspendedOperationEndsAsAtOnce : Obligations.SuspendedOperationEndsAsAtOnce := by
  unfold Obligations.SuspendedOperationEndsAsAtOnce
  intro o s j frame as hframe hans hfaults halone
  have hj : j < (queueFrames s.cfg (opItems o s)).length := by
    rw [← List.length_map (f := transferBytes), opItems_frames]
    exact (List.getElem?_eq_some_iff.mp hframe).1
  obtain ⟨n, hn⟩ := run_resumed (opItems o s) (opStart o s) o j as hj hans hfaults rfl halone (opItems_lane o s)
  refine ⟨_, _, n, exec_opInstr o s, exec_opInstr o _, ?_⟩
  rw [opItems_withAnswers, opStart_withAnswers]
  exact hn

/-- Settles O55: steps take the queue item by item, and a failed operation leaves an idle block that stays
(`run_answered_queue`). -/
theorem resumedOperationAgrees : Obligations.ResumedOperationAgrees := by
  unfold Obligations.ResumedOperationAgrees
  intro s o hf hr ho hb hok ha
  rw [queueTransfers_eq] at ha
  refine ⟨_, run_answered_queue s.txq s o hf hr ho hb rfl ?_ ha, rfl⟩
  intro i hi
  have hit := hok _ hi
  simp only [itemOK, isTransmitter, Bool.and_eq_true, decide_eq_true_eq] at hit
  exact hit.1

/-- Settles O24: of the two model faults only a missing glyph can be marked (`exec_gains`). -/
theorem noInstructionLeavesTheFramebuffer : Obligations.NoInstructionLeavesTheFramebuffer := by
  unfold Obligations.NoInstructionLeavesTheFramebuffer
  intro i s t hc h hmem
  exact (exec_gains i s t hc h _ hmem).resolve_right (by decide)

/-- Settles O11: an idle block takes its request (`step_request`). -/
theorem stepRunsTheDecodedRequest : Obligations.StepRunsTheDecodedRequest := by
  unfold Obligations.StepRunsTheDecodedRequest
  intro s r rs i hf ho hr halone hd
  exact step_request s r rs i hf ho hr halone hd

/-- Settles O44: the rows of the default table and the default parameters, read off. -/
theorem defaultCommandBytes : Obligations.DefaultCommandBytes := by
  unfold Obligations.DefaultCommandBytes
  intro p q r
  exact ⟨rfl, rfl, rfl, rfl, rfl, rfl, rfl⟩

end Sys2Proof.Proofs
end

/-! SUPPORT. What executing an instruction can do, said once for each of the three kinds: a raster or text operation,
a transmitting operation, and a controller command or a transfer. -/

section
namespace Sys2Proof.Machine

open Sys2Proof.Claims

/-! ### The three kinds of instruction -/

/-- Every instruction draws, is a transmitting operation, or is a command or transfer of one (R60, R62). -/
theorem instr_kinds (i : Instr) : isDrawing i = true ∨ (∃ o, i = opInstr o) ∨ laneOf i ≠ .request := by
  cases i with
  | initialise => exact .inr (.inl ⟨.initialise, rfl⟩)
  | write => exact .inr (.inl ⟨.write, rfl⟩)
  | clearScreen => exact .inr (.inl ⟨.clearScreen, rfl⟩)
  | startScroll left => exact .inr (.inl ⟨.startScroll left, rfl⟩)
  | stopScroll => exact .inr (.inl ⟨.stopScroll, rfl⟩)
  | prepare | setPixel | drawLine | drawRect | setFont | drawChar | drawText => exact .inl rfl
  | _ => exact .inr (.inr (by simp [laneOf]))

/-- A host operation draws or is a transmitting operation. -/
theorem request_kinds (i : Instr) (h : laneOf i = .request) : isDrawing i = true ∨ ∃ o, i = opInstr o :=
  (instr_kinds i).imp_right (·.resolve_right (not_not_intro h))

/-! ### Raster and text operations -/

/-- The framebuffer's list stays in its form and inside the buffer (R22). -/
structure CellsKept (c : Config) (m m' : Memory) : Prop where
  memWf : Memory.wf m = true → Memory.wf m' = true
  memIn : (∀ d ∈ m, d.1 < fbSize c) → ∀ d ∈ m', d.1 < fbSize c

theorem CellsKept.refl (c : Config) (m : Memory) : CellsKept c m m := ⟨id, id⟩

theorem CellsKept.clear (c : Config) (m : Memory) : CellsKept c m (Memory.clear m (fbSize c)) :=
  ⟨Memory.wf_clear m _, Memory.mem_clear m _⟩

theorem Paints.cellsKept {S : Int → Int → Prop} {on : Bool} {s t : State} (h : Paints S on s t) :
    CellsKept s.cfg s.fb t.fb :=
  ⟨h.memWf, h.memIn⟩

/-- Every way a raster or text operation can end: it drew and ended OK, it drew and faulted, its operands were invalid,
or it is SETFONT in one of its three outcomes (R101 to R106, R120, R124, R126). -/
inductive DrawCase (i : Instr) (s t : State) : Prop where
  | drew (draws : ∀ f, i ≠ .setFont f) (m : Memory) (cells : admitted s.cfg = true → CellsKept s.cfg s.fb m)
      (ends : t = setStatus .ok .nothing { s with fb := m })
  | faulted (draws : ∀ f, i ≠ .setFont f) (m : Memory) (cells : admitted s.cfg = true → CellsKept s.cfg s.fb m)
      (r : FaultReason) (ends : t = markFault r { s with fb := m })
  | invalid (draws : ∀ f, i ≠ .setFont f) (o : Byte) (ends : t = setStatus .invalidArgument (.opcode o) s)
  | noFont (absent : i = .setFont none) (o : Byte) (ends : t = setStatus .configurationError (.opcode o) s)
  | installed (f : Font) (present : i = .setFont (some f)) (ok : fontOK f = true)
      (ends : t = setStatus .ok .nothing { s with font := f })
  | illFormed (f : Font) (present : i = .setFont (some f)) (ends : t = refuse .illFormedFont s)

/-- A drawing that changed only FB, and that inside the buffer, ends in one of two ways. -/
theorem drawCase_finish {i : Instr} {s : State} (F : Flow) (hi : ∀ f, i ≠ .setFont f)
    (hframe : F.state = { s with fb := F.state.fb })
    (hcells : admitted s.cfg = true → CellsKept s.cfg s.fb F.state.fb) : DrawCase i s (finish F) := by
  cases F with
  | go t => exact .drew hi t.fb hcells (congrArg (setStatus .ok .nothing) hframe)
  | fault r t => exact .faulted hi t.fb hcells r (congrArg (markFault r) hframe)

/-- A drawing that goes through by painting keeps the cells. -/
theorem cellsKept_of_paints {S : Int → Int → Prop} {on : Bool} {s : State} {F : Flow}
    (h : ∃ t, F = .go t ∧ Paints S on s t) : CellsKept s.cfg s.fb F.state.fb := by
  obtain ⟨t, rfl, hp⟩ := h
  exact hp.cellsKept

theorem drawGlyph_cellsKept (f : Font) (x y : Int) (c : Byte) (s : State) (hc : admitted s.cfg = true) :
    CellsKept s.cfg s.fb (drawGlyph f x y c s).state.fb := by
  cases hg : glyphIndex f c with
  | ok g => exact cellsKept_of_paints (drawGlyph_paints f x y c g s hc hg)
  | error r =>
    rw [drawGlyph_missing f x y c r s hg]
    exact .refl _ _

theorem textLoop_cellsKept (f : Font) (x : Int) (text : List Byte) (cx cy : Int) (s : State)
    (hc : admitted s.cfg = true) : CellsKept s.cfg s.fb (textLoop f x text cx cy s).state.fb := by
  rcases textLoop_paints f x s.cfg hc text cx cy s rfl with ⟨t, S, h, hp⟩ | ⟨t, S, h, hp⟩ <;> rw [h] <;>
    exact hp.cellsKept

/-- What a raster or text operation can do, in every state. -/
theorem drawing_cases (i : Instr) (s t : State) (hi : isDrawing i = true) (h : exec i s = .next t) :
    DrawCase i s t := by
  cases i with
  | prepare =>
    cases h
    exact drawCase_finish (.go (clearFb s)) nofun rfl fun _ => .clear _ _
  | setPixel x y on =>
    cases h
    exact drawCase_finish _ nofun (clippedPut_onlyFb x y on s) fun hc =>
      cellsKept_of_paints (clippedPut_paints x y on s hc)
  | drawLine x0 y0 x1 y1 on =>
    cases h
    split
    next hok =>
      exact drawCase_finish _ nofun (lineFill_onlyFb _ on s) fun hc =>
        cellsKept_of_paints (lineFill_paints _ on s hc hok)
    next => exact .invalid nofun 0x03#8 rfl
  | drawRect x y w h on =>
    cases h
    split
    next hok =>
      exact drawCase_finish _ nofun (forEach_onlyFb _ _ s fun e u => lineFill_onlyFb e on u) fun hc =>
        cellsKept_of_paints (rectFill_paints _ on s hc (Bool.and_eq_true_iff.mp hok).2)
    next => exact .invalid nofun 0x04#8 rfl
  | setFont font =>
    cases h
    cases font with
    | none => exact .noFont rfl 0x05#8 rfl
    | some f =>
      dsimp only
      split
      next hok => exact .installed f rfl hok rfl
      next => exact .illFormed f rfl rfl
  | drawChar x y c =>
    cases h
    exact drawCase_finish _ nofun (drawGlyph_onlyFb s.font x y c s) (drawGlyph_cellsKept s.font x y c s)
  | drawText x y text =>
    cases h
    exact drawCase_finish _ nofun (textLoop_onlyFb s.font x text x y s) (textLoop_cellsKept s.font x text x y s)
  | _ => cases hi

/-- A raster or text operation changes only FB, FONT, STATUS and the marks, and of FB and FONT only its own (R36). -/
theorem drawing_frame (i : Instr) (s t : State) (hi : isDrawing i = true) (h : exec i s = .next t) :
    t = { s with fb := t.fb, font := t.font, status := t.status, statusInfo := t.statusInfo,
                 statusValid := t.statusValid, faults := t.faults, refused := t.refused }
      ∧ ((∀ f, i ≠ .setFont f) → t.font = s.font) ∧ ((∃ f, i = .setFont f) → t.fb = s.fb) := by
  cases drawing_cases i s t hi h with
  | drew draws m _ ends | faulted draws m _ r ends =>
    subst ends
    exact ⟨rfl, fun _ => rfl, fun ⟨f, hf⟩ => absurd hf (draws f)⟩
  | invalid _ o ends =>
    subst ends
    exact ⟨rfl, fun _ => rfl, fun _ => rfl⟩
  | noFont absent o ends =>
    subst ends
    exact ⟨rfl, fun hn => absurd absent (hn _), fun _ => rfl⟩
  | installed f present _ ends | illFormed f present ends =>
    subst ends
    exact ⟨rfl, fun hn => absurd present (hn _), fun _ => rfl⟩

/-- A raster or text operation clears no mark (R175, R176). -/
theorem drawing_marks (i : Instr) (s t : State) (hi : isDrawing i = true) (h : exec i s = .next t) :
    (∀ r ∈ s.faults, r ∈ t.faults) ∧ (s.refused ≠ none → t.refused ≠ none) := by
  cases drawing_cases i s t hi h with
  | drew _ m _ ends | invalid _ o ends | noFont _ o ends | installed f _ _ ends =>
    subst ends
    exact ⟨fun _ => id, id⟩
  | faulted _ m _ r ends =>
    subst ends
    refine ⟨fun q hq => ?_, id⟩
    rw [markFault_faults]
    split
    · exact hq
    · exact List.mem_append_left _ hq
  | illFormed f _ ends =>
    subst ends
    exact ⟨fun _ => id, fun _ => nofun⟩

/-! ### Transfers and items -/

/-- However its transfers go, a sequence of them leaves FSM and SCROLL, or it went through and did its assignments. -/
theorem sendFrames_control (fs : List Instr) (l : List TxItem) (s : State) :
    ((sendFrames fs l s).state.fsm = s.fsm ∧ (sendFrames fs l s).state.scroll = s.scroll)
      ∨ ((sendFrames fs l s).state.fsm = l.foldl fsmOf s.fsm
        ∧ (sendFrames fs l s).state.scroll = l.foldl scrollOf s.scroll) := by
  rcases answers_cases fs.length s.answers with ⟨bs, h⟩ | ⟨j, k, bs, hj, h⟩ | ⟨j, hj, h⟩
  · rw [sendFrames_ok fs l s bs h]
    exact .inr ⟨rfl, rfl⟩
  · rw [sendFrames_err fs l s j k bs _ (List.getElem?_eq_getElem hj) h]
    exact .inl ⟨rfl, rfl⟩
  · rw [sendFrames_wait fs l s j _ (List.getElem?_eq_getElem hj) h]
    exact .inl ⟨rfl, rfl⟩

/-- Transfers keep a latched failure and every TLOG entry (R26, R29). -/
structure KeepsRecords (s t : State) : Prop where
  fault : ∀ f, s.fault = some f → t.fault = some f
  tlog : s.tlog <+: t.tlog

theorem KeepsRecords.of_eq {s t : State} (hf : t.fault = s.fault) (hl : t.tlog = s.tlog) : KeepsRecords s t :=
  ⟨fun _ h => hf.trans h, hl ▸ List.prefix_rfl⟩

theorem KeepsRecords.trans {s t u : State} (h : KeepsRecords s t) (h' : KeepsRecords t u) : KeepsRecords s u :=
  ⟨fun f hf => h'.fault f (h.fault f hf), h.tlog.trans h'.tlog⟩

theorem latch_of_some {f : Option FaultInfo} {g : FaultInfo} (new : FaultInfo) (h : f = some g) :
    latch f new = some g := by
  rw [h, latch_some]

theorem sendFrames_keepsRecords (fs : List Instr) (l : List TxItem) (s : State) :
    KeepsRecords s (sendFrames fs l s).state := by
  rcases answers_cases fs.length s.answers with ⟨bs, h⟩ | ⟨j, k, bs, hj, h⟩ | ⟨j, hj, h⟩
  · rw [sendFrames_ok fs l s bs h]
    exact ⟨fun _ => id, List.prefix_append _ _⟩
  · rw [sendFrames_err fs l s j k bs _ (List.getElem?_eq_getElem hj) h]
    exact ⟨fun _ hf => latch_of_some _ hf, List.prefix_append _ _⟩
  · rw [sendFrames_wait fs l s j _ (List.getElem?_eq_getElem hj) h]
    exact ⟨fun _ => id, List.prefix_append _ _⟩

theorem runItem_keepsRecords (it : TxItem) (s : State) : KeepsRecords s (runItem it s).state := by
  rw [runItem_frames]
  exact sendFrames_keepsRecords _ _ s

theorem runQueue_keepsRecords (q : List TxItem) (s : State) : KeepsRecords s (runQueue q s) :=
  runQueue_keeps (KeepsRecords s) q s (.of_eq rfl rfl) (fun _ _ h => { h with })
    (fun it _ t h => h.trans (runItem_keepsRecords it t)) (fun _ h => { h with })

/-- A command assigns nothing to FSM. -/
theorem scrollAfter_fsm (op : Option TxOp) (i : Instr) (f : Fsm) : (scrollAfter op i).foldl fsmOf f = f := by
  unfold scrollAfter
  split <;> rfl

/-- FSM after an item is what the item assigns to it (R141). -/
theorem runItem_fsm (it : TxItem) (s : State) : (runItem it s).state.fsm = fsmOf s.fsm it := by
  cases it with
  | cmd i =>
    rcases sendFrames_control (framesOf s.cfg i) (scrollAfter s.op i) s with ⟨h, -⟩ | ⟨h, -⟩
    · exact h
    · exact h.trans (scrollAfter_fsm s.op i s.fsm)
  | setFsm g => rfl
  | setScroll d => rfl

theorem transmit_fsm (i : Instr) (s : State) : (transmit i s).state.fsm = s.fsm := runItem_fsm (.cmd i) s

/-- An item that assigns nothing to SCROLL leaves it (R149). -/
theorem runItem_scroll (it : TxItem) (s : State) (h : ∀ op, ∀ x ∈ itemAfter op it, ∀ d, scrollOf d x = d) :
    (runItem it s).state.scroll = s.scroll := by
  rw [runItem_frames]
  rcases sendFrames_control (itemFrames s.cfg it) (itemAfter s.op it) s with ⟨-, hs⟩ | ⟨-, hs⟩
  · exact hs
  · rw [hs, foldl_scroll_id _ _ (h s.op)]

/-- Once FSM has left Uninitialized, running a queue of an operation's items does not take it back (R141). -/
theorem runQueue_initialized (q : List TxItem) (s : State) (hq : ∀ it ∈ q, itemOK it = true)
    (hs : s.fsm ≠ .uninitialized) : (runQueue q s).fsm ≠ .uninitialized := by
  refine runQueue_keeps (·.fsm ≠ .uninitialized) q s hs (fun _ _ h => h) (fun it hit t ht => ?_) (fun _ h => h)
  rw [runItem_fsm]
  exact foldl_fsm_initialized [it] (by simpa using hq it hit) t.fsm ht

/-! ### Transmitting operations -/

/-- A burst of the framebuffer is a payload of 1 to 16 bytes (R64, R142). -/
theorem burst_length (s : State) (b : Nat) (hb : b < burstCount s.cfg) :
    1 ≤ (burst s b).length ∧ (burst s b).length ≤ 16 := by
  unfold burstCount burstCap at hb
  simp only [burst, burstCap, List.length_map, List.length_range]
  omega

theorem writeItems_ok (s : State) : ∀ it ∈ writeItems s, itemOK it = true := by
  intro it hit
  simp only [writeItems, List.cons_append, List.nil_append, List.mem_cons, List.mem_flatMap, List.mem_range,
    List.not_mem_nil, or_false] at hit
  rcases hit with rfl | rfl | ⟨b, hb, rfl | rfl⟩
  · rfl
  · rfl
  · rfl
  · simpa [itemOK, isTransmitter, laneOf, wellFormed] using burst_length s b hb

/-- An operation queues well-formed commands and transfers, and the assignments of its own (R140, R146, R150, R151). -/
theorem opItems_ok (o : TxOp) (s : State) : ∀ it ∈ opItems o s, itemOK it = true := by
  cases o with
  | initialise => simp [opItems, initItems, initSeq, itemOK, isTransmitter, laneOf, wellFormed]
  | write => exact writeItems_ok s
  | clearScreen => exact writeItems_ok (clearFb s)
  | startScroll left =>
    cases left <;> simp [opItems, startScrollItems, scrollSetup, itemOK, isTransmitter, laneOf, wellFormed]
  | stopScroll => simp [opItems, stopScrollItems, itemOK, isTransmitter, laneOf, wellFormed]

/-- Only INITIALIZE queues an assignment to FSM (R141). -/
theorem opItems_fsm (o : TxOp) (s : State) (ho : opInstr o ≠ .initialise) :
    ∀ it ∈ opItems o s, ∀ f, fsmOf f it = f := by
  cases o with
  | initialise => exact absurd rfl ho
  | write => simp +contextual [opItems, writeItems, fsmOf, or_imp]
  | clearScreen => simp +contextual [opItems, writeItems, fsmOf, or_imp]
  | startScroll left => simp [opItems, startScrollItems, fsmOf]
  | stopScroll => simp [opItems, stopScrollItems, fsmOf]

/-- Only STARTSCROLL and STOPSCROLL queue a command that moves SCROLL (R149). -/
theorem opItems_scroll (o : TxOp) (s : State) (ho : writesScroll (opInstr o) = false) :
    ∀ it ∈ opItems o s, ∀ op, ∀ x ∈ itemAfter op it, ∀ d, scrollOf d x = d := by
  have hwrite : ∀ u : State, ∀ it ∈ writeItems u, ∀ op, itemAfter op it = [] := by
    intro u it hit op
    simp only [writeItems, List.cons_append, List.nil_append, List.mem_cons, List.mem_flatMap, List.not_mem_nil,
      or_false] at hit
    rcases hit with rfl | rfl | ⟨b, -, rfl | rfl⟩ <;> rfl
  cases o with
  | initialise => simp [opItems, initItems, initSeq, itemAfter, scrollAfter, scrollOf]
  | write =>
    intro it hit op x hx
    rw [hwrite s it hit op] at hx
    cases hx
  | clearScreen =>
    intro it hit op x hx
    rw [hwrite (clearFb s) it hit op] at hx
    cases hx
  | startScroll left => cases ho
  | stopScroll => cases ho

/-! ### The rows of the state-write matrix (R36) -/

theorem drawing_writesBus (i : Instr) (hi : isDrawing i = true) : writesBus i = false := by
  cases i with
  | initialise | write | clearScreen | startScroll | stopScroll => cases hi
  | _ => rfl

theorem opInstr_writesBus (o : TxOp) : writesBus (opInstr o) = true := by
  cases o <;> rfl

/-- The only raster or text operation without FB in its row is SETFONT. -/
theorem drawing_not_writesFb (i : Instr) (hi : isDrawing i = true) (hw : writesFb i = false) :
    ∃ f, i = .setFont f := by
  cases i with
  | setFont f => exact ⟨f, rfl⟩
  | prepare | setPixel | drawLine | drawRect | drawChar | drawText => cases hw
  | _ => cases hi

/-- The only transmitting operation with FB in its row is CLEARSCREEN. -/
theorem opFb_not_writesFb (o : TxOp) (s : State) (hw : writesFb (opInstr o) = false) : opFb o s = s.fb := by
  cases o with
  | clearScreen => cases hw
  | initialise | write | startScroll left | stopScroll => rfl

/-- What a transmitting operation leaves, whatever the transport answers (R36). -/
theorem exec_opInstr_frame (o : TxOp) (s t : State) (h : exec (opInstr o) s = .next t) :
    KeepsBlock { s with fb := opFb o s } t ∧ KeepsRecords s t := by
  rw [exec_opInstr] at h
  cases h
  exact ⟨{ runQueue_keepsBlock (opItems o s) (opStart o s) with },
    { runQueue_keepsRecords (opItems o s) (opStart o s) with }⟩

theorem exec_opInstr_fsm (o : TxOp) (s t : State) (h : exec (opInstr o) s = .next t) (ho : opInstr o ≠ .initialise) :
    t.fsm = s.fsm := by
  rw [exec_opInstr] at h
  cases h
  refine runQueue_keeps (·.fsm = s.fsm) _ _ ?_ (fun _ _ h => h) (fun it hit u hu => ?_) (fun _ h => h)
  · cases o <;> first | exact absurd rfl ho | rfl
  · rw [runItem_fsm, opItems_fsm o s ho it hit, hu]

theorem exec_opInstr_scroll (o : TxOp) (s t : State) (h : exec (opInstr o) s = .next t)
    (ho : writesScroll (opInstr o) = false) : t.scroll = s.scroll := by
  rw [exec_opInstr] at h
  cases h
  refine runQueue_keeps (·.scroll = s.scroll) _ _ rfl (fun _ _ h => h) (fun it hit u hu => ?_) (fun _ h => h)
  rw [runItem_scroll it u (opItems_scroll o s ho it hit), hu]

/-- INITIALIZE leaves Uninitialized, and nothing leads back to it (R141). -/
theorem exec_opInstr_initialized (o : TxOp) (s t : State) (h : exec (opInstr o) s = .next t)
    (hs : s.fsm ≠ .uninitialized) : t.fsm ≠ .uninitialized := by
  rw [exec_opInstr] at h
  cases h
  refine runQueue_initialized _ _ (opItems_ok o s) ?_
  cases o <;> first | exact hs | exact nofun

/-! ### Any instruction -/

/-- No instruction changes the parameters, the construction draw or the port (R21). -/
theorem exec_keeps_construction (i : Instr) (s t : State) (h : exec i s = .next t) :
    t.cfg = s.cfg ∧ t.draw = s.draw ∧ t.requests = s.requests := by
  rcases instr_kinds i with hi | ⟨o, rfl⟩ | hi
  · rw [(drawing_frame i s t hi h).1]
    exact ⟨rfl, rfl, rfl⟩
  · have hk := (exec_opInstr_frame o s t h).1
    exact ⟨hk.cfg, hk.draw, hk.requests⟩
  · rw [exec_transmit i s hi] at h
    cases h
    have hk := transmit_keepsBlock i s
    exact ⟨hk.cfg, hk.draw, hk.requests⟩

/-- No instruction takes FSM back to Uninitialized (R141). -/
theorem exec_initialized (i : Instr) (s t : State) (h : exec i s = .next t) (hs : s.fsm ≠ .uninitialized) :
    t.fsm ≠ .uninitialized := by
  rcases instr_kinds i with hi | ⟨o, rfl⟩ | hi
  · rw [(drawing_frame i s t hi h).1]
    exact hs
  · exact exec_opInstr_initialized o s t h hs
  · rw [exec_transmit i s hi] at h
    cases h
    rw [transmit_fsm]
    exact hs

/-- No instruction clears the latch or alters TLOG but by appending to it (R26, R29). -/
theorem exec_keepsRecords (i : Instr) (s t : State) (h : exec i s = .next t) : KeepsRecords s t := by
  rcases instr_kinds i with hi | ⟨o, rfl⟩ | hi
  · have hf := (drawing_frame i s t hi h).1
    exact .of_eq (hf ▸ rfl) (hf ▸ rfl)
  · exact (exec_opInstr_frame o s t h).2
  · rw [exec_transmit i s hi] at h
    cases h
    exact runItem_keepsRecords (.cmd i) s

/-- No instruction clears a model mark (R175, R176). -/
theorem exec_keeps_marks (i : Instr) (s t : State) (h : exec i s = .next t) :
    (∀ r ∈ s.faults, r ∈ t.faults) ∧ (s.refused ≠ none → t.refused ≠ none) := by
  have of_block {u : State} (hk : KeepsBlock u t) (hf : u.faults = s.faults) (hr : u.refused = s.refused) :
      (∀ r ∈ s.faults, r ∈ t.faults) ∧ (s.refused ≠ none → t.refused ≠ none) := by
    rw [hk.faults, hk.refused, hf, hr]
    exact ⟨fun _ => id, id⟩
  rcases instr_kinds i with hi | ⟨o, rfl⟩ | hi
  · exact drawing_marks i s t hi h
  · exact of_block (exec_opInstr_frame o s t h).1 rfl rfl
  · rw [exec_transmit i s hi] at h
    cases h
    exact of_block (transmit_keepsBlock i s) rfl rfl

/-! ### The answer to a pending transfer -/

/-- Taking an answer keeps all but the transfer's own record and what an error latches (R49, R177). -/
theorem takeAnswer_keepsBlock (a : Answer) (s : State) :
    KeepsBlock s (takeAnswer a s).state ∧ (takeAnswer a s).state.fsm = s.fsm := by
  cases a <;> exact ⟨⟨rfl, rfl, rfl, rfl, rfl, rfl, rfl⟩, rfl⟩

theorem takeAnswer_fault (a : Answer) (s : State) (f : FaultInfo) (h : s.fault = some f) :
    (takeAnswer a s).state.fault = some f := by
  cases a with
  | ok => exact h
  | err k => exact latch_of_some _ h

/-- The outcome that an answer gives its transfer (R49). -/
def outcomeOf : Answer → TransferOutcome
  | .ok => .ok
  | .err k => .err k

theorem outcomeOf_ne_pending (a : Answer) : outcomeOf a ≠ .pending := by
  cases a <;> exact nofun

theorem takeAnswer_tlog (a : Answer) (s : State) :
    (takeAnswer a s).state.tlog = setLastOutcome (outcomeOf a) s.tlog := by
  cases a <;> rfl

/-- While BUSY, the last entry of TLOG is the pending one (R27). -/
theorem MachineInv.tlog_of_busy {s : State} (h : MachineInv s) (hb : s.busy = true) :
    ∃ l e, s.tlog = l ++ [e] ∧ e.outcome = .pending := by
  obtain ⟨e, hlast, hp⟩ := h.pending.mp hb
  obtain ⟨l, hl⟩ := List.getLast?_eq_some_iff.mp hlast
  exact ⟨l, e, hl, hp⟩

end Sys2Proof.Machine
end

/-! SUPPORT. The machine invariant: what construction, each instruction and each answer of the transport make of it. -/

section
namespace Sys2Proof.Machine

open Sys2Proof.Claims

/-- Construction meets the invariant (R35, R127). -/
theorem machineInv_fresh (c : Config) (d : Nat) (hc : admitted c = true) (hf : fontOK c.defaultFont = true) :
    MachineInv (State.fresh c d) where
  admitted := hc
  memWf := rfl
  memIn := nofun
  font := hf
  idle := fun _ => ⟨rfl, rfl, rfl⟩
  queue := nofun
  log := nofun
  settled := nofun
  pending := by simp [State.fresh]
  count := Nat.zero_le _
  latched := nofun
  unread := fun _ => rfl

/-- The built-in font is an admitted one, of at least 32 glyphs (R127). -/
theorem builtInFont_ok : fontOK builtInFont = true ∧ 32 ≤ glyphCount builtInFont := by
  simp [fontOK, glyphCount, builtInFont]

theorem machineInv_reset : MachineInv State.reset :=
  machineInv_fresh defaultParams 0 (by decide) builtInFont_ok.1

/-- A request leaving the port does not matter. -/
theorem MachineInv.take_request {s : State} (h : MachineInv s) (rs : List Request) :
    MachineInv { s with requests := rs } := { h with }

theorem MachineInv.refuse {s : State} (h : MachineInv s) (r : RefuseReason) : MachineInv (refuse r s) := { h with }

theorem MachineInv.setStatus {s : State} (h : MachineInv s) (st : Status) (info : StatusInfo) :
    MachineInv (setStatus st info s) := { h with unread := nofun }

/-- A framebuffer that a drawing leaves keeps it. -/
theorem MachineInv.cells {s : State} (h : MachineInv s) {m : Memory}
    (hm : Machine.admitted s.cfg = true → CellsKept s.cfg s.fb m) : MachineInv { s with fb := m } :=
  { h with
    memWf := (hm h.admitted).memWf h.memWf
    memIn := (hm h.admitted).memIn h.memIn }

/-- Raster and text operations keep the invariant. -/
theorem MachineInv.drawing {i : Instr} {s t : State} (h : MachineInv s) (hd : DrawCase i s t) : MachineInv t := by
  cases hd with
  | drew _ m cells ends => exact ends ▸ (h.cells cells).setStatus _ _
  | faulted _ m cells r ends => exact ends ▸ { h.cells cells with }
  | invalid _ o ends => exact ends ▸ h.setStatus _ _
  | noFont _ o ends => exact ends ▸ h.setStatus _ _
  | installed f _ ok ends => exact ends ▸ MachineInv.setStatus (s := { s with font := f }) { h with font := ok } _ _
  | illFormed f _ ends => exact ends ▸ h.refuse _

/-! ### Transmitting operations -/

/-- A command is cut into one transfer, or into one a byte (R63). -/
theorem cut_length_le (split : CmdSplit) (cmds : List (List Byte)) :
    (cut split cmds).length ≤ max cmds.length cmds.flatten.length := by
  cases split <;> simp [cut, Function.comp_def]

/-- FBSIZE of the largest panel (R5, R190). -/
theorem fbSize_le (c : Config) (hc : admitted c = true) : fbSize c ≤ 8192 := by
  obtain ⟨⟨-, hw⟩, ⟨-, hh, -⟩, -⟩ := (admitted_iff c).mp hc
  exact Nat.mul_le_mul (show pages c ≤ 32 by unfold pages; omega) hw

theorem writeFrames_length (s : State) (hc : admitted s.cfg = true) : (writeFrames s).length ≤ transferCap := by
  have hfb := fbSize_le s.cfg hc
  have hcut := cut_length_le s.cfg.split [[s.cfg.cmdtab.columnAddr, 0x00#8, BitVec.ofNat 8 (s.cfg.w - 1)],
    [s.cfg.cmdtab.pageAddr, 0x00#8, BitVec.ofNat 8 (s.cfg.h / 8 - 1)]]
  simp only [writeFrames, transferCap, List.length_append, List.length_flatMap, List.length_cons, List.length_nil,
    List.map_const', List.length_range, List.sum_replicate, smul_eq_mul, List.length_flatten, List.map_cons,
    List.map_nil, List.sum_cons, List.sum_nil] at hcut ⊢
  omega

/-- No operation has more transfers than WRITE on the largest panel (R31). -/
theorem opFrames_length (o : TxOp) (s : State) (hc : admitted s.cfg = true) : (opFrames o s).length ≤ transferCap := by
  cases o with
  | initialise =>
    refine (cut_length_le _ _).trans ?_
    simp [initCommands, transferCap]
  | write => exact writeFrames_length s hc
  | clearScreen => exact writeFrames_length (cleared s) hc
  | startScroll left =>
    refine (cut_length_le _ _).trans ?_
    simp [transferCap]
  | stopScroll => simp [opFrames, stopScrollFrames, transferCap]

theorem opFb_cellsKept (o : TxOp) (s : State) : CellsKept s.cfg s.fb (opFb o s) := by
  cases o with
  | clearScreen => exact .clear _ _
  | initialise | write | startScroll left | stopScroll => exact .refl _ _

/-- A transmitting operation that starts in an idle block is ready for its items. -/
theorem MachineInv.opStart_ready {s : State} (h : MachineInv s) (hidle : s.op = none) (o : TxOp) :
    Ready (opItems o s) (opStart o s) := by
  obtain ⟨hseq, hbusy, htxq⟩ := h.idle hidle
  have hstart : MachineInv (opStart o s) :=
    { h.cells fun _ => opFb_cellsKept o s with
      idle := nofun
      queue := nofun
      count := by simp [opStart, hbusy, queueTransfers] }
  refine { hstart.ready nofun hbusy with queue := opItems_ok o s, count := ?_ }
  change 0 + queueTransfers s.cfg (opItems o s) ≤ transferCap
  rw [queueTransfers_eq, Nat.zero_add, ← List.length_map (f := transferBytes), opItems_frames]
  exact opFrames_length o s h.admitted

/-- A host operation keeps the invariant of an idle block. -/
theorem MachineInv.request {s t : State} (h : MachineInv s) (hidle : s.op = none) {i : Instr}
    (hl : laneOf i = .request) (hexec : exec i s = .next t) : MachineInv t := by
  rcases request_kinds i hl with hi | ⟨o, rfl⟩
  · exact h.drawing (drawing_cases i s t hi hexec)
  · rw [exec_opInstr] at hexec
    cases hexec
    exact ready_queue _ _ (h.opStart_ready hidle o)

/-! ### Steps of an executing operation -/

/-- Running the next item of an executing operation keeps the invariant. -/
theorem MachineInv.item {s : State} (h : MachineInv s) (ho : s.op ≠ none) (hb : s.busy = false) {it : TxItem}
    {q : List TxItem} (hq : s.txq = it :: q) : MachineInv (runItem it { s with txq := q }).state := by
  have hr := h.ready ho hb
  rw [hq] at hr
  have hi := ready_item it q s hr
  cases hs : runItem it { s with txq := q } with
  | done t =>
    rw [hs] at hi
    obtain ⟨hready, htxq⟩ := hi
    have := hready.inv
    rwa [← htxq] at this
  | waiting t => rwa [hs] at hi
  | failed t => rwa [hs] at hi

/-- Taking the answer to the pending transfer keeps the invariant (R49, R177). -/
theorem MachineInv.answer {s : State} (h : MachineInv s) (ho : s.op ≠ none) (hb : s.busy = true) (a : Answer)
    (as : List Answer) : MachineInv (takeAnswer a { s with answers := as }).state := by
  obtain ⟨l, e, hl, hp⟩ := h.tlog_of_busy hb
  have hcount := h.count
  rw [if_pos hb] at hcount
  have hlog : ∀ x ∈ l ++ [{ e with outcome := outcomeOf a }],
      x.bus = s.cfg.busId ∧ x.addr = s.cfg.addr ∧ framed x.bytes = true := by
    intro x hx
    rcases List.mem_append.mp hx with hx | hx
    · exact h.log x (hl ▸ List.mem_append_left _ hx)
    · cases List.mem_singleton.mp hx
      exact h.log e (hl ▸ List.mem_append_right _ (List.mem_singleton_self e))
  have hsettled : ∀ x ∈ (l ++ [{ e with outcome := outcomeOf a }]).dropLast, x.outcome ≠ .pending := by
    intro x hx
    rw [List.dropLast_concat] at hx
    exact h.settled x (by rwa [hl, List.dropLast_concat])
  have hpending : false = true ↔
      ∃ x, (l ++ [{ e with outcome := outcomeOf a }]).getLast? = some x ∧ x.outcome = .pending := by
    simpa using outcomeOf_ne_pending a
  rw [← setLastOutcome_concat, ← hl] at hlog hsettled hpending
  cases a with
  | ok =>
    exact { h with
      idle := fun k => absurd k ho
      log := hlog
      settled := hsettled
      pending := hpending
      count := by simpa [takeAnswer] using hcount }
  | err k =>
    refine { h with
      idle := fun _ => ⟨rfl, rfl, rfl⟩
      queue := nofun
      log := hlog
      settled := hsettled
      pending := hpending
      count := by simp [takeAnswer, queueTransfers]
      latched := fun f hf => ?_
      unread := nofun }
    cases hs : s.fault with
    | some g =>
      cases (takeAnswer_fault (.err k) { s with answers := as } g hs).symm.trans hf
      exact h.latched f hs
    | none =>
      simp only [takeAnswer, sent_state_failed, raise_transportError_fault, hs, latch_none, Option.some.injEq] at hf
      subst hf
      dsimp only
      omega

/-- Every step keeps the invariant. -/
theorem MachineInv.step {s t : State} (h : MachineInv s) (hstep : step s = .next t) : MachineInv t := by
  cases (step_cases s t hstep).2 with
  | wait _ _ same => exact same ▸ h
  | request idle r rs i _ _ decoded run =>
    exact (h.take_request rs).request idle ((decodeRequest_iff _ i).mp decoded).1 run
  | refused _ r rs e _ _ _ mark => exact mark ▸ (h.take_request rs).refuse e
  | concurrent r rs _ _ mark => exact mark ▸ (h.take_request rs).refuse _
  | answer o executing busy a as _ taken =>
    exact taken ▸ h.answer (by rw [executing]; exact nofun) busy a as
  | complete o executing busy queue done =>
    have hr := h.ready (by rw [executing]; exact nofun) busy
    rw [queue] at hr
    exact done ▸ ready_queue [] s hr
  | command o executing busy i q queue run =>
    have hit := h.queue (.cmd i) (by rw [queue]; exact List.mem_cons_self ..)
    simp only [itemOK, isTransmitter, Bool.and_eq_true, decide_eq_true_eq] at hit
    rw [exec_transmit i _ hit.1] at run
    cases run
    exact h.item (by rw [executing]; exact nofun) busy queue
  | setFsm o executing busy f q queue done =>
    exact done ▸ h.item (by rw [executing]; exact nofun) busy queue
  | setScroll o executing busy d q queue done =>
    exact done ▸ h.item (by rw [executing]; exact nofun) busy queue

end Sys2Proof.Machine
end

/-! SUPPORT. What an instruction does from two states that differ only in FSM, FAULT and STATUS (10_state.md R32). -/

section
namespace Sys2Proof.Machine

open Sys2Proof.Claims

/-! ### Drawings do not look at the control state -/

/-- A drawing's outcome with its state changed. -/
def Flow.map (g : State → State) : Flow → Flow
  | .go s => .go (g s)
  | .fault r s => .fault r (g s)

/-- A change of the state that a drawing does not see: it keeps the geometry and FB, and FB can be written before it or
after it. -/
structure Unseen (g : State → State) : Prop where
  cfg : ∀ s, (g s).cfg = s.cfg
  draw : ∀ s, (g s).draw = s.draw
  fb : ∀ s, (g s).fb = s.fb
  write : ∀ s m, { g s with fb := m } = g { s with fb := m }

theorem unseen_withControl (f : Fsm) (ft : Option FaultInfo) (st : Status) (info : StatusInfo) (v : Bool) :
    Unseen (withControl f ft st info v) :=
  ⟨fun _ => rfl, fun _ => rfl, fun _ => rfl, fun _ _ => rfl⟩

/-- A loop does not see what its body does not see. -/
theorem forEach_unseen {α : Type} {g : State → State} (body : α → State → Flow)
    (hb : ∀ a s, body a (g s) = (body a s).map g) (l : List α) (s : State) : forEach body l (g s) = (forEach body l s).map g := by
  induction l generalizing s with
  | nil => rfl
  | cons a l ih =>
    simp only [forEach, hb]
    cases body a s with
    | go t => exact ih t
    | fault r t => rfl

section
variable {g : State → State} (hg : Unseen g)
include hg

theorem memRead_unseen (s : State) (a : Int) : memRead (g s) a = memRead s a := by
  simp only [memRead, fbByte, hg.cfg, hg.draw, hg.fb]

theorem memWrite_unseen (s : State) (a : Int) (v : Byte) : memWrite (g s) a v = (memWrite s a v).map g := by
  rw [memWrite, hg.write, hg.fb, hg.cfg, memWrite]
  split <;> rfl

theorem pixelPut_unseen (x y : Int) (on : Bool) (s : State) :
    pixelPut x y on (g s) = (pixelPut x y on s).map g := by
  rw [pixelPut, pixelPut, memRead_unseen hg, hg.cfg]
  cases memRead s (fbAddr s.cfg x y) with
  | error r => rfl
  | ok b => exact memWrite_unseen hg s _ _

theorem clippedPut_unseen (x y : Int) (on : Bool) (s : State) :
    clippedPut x y on (g s) = (clippedPut x y on s).map g := by
  unfold clippedPut
  rw [hg.cfg]
  split
  · exact pixelPut_unseen hg x y on s
  · rfl

theorem lineFill_unseen (l : Line) (on : Bool) (s : State) : lineFill l on (g s) = (lineFill l on s).map g := by
  unfold lineFill
  rw [hg.cfg]
  exact forEach_unseen _ (fun y => forEach_unseen _ (fun x => pixelPut_unseen hg x y on) _) _ s

theorem drawGlyph_unseen (f : Font) (x y : Int) (c : Byte) (s : State) :
    drawGlyph f x y c (g s) = (drawGlyph f x y c s).map g := by
  cases hi : glyphIndex f c with
  | error r =>
    rw [drawGlyph_missing f x y c r _ hi, drawGlyph_missing f x y c r _ hi]
    rfl
  | ok k =>
    simp only [drawGlyph, hi]
    refine forEach_unseen _ (fun r => forEach_unseen _ (fun col t => ?_) _) _ s
    split
    · exact clippedPut_unseen hg _ _ true t
    · rfl

theorem textLoop_unseen (f : Font) (x : Int) (text : List Byte) (cx cy : Int) (s : State) :
    textLoop f x text cx cy (g s) = (textLoop f x text cx cy s).map g := by
  induction text generalizing cx cy s with
  | nil => rfl
  | cons c cs ih =>
    simp only [textLoop, hg.cfg, drawGlyph_unseen hg]
    split
    · exact ih cx cy s
    split
    · exact ih x _ s
    split
    · rfl
    cases drawGlyph f _ _ c s with
    | go t => exact ih _ _ t
    | fault r t => rfl

end

/-! ### Two next states that agree -/

section
variable (f : Fsm) (ft : Option FaultInfo) (st : Status) (info : StatusInfo) (v : Bool)

/-- One instruction's next states `t` from `s`, and `t'` from `s` with the other control state: what R32 says of them. -/
structure Agree (s t t' : State) : Prop where
  others : t' = withControl t'.fsm t'.fault t'.status t'.statusInfo t'.statusValid t
  status : (t.statusValid = true ∧ t'.statusValid = true ∧ t'.status = t.status ∧ t'.statusInfo = t.statusInfo)
    ∨ (t.status = s.status ∧ t.statusInfo = s.statusInfo ∧ t.statusValid = s.statusValid
      ∧ t'.status = st ∧ t'.statusInfo = info ∧ t'.statusValid = v)
  fsm : t'.fsm = t.fsm ∨ (t.fsm = s.fsm ∧ t'.fsm = f)
  fault : ∃ g, t.fault = s.fault.or g ∧ t'.fault = ft.or g

/-- An operation is under way from both states: so far only FSM may have been written, to the same value in both. -/
structure UnderWay (s u : State) (y : Fsm) : Prop where
  fault : u.fault = s.fault
  status : u.status = s.status
  statusInfo : u.statusInfo = s.statusInfo
  statusValid : u.statusValid = s.statusValid
  fsm : y = u.fsm ∨ (u.fsm = s.fsm ∧ y = f)

variable {f} {s u : State} {y : Fsm}

/-- Nothing has been written yet. -/
theorem UnderWay.start (h : u.fault = s.fault ∧ u.status = s.status ∧ u.statusInfo = s.statusInfo
    ∧ u.statusValid = s.statusValid ∧ u.fsm = s.fsm) : UnderWay f s u f := by
  obtain ⟨hfault, hstatus, hinfo, hvalid, hfsm⟩ := h
  exact ⟨hfault, hstatus, hinfo, hvalid, .inr ⟨hfsm, rfl⟩⟩

/-- Assignments put the same value into FSM, or leave it in both (R141). -/
theorem foldl_fsm_same (l : List TxItem) (a b : Fsm) :
    l.foldl fsmOf b = l.foldl fsmOf a ∨ (l.foldl fsmOf a = a ∧ l.foldl fsmOf b = b) := by
  induction l generalizing a b with
  | nil => exact .inr ⟨rfl, rfl⟩
  | cons it l ih =>
    cases it with
    | setFsm g => exact .inl rfl
    | cmd i => exact ih a b
    | setScroll d => exact ih a b

theorem UnderWay.fsm_foldl (h : UnderWay f s u y) (l : List TxItem) :
    l.foldl fsmOf y = l.foldl fsmOf u.fsm ∨ (l.foldl fsmOf u.fsm = s.fsm ∧ l.foldl fsmOf y = f) := by
  rcases h.fsm with hy | ⟨hu, hy⟩
  · exact .inl (by rw [hy])
  · rw [hu, hy]
    exact foldl_fsm_same l s.fsm f

/-- It stops without a status: it waits, was refused, or faulted. -/
theorem UnderWay.agree (h : UnderWay f s u y) : Agree f ft st info v s u (withControl y ft st info v u) :=
  ⟨rfl, .inr ⟨h.status, h.statusInfo, h.statusValid, rfl, rfl, rfl⟩, h.fsm, none, by simp [h.fault, withControl]⟩

/-- It ends with the same status in both. -/
theorem UnderWay.agree_setStatus (h : UnderWay f s u y) (code : Status) (why : StatusInfo) :
    Agree f ft st info v s (setStatus code why u) (setStatus code why (withControl y ft st info v u)) :=
  ⟨rfl, .inl ⟨rfl, rfl, rfl, rfl⟩, h.fsm, none, by simp [h.fault, withControl]⟩

theorem latch_eq_or (old : Option FaultInfo) (new : FaultInfo) : latch old new = old.or (some new) := by
  cases old <;> rfl

/-- It ends with the same transport error in both, which it hands to the latch (R177). -/
theorem UnderWay.agree_transportError (h : UnderWay f s u y) (o : Byte) (j : Nat) (k : Kind) :
    Agree f ft st info v s (raise (.transportError o j k) u)
      (raise (.transportError o j k) (withControl y ft st info v u)) := by
  refine ⟨rfl, .inl ⟨rfl, rfl, rfl, rfl⟩, h.fsm, some ⟨o, j, k⟩, ?_, ?_⟩
  · rw [raise_transportError_fault, latch_eq_or, h.fault]
  · rw [raise_transportError_fault, latch_eq_or]
    rfl

theorem UnderWay.after_sentOk (h : UnderWay f s u y) (fs : List Instr) (l : List TxItem) (as : List Answer) :
    UnderWay f s (sentOk fs l as u) (l.foldl fsmOf y) :=
  { h with fsm := h.fsm_foldl l }

theorem UnderWay.agree_errAt (h : UnderWay f s u y) (fs : List Instr) (fr : Instr) (l : List TxItem) (j : Nat)
    (k : Kind) (as : List Answer) :
    Agree f ft st info v s (errAt fs fr l j k as u) (errAt fs fr l j k as (withControl y ft st info v u)) := by
  have hu : UnderWay f s { sentOk fs l as u with tlog := (errAt fs fr l j k as u).tlog } (l.foldl fsmOf y) :=
    { h.after_sentOk fs l as with }
  exact hu.agree_transportError ft st info v (opCode u) (u.seq + j) k

theorem UnderWay.agree_waitAt (h : UnderWay f s u y) (fs : List Instr) (fr : Instr) (l : List TxItem) (j : Nat)
    (q : List TxItem) :
    Agree f ft st info v s (waitAt fs fr l j q u) (waitAt fs fr l j q (withControl y ft st info v u)) := by
  exact UnderWay.agree ft st info v (u := waitAt fs fr l j q u) (y := l.foldl fsmOf y) { h with fsm := h.fsm_foldl l }

theorem UnderWay.agree_completeOp (h : UnderWay f s u y) :
    Agree f ft st info v s (completeOp u) (completeOp (withControl y ft st info v u)) := by
  have hu : UnderWay f s { u with seq := 0, op := none, txq := [] } y := { h with }
  exact hu.agree_setStatus ft st info v .ok .nothing

/-- Running the same transfers from both states. -/
theorem UnderWay.agree_sendFrames (h : UnderWay f s u y) (fs : List Instr) (l : List TxItem) :
    Agree f ft st info v s (sendFrames fs l u).state (sendFrames fs l (withControl y ft st info v u)).state := by
  rcases answers_cases fs.length u.answers with ⟨bs, ha⟩ | ⟨j, k, bs, hj, ha⟩ | ⟨j, hj, ha⟩
  · rw [sendFrames_ok fs l u bs ha, sendFrames_ok fs l (withControl y ft st info v u) bs ha]
    exact (h.after_sentOk fs l bs).agree ft st info v
  · have hf := List.getElem?_eq_getElem hj
    rw [sendFrames_err fs l u j k bs _ hf ha, sendFrames_err fs l (withControl y ft st info v u) j k bs _ hf ha]
    exact h.agree_errAt ft st info v _ _ [] j k bs
  · have hf := List.getElem?_eq_getElem hj
    rw [sendFrames_wait fs l u j _ hf ha, sendFrames_wait fs l (withControl y ft st info v u) j _ hf ha]
    exact h.agree_waitAt ft st info v _ _ [] j _

/-- Running the same queue from both states. -/
theorem UnderWay.agree_runQueue (h : UnderWay f s u y) (q : List TxItem) :
    Agree f ft st info v s (runQueue q u) (runQueue q (withControl y ft st info v u)) := by
  rcases answers_cases (queueFrames u.cfg q).length u.answers with ⟨bs, ha⟩ | ⟨j, k, bs, hj, ha⟩ | ⟨j, hj, ha⟩
  · rw [runQueue_ok q u bs ha, runQueue_ok q (withControl y ft st info v u) bs ha]
    exact (h.after_sentOk _ _ bs).agree_completeOp ft st info v
  · have hf := List.getElem?_eq_getElem hj
    rw [runQueue_err q u j k bs _ hf ha, runQueue_err q (withControl y ft st info v u) j k bs _ hf ha]
    exact h.agree_errAt ft st info v _ _ _ j k bs
  · have hf := List.getElem?_eq_getElem hj
    rw [runQueue_wait q u j _ hf ha, runQueue_wait q (withControl y ft st info v u) j _ hf ha]
    exact h.agree_waitAt ft st info v _ _ _ j _

/-- A drawing that does not see the control state ends alike from both states. -/
theorem agree_finish (F : State → Flow)
    (hunseen : F (withControl f ft st info v s) = (F s).map (withControl f ft st info v))
    (hframe : (F s).state = { s with fb := (F s).state.fb }) :
    Agree f ft st info v s (finish (F s)) (finish (F (withControl f ft st info v s))) := by
  have h : UnderWay f s (F s).state f := by
    rw [hframe]
    exact .start ⟨rfl, rfl, rfl, rfl, rfl⟩
  rw [hunseen]
  cases hF : F s with
  | go t =>
    rw [hF] at h
    exact h.agree_setStatus ft st info v .ok .nothing
  | fault r t =>
    rw [hF] at h
    exact UnderWay.agree ft st info v (u := markFault r t) { h with }

end

/-! ### Every instruction -/

section
variable (f : Fsm) (ft : Option FaultInfo) (st : Status) (info : StatusInfo) (v : Bool)

/-- A raster or text operation (R32). -/
theorem drawing_agree (i : Instr) (s : State) (hi : isDrawing i = true) :
    ∃ t t', exec i s = .next t ∧ exec i (withControl f ft st info v s) = .next t' ∧ Agree f ft st info v s t t' := by
  have hg := unseen_withControl f ft st info v
  have hcfg := hg.cfg s
  have hs : UnderWay f s s f := .start ⟨rfl, rfl, rfl, rfl, rfl⟩
  cases i with
  | prepare =>
    exact ⟨_, _, rfl, rfl, agree_finish ft st info v (fun u => .go (clearFb u)) rfl rfl⟩
  | setPixel x y on =>
    exact ⟨_, _, rfl, rfl,
      agree_finish ft st info v (clippedPut x y on) (clippedPut_unseen hg x y on s) (clippedPut_onlyFb x y on s)⟩
  | drawLine x0 y0 x1 y1 on =>
    refine ⟨_, _, rfl, rfl, ?_⟩
    rw [hcfg]
    by_cases hok : lineOK s.cfg ⟨x0, y0, x1, y1⟩ = true
    · rw [if_pos hok, if_pos hok]
      exact agree_finish ft st info v (lineFill _ on) (lineFill_unseen hg _ on s) (lineFill_onlyFb _ on s)
    · rw [if_neg hok, if_neg hok]
      exact hs.agree_setStatus ft st info v _ _
  | drawRect x y w h on =>
    refine ⟨_, _, rfl, rfl, ?_⟩
    rw [hcfg]
    by_cases hok : (rectSizeOK s.cfg w h && (rectEdges x y w h).all (lineOK s.cfg)) = true
    · rw [if_pos hok, if_pos hok]
      exact agree_finish ft st info v (forEach (fun e => lineFill e on) (rectEdges x y w h))
        (forEach_unseen _ (fun e => lineFill_unseen hg e on) _ s)
        (forEach_onlyFb _ _ s fun e u => lineFill_onlyFb e on u)
    · rw [if_neg hok, if_neg hok]
      exact hs.agree_setStatus ft st info v _ _
  | setFont font =>
    refine ⟨_, _, rfl, rfl, ?_⟩
    cases font with
    | none => exact hs.agree_setStatus ft st info v _ _
    | some g =>
      dsimp only
      by_cases hok : fontOK g = true
      · rw [if_pos hok, if_pos hok]
        exact UnderWay.agree_setStatus ft st info v (u := { s with font := g }) { hs with } _ _
      · rw [if_neg hok, if_neg hok]
        exact UnderWay.agree ft st info v (u := refuse .illFormedFont s) { hs with }
  | drawChar x y c =>
    exact ⟨_, _, rfl, rfl,
      agree_finish ft st info v (drawGlyph s.font x y c) (drawGlyph_unseen hg _ x y c s) (drawGlyph_onlyFb _ x y c s)⟩
  | drawText x y text =>
    exact ⟨_, _, rfl, rfl,
      agree_finish ft st info v (textLoop s.font x text x y) (textLoop_unseen hg _ x text x y s)
        (textLoop_onlyFb _ x text x y s)⟩
  | _ => cases hi

/-- What an operation queues does not depend on the control state. -/
theorem opItems_withControl (o : TxOp) (s : State) : opItems o (withControl f ft st info v s) = opItems o s := by
  cases o <;> rfl

/-- Where a transmitting operation starts, only FSM can have been written (R144). -/
theorem opStart_underWay (o : TxOp) (s : State) : ∃ y, UnderWay f s (opStart o s) y
    ∧ opStart o (withControl f ft st info v s) = withControl y ft st info v (opStart o s) := by
  cases o with
  | initialise => exact ⟨.initializing, ⟨rfl, rfl, rfl, rfl, .inl rfl⟩, rfl⟩
  | write | clearScreen | startScroll left | stopScroll => exact ⟨f, .start ⟨rfl, rfl, rfl, rfl, rfl⟩, rfl⟩

/-- Every instruction (R32). -/
theorem exec_agree (i : Instr) (s : State) :
    ∃ t t', exec i s = .next t ∧ exec i (withControl f ft st info v s) = .next t' ∧ Agree f ft st info v s t t' := by
  rcases instr_kinds i with hi | ⟨o, rfl⟩ | hi
  · exact drawing_agree f ft st info v i s hi
  · obtain ⟨y, h, hstart⟩ := opStart_underWay f ft st info v o s
    refine ⟨_, _, exec_opInstr o s, exec_opInstr o _, ?_⟩
    rw [opItems_withControl, hstart]
    exact h.agree_runQueue ft st info v (opItems o s)
  · have h : UnderWay f s s f := .start ⟨rfl, rfl, rfl, rfl, rfl⟩
    exact ⟨_, _, exec_transmit i s hi, exec_transmit i _ hi,
      h.agree_sendFrames ft st info v (framesOf s.cfg i) (scrollAfter s.op i)⟩

end

end Sys2Proof.Machine
end

/-! SUPPORT. The fields of the control registers (10_state.md R31). -/

section
namespace Sys2Proof.Machine

theorem toNat_ofNat_of_lt {n : Nat} (h : n < 4294967296) : (BitVec.ofNat 32 n).toNat = n := by
  rw [BitVec.toNat_ofNat]
  exact Nat.mod_eq_of_lt h

theorem kindCode_lt (k : Kind) : kindCode k < 4 := by
  cases k <;> decide

theorem statusCode_lt (st : Status) : statusCode st < 4 := by
  cases st <;> decide

/-- CR2 while a failure is latched whose index fits its field. -/
theorem faultWord_fields (f : FaultInfo) (h : f.index < 65536) :
    (faultWord (some f)).toNat % 2 = 1 ∧ (faultWord (some f)).toNat / 2 % 4 = kindCode f.kind
      ∧ (faultWord (some f)).toNat / 8 % 32 = 0 ∧ (faultWord (some f)).toNat / 256 % 256 = f.op.toNat
      ∧ (faultWord (some f)).toNat / 65536 = f.index := by
  have hk := kindCode_lt f.kind
  have ho := f.op.isLt
  rw [faultWord, toNat_ofNat_of_lt (by omega)]
  omega

/-- CR3 (R31). -/
theorem cr3_fields (s : State) :
    (cr3 s).toNat % 4 = statusCode s.status ∧ (cr3 s).toNat / 4 = s.statusValid.toNat := by
  have hc := statusCode_lt s.status
  have hv := Bool.toNat_le s.statusValid
  rw [cr3, toNat_ofNat_of_lt (by omega)]
  omega

/-- CR4 and CR5 in the admitted geometry (R31, R190). -/
theorem geometry_fields (s : State) (h : admitted s.cfg = true) :
    (cr4 s).toNat % 65536 = s.cfg.w ∧ (cr4 s).toNat / 65536 = s.cfg.h ∧ (cr5 s).toNat = s.cfg.addr := by
  obtain ⟨⟨-, hw⟩, ⟨-, hh, -⟩, ha⟩ := (admitted_iff s.cfg).mp h
  rw [cr4, cr5, toNat_ofNat_of_lt (by omega), toNat_ofNat_of_lt (by omega)]
  omega

/-- SEQ stays within the cap (R31). -/
theorem MachineInv.seq_le {s : State} (h : MachineInv s) : s.seq ≤ transferCap := by
  have := h.count
  omega

end Sys2Proof.Machine
end

/-! SUPPORT. The statements of the state (10_state.md), settled. -/

section
namespace Sys2Proof.Proofs

open Sys2Proof.Machine Sys2Proof.Claims

/-- Settles O4: a host operation keeps the invariant of an idle block (`MachineInv.request`), and of an executing
operation each item (`MachineInv.item`) and each answer (`MachineInv.answer`) does. -/
theorem stepKeepsTheInvariant : Obligations.StepKeepsTheInvariant := by
  unfold Obligations.StepKeepsTheInvariant
  exact fun s t h hstep => h.step hstep

/-- Settles O31: the frame of `drawing_cases`. -/
theorem drawingTouchesNoControlState : Obligations.DrawingTouchesNoControlState := by
  unfold Obligations.DrawingTouchesNoControlState
  exact drawing_frame

/-- Settles O48: a drawing by its frame; a transmitting operation by what its queue keeps, and which items assign to FSM
and SCROLL. -/
theorem operationsWriteOnlyTheirElements : Obligations.OperationsWriteOnlyTheirElements := by
  unfold Obligations.OperationsWriteOnlyTheirElements
  intro i s t hl h
  obtain ⟨hcfg, hdraw, hport⟩ := exec_keeps_construction i s t h
  refine ⟨hcfg, hdraw, hport, ?_⟩
  rcases request_kinds i hl with hi | ⟨o, rfl⟩
  · obtain ⟨hframe, hfont, hfb⟩ := drawing_frame i s t hi h
    refine ⟨fun hw => hfb (drawing_not_writesFb i hi hw), hfont, ?_, ?_, ?_, ?_⟩
    · exact fun _ => hframe ▸ rfl
    · exact fun _ => hframe ▸ rfl
    · exact fun _ => hframe ▸ ⟨rfl, rfl, rfl, rfl, rfl⟩
    · simp [drawing_writesBus i hi]
  · have hk := (exec_opInstr_frame o s t h).1
    refine ⟨fun hw => hk.fb.trans (opFb_not_writesFb o s hw), fun _ => hk.font, exec_opInstr_fsm o s t h,
      exec_opInstr_scroll o s t h, ?_, fun _ => ⟨hk.faults, hk.refused⟩⟩
    simp [opInstr_writesBus o]

/-- Settles O50: no instruction undoes construction (`exec_keeps_construction`, `exec_initialized`), and the invariant
rules out a queued assignment that would. -/
theorem nothingUndoesConstruction : Obligations.NothingUndoesConstruction := by
  unfold Obligations.NothingUndoesConstruction
  intro s t hinv hstep
  have hexec (i : Instr) (u : State) (run : exec i u = .next t) :
      t.cfg = u.cfg ∧ t.draw = u.draw ∧ (u.fsm ≠ .uninitialized → t.fsm ≠ .uninitialized) := by
    obtain ⟨hcfg, hdraw, -⟩ := exec_keeps_construction i u t run
    exact ⟨hcfg, hdraw, exec_initialized i u t run⟩
  cases (step_cases s t hstep).2 with
  | wait _ _ done | refused _ _ _ _ _ _ _ done | concurrent _ _ _ _ done | complete _ _ _ _ done
  | setScroll _ _ _ _ _ _ done => exact done ▸ ⟨rfl, rfl, id⟩
  | request _ _ rs i _ _ _ run => exact hexec i { s with requests := rs } run
  | command _ _ _ i q _ run => exact hexec i { s with txq := q } run
  | answer _ _ _ a as _ taken =>
    obtain ⟨hk, hfsm⟩ := takeAnswer_keepsBlock a { s with answers := as }
    rw [taken, hfsm]
    exact ⟨hk.cfg, hk.draw, id⟩
  | setFsm _ _ _ f q queue done =>
    have hit : itemOK (.setFsm f) = true := hinv.queue _ (by rw [queue]; exact List.mem_cons_self ..)
    exact done ▸ ⟨rfl, rfl, fun _ => of_decide_eq_true hit⟩

/-- Settles O51: every instruction keeps the latch (`exec_keepsRecords`) and the marks (`exec_keeps_marks`), and what
else a step does keeps them as well. -/
theorem latchAndMarksAreSticky : Obligations.LatchAndMarksAreSticky := by
  unfold Obligations.LatchAndMarksAreSticky
  have hexec (i : Instr) (s t : State) (h : exec i s = .next t) : (∀ f, s.fault = some f → t.fault = some f)
      ∧ (∀ r ∈ s.faults, r ∈ t.faults) ∧ (s.refused ≠ none → t.refused ≠ none) :=
    ⟨(exec_keepsRecords i s t h).fault, exec_keeps_marks i s t h⟩
  refine ⟨hexec, fun s t hstep => ?_⟩
  cases (step_cases s t hstep).2 with
  | wait _ _ done | complete _ _ _ _ done | setFsm _ _ _ _ _ _ done | setScroll _ _ _ _ _ _ done =>
    exact done ▸ ⟨fun _ => id, id⟩
  | refused _ _ _ _ _ _ _ mark | concurrent _ _ _ _ mark => exact mark ▸ ⟨fun _ => id, fun _ => nofun⟩
  | request _ _ rs i _ _ _ run =>
    obtain ⟨hfault, -, hrefused⟩ := hexec i { s with requests := rs } t run
    exact ⟨hfault, hrefused⟩
  | command _ _ _ i q _ run =>
    obtain ⟨hfault, -, hrefused⟩ := hexec i { s with txq := q } t run
    exact ⟨hfault, hrefused⟩
  | answer _ _ _ a as _ taken =>
    refine taken ▸ ⟨takeAnswer_fault a { s with answers := as }, fun h => ?_⟩
    rw [(takeAnswer_keepsBlock a { s with answers := as }).1.refused]
    exact h

/-- Settles O52: instructions append to TLOG (`exec_keepsRecords`), and an answer fills in the outcome of the last entry,
which the invariant says is pending. -/
theorem logOnlyGrows : Obligations.LogOnlyGrows := by
  unfold Obligations.LogOnlyGrows
  intro s t hinv hstep
  have hgrows (hp : s.tlog <+: t.tlog) : ∃ l es, t.tlog = l ++ es ∧ l.length = s.tlog.length
      ∧ ∀ (k : Nat) (e : LogEntry), s.tlog[k]? = some e → ∃ e', l[k]? = some e' ∧ e'.bus = e.bus ∧ e'.addr = e.addr
        ∧ e'.bytes = e.bytes ∧ (e.outcome ≠ .pending → e'.outcome = e.outcome) := by
    obtain ⟨es, hes⟩ := hp
    exact ⟨s.tlog, es, hes.symm, rfl, fun k e he => ⟨e, he, rfl, rfl, rfl, fun _ => rfl⟩⟩
  cases (step_cases s t hstep).2 with
  | wait _ _ done | refused _ _ _ _ _ _ _ done | concurrent _ _ _ _ done | complete _ _ _ _ done
  | setFsm _ _ _ _ _ _ done | setScroll _ _ _ _ _ _ done => exact hgrows (done ▸ List.prefix_rfl)
  | request _ _ rs i _ _ _ run => exact hgrows (exec_keepsRecords i { s with requests := rs } t run).tlog
  | command _ _ _ i q _ run => exact hgrows (exec_keepsRecords i { s with txq := q } t run).tlog
  | answer _ _ busy a as _ taken =>
    obtain ⟨l, e, hl, hp⟩ := hinv.tlog_of_busy busy
    refine ⟨l ++ [{ e with outcome := outcomeOf a }], [], ?_, by simp [hl], fun k x hx => ?_⟩
    · rw [taken, takeAnswer_tlog, hl, setLastOutcome_concat, List.append_nil]
    · rw [hl] at hx
      rcases Nat.lt_or_ge k l.length with hk | hk
      · rw [List.getElem?_append_left hk] at hx ⊢
        exact ⟨x, hx, rfl, rfl, rfl, fun _ => rfl⟩
      · rw [List.getElem?_append_right hk, List.getElem?_singleton] at hx ⊢
        split at hx
        next hk0 =>
          cases hx
          exact ⟨_, if_pos hk0, rfl, rfl, rfl, fun hne => absurd hp hne⟩
        next => cases hx

/-- Settles O53: the two runs go the same way through every instruction (`exec_agree`). -/
theorem resultsIgnoreControlState : Obligations.ResultsIgnoreControlState := by
  unfold Obligations.ResultsIgnoreControlState
  intro i s f ft st info v
  obtain ⟨t, t', hexec, hexec', hagree⟩ := exec_agree f ft st info v i s
  exact ⟨t, t', hexec, hexec', hagree.others, hagree.status, hagree.fsm, hagree.fault⟩

/-- Settles O54: the invariant bounds what each register holds, so its fields do not overlap. -/
theorem controlRegisterFields : Obligations.ControlRegisterFields := by
  unfold Obligations.ControlRegisterFields
  intro s hinv
  obtain ⟨hcode, hvalid⟩ := cr3_fields s
  obtain ⟨hw, hh, haddr⟩ := geometry_fields s hinv.admitted
  have hcap : transferCap = 1030 := rfl
  have hseq := hinv.seq_le
  refine ⟨?_, ?_, fun hf => ?_, fun f hf => ?_, ?_, hvalid, hw, hh, haddr, toNat_ofNat_of_lt (by omega), ?_⟩
  · rw [cr0]
    cases s.fsm <;> rfl
  · rw [cr1]
    cases s.scroll <;> rfl
  · rw [cr2, hf]
    rfl
  · have hindex := hinv.latched f hf
    obtain ⟨hlatch, hkind, hreserved, hop, hidx⟩ := faultWord_fields f (by omega)
    rw [cr2, hf]
    refine ⟨hlatch, hkind.trans ?_, hreserved, hop, hidx⟩
    cases f.kind <;> rfl
  · rw [hcode]
    cases s.status <;> rfl
  · rw [cr7]
    cases s.busy <;> rfl

/-- Settles O1: the fields of a fresh block, and R127's two properties of the built-in font. -/
theorem constructionGivesResetValues : Obligations.ConstructionGivesResetValues := by
  unfold Obligations.ConstructionGivesResetValues
  refine ⟨fun c d => ?_, rfl, rfl, rfl, rfl, rfl, rfl, builtInFont_ok⟩
  exact ⟨rfl, rfl, rfl, rfl, rfl, rfl, rfl, rfl, rfl, rfl, rfl, rfl, rfl, fun _ => rfl⟩

/-- Settles O3: a fresh block meets the invariant (`machineInv_fresh`). -/
theorem constructedBlocksMeetTheInvariant : Obligations.ConstructedBlocksMeetTheInvariant := by
  unfold Obligations.ConstructedBlocksMeetTheInvariant
  refine ⟨fun c d s h hf => ?_, machineInv_reset⟩
  unfold construct at h
  split at h
  next hc =>
    cases h
    exact machineInv_fresh c d hc hf
  next => cases h

/-- Settles O16: each arm of `exec` answers a next state. -/
theorem everyInstructionIsAccepted : Obligations.EveryInstructionIsAccepted := by
  unfold Obligations.EveryInstructionIsAccepted
  intro i s
  cases i <;> exact ⟨_, rfl⟩

end Sys2Proof.Proofs
end

/-! SUPPORT. The primitives of the memory and the transport (20_memory.md): where `PixelPut` writes, what a step of an
executing operation does, and what one transfer makes of each answer. -/

section
namespace Sys2Proof.Machine

open Sys2Proof.Claims

/-! ### The framebuffer's pixels (R41 to R45) -/

/-- The inverse of the pixel map: the pixel of address `a` and bit `b` (R43). -/
theorem fbAddr_pixel (c : Config) (a b : Nat) (ha : a < fbSize c) (hb : b < 8) :
    onPanel c ((a % c.w : Nat) : Int) ((8 * (a / c.w) + b : Nat) : Int) = true
      ∧ fbAddr c ((a % c.w : Nat) : Int) ((8 * (a / c.w) + b : Nat) : Int) = (a : Int) := by
  have hw : 0 < c.w := Nat.pos_of_mul_pos_left (Nat.zero_lt_of_lt ha)
  have hcol : a % c.w < c.w := Nat.mod_lt a hw
  have hpage : a / c.w < c.h / 8 := (Nat.div_lt_iff_lt_mul hw).mpr ha
  have hrow : (8 * (a / c.w) + b) / 8 = a / c.w := by omega
  refine ⟨(onPanel_iff _ _ _).mpr (by omega), ?_⟩
  unfold fbAddr
  exact_mod_cast hrow ▸ Nat.div_add_mod' a c.w

/-- On the panel `PixelPut` goes through and writes one byte (R45). -/
theorem pixelPut_go (x y : Int) (on : Bool) (s : State) (hc : admitted s.cfg = true) (h : onPanel s.cfg x y = true) :
    pixelPut x y on s = .go { s with
      fb := Memory.write s.fb (fbAddr s.cfg x y).toNat
        (putBit (fbByte s (fbAddr s.cfg x y).toNat) (y % 8).toNat on) } := by
  simp only [pixelPut, memRead, memWrite, if_pos (fbAddr_in s.cfg hc x y h)]

/-- The byte that `PixelPut` writes, as R45 computes it. -/
theorem putBit_eq (v : Byte) (b : Nat) (on : Bool) :
    putBit v b on = if on then v ||| (1#8 <<< b) else v &&& (255#8 - (1#8 <<< b)) := by
  rw [putBit, ← BitVec.allOnes_sub_eq_not]
  rfl

/-! ### Steps that wait, stop or run the queue's head -/

/-- An executing operation with no transfer pending runs the command at the head of its queue. -/
theorem step_command (s : State) (o : TxOp) (i : Instr) (q : List TxItem) (hf : s.faults = []) (ho : s.op = some o)
    (hr : ∀ r ∈ s.requests.head?, r.overlaps = false) (hb : s.busy = false) (hq : s.txq = .cmd i :: q) :
    step s = exec i { s with txq := q } := by
  rw [step, fetch_executing s o hf ho hr]
  simp only [fetchItem, hb, hq, Bool.false_eq_true, if_false]

/-- A faulted state stops (R175). -/
theorem step_faulted (s : State) (r : FaultReason) (rs : List FaultReason) (hf : s.faults = r :: rs) :
    step s = .fault (.modelFault r) := by
  simp only [step, fetch, hf]

theorem runEnded_faulted (s : State) (r : FaultReason) (rs : List FaultReason) (hf : s.faults = r :: rs) :
    runEnded s = false := by
  simp [runEnded, hf]

/-- A pending transfer without an answer takes no step (R50). -/
theorem step_stalled (s : State) (o : TxOp) (hf : s.faults = []) (ho : s.op = some o)
    (hr : ∀ r ∈ s.requests.head?, r.overlaps = false) (hb : s.busy = true) (ha : s.answers = []) :
    step s = .fault .transportStalled := by
  rw [step, fetch_executing s o hf ho hr]
  simp only [fetchItem, hb, if_true, awaitAnswer, ha]

/-! ### A transport error of an executing operation -/

theorem opCode_of_op (s : State) (o : TxOp) (ho : s.op = some o) : opCode s = opByte o := by
  rw [opCode, ho]
  cases o <;> rfl

/-- What a transport error leaves: the first failure latched, SEQ and BUSY 0, the operation ended, its STATUS (R26,
R177). -/
theorem raise_transportError_eq (o : Byte) (n : Nat) (k : Kind) (s : State) :
    raise (.transportError o n k) s = { s with
      busy := false, seq := 0, op := none, txq := [],
      fault := (match s.fault with
        | none => some ⟨o, n, k⟩
        | some f => some f),
      status := .transportError, statusInfo := .transport o n k, statusValid := true } := by
  rfl

/-- An error answer fills in the last entry's outcome and raises (R49). -/
theorem takeAnswer_err (k : Kind) (s : State) (l : List LogEntry) (e : LogEntry) (hl : s.tlog = l ++ [e]) :
    takeAnswer (.err k) s = .failed (raise (.transportError (opCode s) s.seq k)
      { s with busy := false, tlog := l ++ [{ e with outcome := .err k }] }) := by
  rw [takeAnswer, hl, setLastOutcome_concat]

/-- An Ok answer fills in the last entry's outcome and completes the transfer (R49). -/
theorem takeAnswer_ok (s : State) (l : List LogEntry) (e : LogEntry) (hl : s.tlog = l ++ [e]) :
    takeAnswer .ok s = .done { s with
      busy := false, tlog := l ++ [{ e with outcome := .ok }], seq := s.seq + 1 } := by
  rw [takeAnswer, hl, setLastOutcome_concat]

/-! ### One transfer, answered Ok -/

/-- A command or data transfer answered Ok appends its one entry (R49, R62). -/
theorem exec_transfer_ok (i : Instr) (s : State) (as : List Answer) (hl : laneOf i = .transfer)
    (ha : s.answers = .ok :: as) :
    exec i s = .next { s with
      tlog := s.tlog ++ logOk s.cfg [transferBytes i], answers := as, seq := s.seq + 1, busy := false } := by
  have hsent := sendFrames_ok [i] [] s as ha
  rw [exec_transmit i s (by simp [hl]), transmit, framesOf_transfer s.cfg i hl, scrollAfter_transfer s.op i hl, hsent]
  simp [sentOk, logOk, entry]

/-! ### What an operation has done where a transfer is not completed -/

/-- What has been assigned before a transfer are assignments of the queue's items. -/
theorem mem_doneBefore (c : Config) (op : Option TxOp) (q : List TxItem) (j : Nat) :
    ∀ x ∈ doneBefore c op q j, ∃ it ∈ q, x ∈ itemAfter op it := by
  induction q generalizing j with
  | nil => simp [doneBefore]
  | cons it q ih =>
    intro x hx
    unfold doneBefore at hx
    split at hx
    · cases hx
    · rcases List.mem_append.mp hx with hx | hx
      · exact ⟨it, List.mem_cons_self .., hx⟩
      · obtain ⟨it', hit, hx'⟩ := ih _ x hx
        exact ⟨it', List.mem_cons_of_mem _ hit, hx'⟩

/-- An item that leaves FSM completes without an assignment to it. -/
theorem itemAfter_fsm (op : Option TxOp) (it : TxItem) (h : ∀ f, fsmOf f it = f) :
    ∀ x ∈ itemAfter op it, ∀ f, fsmOf f x = f := by
  cases it with
  | cmd i =>
    simp only [itemAfter, scrollAfter]
    split <;> simp [fsmOf]
  | setFsm g => simpa [itemAfter] using h
  | setScroll d => simp [itemAfter, fsmOf]

theorem doneBefore_fsm (c : Config) (op : Option TxOp) (q : List TxItem) (j : Nat) (f : Fsm)
    (h : ∀ it ∈ q, ∀ g, fsmOf g it = g) : (doneBefore c op q j).foldl fsmOf f = f := by
  refine foldl_fsm_id _ f fun x hx => ?_
  obtain ⟨it, hit, hx'⟩ := mem_doneBefore c op q j x hx
  exact itemAfter_fsm op it (h it hit) x hx'

/-- No operation assigns to FSM before its last transfer has completed (R141). -/
theorem opItems_fsm_before (o : TxOp) (s : State) (op : Option TxOp) (j : Nat) (f : Fsm)
    (hj : j < (queueFrames s.cfg (opItems o s)).length) :
    (doneBefore s.cfg op (opItems o s) j).foldl fsmOf f = f := by
  cases o with
  | initialise =>
    have hlen : j < (queueFrames s.cfg ((initSeq s.cfg).map .cmd)).length := by
      simpa [opItems, initItems, queueFrames_append, queueFrames, itemFrames] using hj
    rw [opItems, initItems, doneBefore_append _ _ _ _ _ hlen]
    exact doneBefore_fsm _ _ _ _ _ (by simp [fsmOf])
  | write | clearScreen | startScroll | stopScroll => exact doneBefore_fsm _ _ _ _ _ (opItems_fsm _ s nofun)

/-- A command of one byte is one transfer under either CMD_SPLIT (R63). -/
theorem itemFrames_oneByte (c : Config) (i : Instr) (b : Byte) (hl : laneOf i = .command)
    (hb : cmdBytes c.cmdtab i = [b]) : (itemFrames c (.cmd i)).length = 1 := by
  rw [← List.length_map (f := transferBytes), itemFrames_command c i hl, hb]
  cases c.split <;> rfl

/-- STARTSCROLL's deactivate is its transfer 0 and its activate the last one (R150). -/
theorem startScroll_before (c : Config) (left : Bool) (op : Option TxOp) (j : Nat)
    (hj : j < (queueFrames c (startScrollItems c left)).length) :
    doneBefore c op (startScrollItems c left) j = if j = 0 then [] else [.setScroll .off] := by
  have hdeactivate := itemFrames_oneByte c .scrollDeactivate _ rfl rfl
  have hactivate := itemFrames_oneByte c .scrollActivate _ rfl rfl
  have hsetup : itemAfter op (.cmd (scrollSetup c left)) = [] := by cases left <;> rfl
  have hoff : itemAfter op (.cmd .scrollDeactivate) = [.setScroll .off] := rfl
  simp only [startScrollItems, queueFrames, List.flatMap_cons, List.flatMap_nil, List.length_append, List.length_nil,
    hdeactivate, hactivate] at hj
  simp only [startScrollItems, doneBefore, hdeactivate, hactivate, hsetup, hoff, Nat.lt_one_iff, List.nil_append]
  split
  · rfl
  · split
    · rfl
    · rw [if_pos (by omega)]
      rfl

/-- SCROLL where transfer `j` of an operation has not completed (R149, R150). -/
theorem opItems_scroll_before (o : TxOp) (s : State) (j : Nat) (hj : j < (queueFrames s.cfg (opItems o s)).length) :
    (doneBefore s.cfg (some o) (opItems o s) j).foldl scrollOf s.scroll = opScroll o j s := by
  have hkept (ho : writesScroll (opInstr o) = false) :
      (doneBefore s.cfg (some o) (opItems o s) j).foldl scrollOf s.scroll = s.scroll := by
    refine foldl_scroll_id _ _ fun x hx => ?_
    obtain ⟨it, hit, hx'⟩ := mem_doneBefore _ _ _ _ x hx
    exact opItems_scroll o s ho it hit _ x hx'
  cases o with
  | initialise | write | clearScreen => exact hkept rfl
  | startScroll left =>
    rw [opItems, startScroll_before s.cfg left _ j hj, opScroll]
    split <;> rfl
  | stopScroll =>
    have hone := itemFrames_oneByte s.cfg .scrollDeactivate _ rfl rfl
    have hlt : j < (itemFrames s.cfg (.cmd .scrollDeactivate)).length := by
      simpa [opItems, stopScrollItems, queueFrames] using hj
    rw [opItems, stopScrollItems, doneBefore, if_pos hlt]
    rfl

/-- The transfers a queue still holds, in the spec's words and in the model's. -/
theorem queued_eq (c : Config) (q : List TxItem) : queued c q = (queueFrames c q).map transferBytes := by
  rw [queued, queueFrames, List.map_flatMap]
  congr 1
  funext it
  cases it <;> rfl

/-- Transfer `j` of an operation is transfer `j` of what it queues. -/
theorem opItems_frame_at (o : TxOp) (s : State) (j : Nat) (frame : List Byte) (h : (opFrames o s)[j]? = some frame) :
    ∃ f, (queueFrames s.cfg (opItems o s))[j]? = some f ∧ transferBytes f = frame := by
  rw [← opItems_frames, List.getElem?_map] at h
  exact Option.map_eq_some_iff.mp h

/-- TLOG entries of queued transfers answered Ok. -/
theorem logOk_take (o : TxOp) (s : State) (j : Nat) :
    ((queueFrames s.cfg (opItems o s)).take j).map (fun f => entry s.cfg (transferBytes f) .ok)
      = logOk s.cfg ((opFrames o s).take j) := by
  rw [← opItems_frames, ← List.map_take, logOk, List.map_map]
  rfl

/-- An operation without an answer to its transfer `j` waits there (R50). -/
theorem runQueue_opItems_wait (o : TxOp) (s : State) (j : Nat) (frame : List Byte)
    (hframe : (opFrames o s)[j]? = some frame) (ha : s.answers = List.replicate j .ok) :
    runQueue (opItems o s) (opStart o s) = { s with
      fb := opFb o s, fsm := opFsm o s, scroll := opScroll o j s,
      tlog := s.tlog ++ (logOk s.cfg ((opFrames o s).take j) ++ [⟨s.cfg.busId, s.cfg.addr, frame, .pending⟩]),
      answers := [], seq := j, busy := true, op := some o, txq := leftAt s.cfg (some o) (opItems o s) j } := by
  obtain ⟨f, hf, rfl⟩ := opItems_frame_at o s j frame hframe
  have hj := (List.getElem?_eq_some_iff.mp hf).1
  have hfsm := opItems_fsm_before o s (some o) j (opFsm o s) hj
  rw [runQueue_wait (opItems o s) (opStart o s) j f hf ha, waitAt, ← logOk_take, ← opItems_scroll_before o s j hj]
  simp [opStart, beginOp, entry, hfsm]

end Sys2Proof.Machine
end

/-! SUPPORT. The statements of the memory and the transport (20_memory.md), settled. -/

section
namespace Sys2Proof.Proofs

open Sys2Proof.Machine Sys2Proof.Claims

/-- Settles O17: the map's range (`fbAddr_in`), its injectivity (`fbAddr_inj`) and its inverse (`fbAddr_pixel`). -/
theorem pixelMapIsABijection : Obligations.PixelMapIsABijection := by
  unfold Obligations.PixelMapIsABijection
  intro c hc
  refine ⟨fbAddr_in c hc, fun x y x' y' => fbAddr_inj c x y x' y', fun a b ha hb => ?_⟩
  obtain ⟨hpanel, haddr⟩ := fbAddr_pixel c a b ha hb
  exact ⟨hpanel, haddr, by omega⟩

/-- Settles O18: `PixelPut` writes the one byte (`pixelPut_go`), and of that byte `putBit` changes the one bit. -/
theorem pixelPutChangesOneBit : Obligations.PixelPutChangesOneBit := by
  unfold Obligations.PixelPutChangesOneBit
  intro s x y on hc h
  refine ⟨_, pixelPut_go x y on s hc h, rfl, ?_, fun k hk => ?_, fun a hne => ?_⟩
  · rw [fbByte_write, if_pos rfl, putBit_eq]
  · rw [fbByte_write, if_pos rfl, putBit_getLsbD _ _ _ _ (by omega) hk]
  · rw [fbByte_write, if_neg hne]

/-- Settles O39: the operation's queue waits at its transfer `j` (`runQueue_opItems_wait`), and what is left of it are
the later transfers (`leftAt_frames`). -/
theorem unansweredTransferBlocks : Obligations.UnansweredTransferBlocks := by
  unfold Obligations.UnansweredTransferBlocks
  intro o s j frame hframe ha
  obtain ⟨f, hf, -⟩ := opItems_frame_at o s j frame hframe
  refine ⟨_, (exec_opInstr o s).trans (congrArg _ (runQueue_opItems_wait o s j frame hframe ha)), ?_⟩
  rw [queued_eq, leftAt_frames _ _ _ _ (List.getElem?_eq_some_iff.mp hf).1, List.map_drop, opItems_frames]

/-- Settles O12: the step of an executing operation takes its queue's head (`step_command`). -/
theorem stepRunsTheQueuedCommand : Obligations.StepRunsTheQueuedCommand := by
  unfold Obligations.StepRunsTheQueuedCommand
  exact step_command

/-- Settles O13: each of the three cases is a step of its own (`step_waits`, `step_faulted`, `step_stalled`). -/
theorem stepWaitsOrStops : Obligations.StepWaitsOrStops := by
  unfold Obligations.StepWaitsOrStops
  exact ⟨step_waits, fun s r rs hf => ⟨step_faulted s r rs hf, runEnded_faulted s r rs hf⟩, step_stalled⟩

/-- Settles O14: the step takes the answer (`step_answer`), which fills in the last entry's outcome. -/
theorem answerCompletesThePendingTransfer : Obligations.AnswerCompletesThePendingTransfer := by
  unfold Obligations.AnswerCompletesThePendingTransfer
  intro s o l e as hf ho hr hb hlog
  refine ⟨fun ha => ?_, fun k ha => ?_⟩
  · rw [step_answer s o .ok as hf ho hr hb ha, takeAnswer_ok { s with answers := as } l e hlog]
    rfl
  · rw [step_answer s o (.err k) as hf ho hr hb ha, takeAnswer_err k { s with answers := as } l e hlog,
      opCode_of_op { s with answers := as } o ho]
    exact congrArg Host.Outcome.next (raise_transportError_eq (opByte o) s.seq k _)

/-- Settles O32: the three ways of `transfer` (`transfer_ok`, `transfer_err`, `transfer_none`). -/
theorem transferFollowsItsAnswer : Obligations.TransferFollowsItsAnswer := by
  unfold Obligations.TransferFollowsItsAnswer
  intro s b
  refine ⟨fun as ha => transfer_ok b s as ha, fun k as o ha ho => ?_, fun ha => transfer_none b s ha⟩
  rw [transfer_err b s k as ha, opCode_of_op s o ho]
  exact congrArg Sent.failed (raise_transportError_eq (opByte o) s.seq k _)

/-- Settles O43: both framings are one transfer (`exec_transfer_ok`). -/
theorem wireTransfersAppendOneEntry : Obligations.WireTransfersAppendOneEntry := by
  unfold Obligations.WireTransfersAppendOneEntry
  exact fun s l as ha => ⟨exec_transfer_ok (.ctrlCommand l) s as rfl ha, exec_transfer_ok (.ctrlData l) s as rfl ha⟩

end Sys2Proof.Proofs
end

/-! SUPPORT. The three decoders (30_encoding.md): commands and transfers are read back, why a message is refused, and
what an idle block's step does with a message it refuses. -/

section
namespace Sys2Proof

open Sys2Proof.Claims

/-! ### Commands and transfers -/

/-- A start line in the low six bits of its opcode byte is read back from them (R70). -/
theorem startLine_fields (line : BitVec 6) :
    (0x40#8 ||| line.setWidth 8) &&& 0xC0#8 = 0x40#8 ∧ (0x40#8 ||| line.setWidth 8).setWidth 6 = line := by
  revert line
  decide

/-- A controller command at the front of a byte sequence is read back, and the rest is left (R66 to R89). -/
theorem parseCommand_cmdBytes_append (i : Instr) (rest : List Byte) (hl : laneOf i = .command) :
    parseCommand (cmdBytes ssd1306Default i ++ rest) = some (i, rest) := by
  cases i with
  | setStartLine line =>
    obtain ⟨hmatch, hline⟩ := startLine_fields line
    simp only [cmdBytes, ssd1306Default, List.cons_append, List.nil_append, parseCommand, hmatch, hline, if_true]
  | prepare | setPixel | drawLine | drawRect | setFont | drawChar | drawText | initialise | write | clearScreen
  | startScroll | stopScroll | ctrlCommand | ctrlData => cases hl
  | _ => rfl

theorem decodeCommand_cmdBytes (i : Instr) (hl : laneOf i = .command) :
    decodeCommand (cmdBytes ssd1306Default i) = some i := by
  have h := parseCommand_cmdBytes_append i [] hl
  rw [List.append_nil] at h
  rw [decodeCommand, h]

/-- A well-formed transfer is read back by its control byte (R62, R64). -/
theorem decodeTransfer_transferBytes (i : Instr) (hl : laneOf i = .transfer) (hw : wellFormed i = true) :
    decodeTransfer (transferBytes i) = some i := by
  cases i with
  | ctrlCommand rest => rw [transferBytes, decodeTransfer, if_pos rfl, if_pos (of_decide_eq_true hw)]
  | ctrlData payload => simpa [wellFormed, transferBytes, decodeTransfer] using hw
  | _ => cases hl

/-! ### Messages that decode to nothing -/

/-- A message is refused for its opcode or for its operands, and for nothing else (R61, R91). -/
theorem decodeRequest_error (bs : List Byte) (e : RefuseReason) (h : decodeRequest bs = .error e) :
    e = .unassignedOpcode ∨ e = .malformedRequest := by
  cases bs with
  | nil =>
    cases h
    exact .inr rfl
  | cons b bs =>
    simp only [decodeRequest, parseRequest] at h
    cases hp : parseOperands b.toNat bs with
    | none =>
      rw [hp] at h
      cases h
      exact .inl rfl
    | some q =>
      rw [hp] at h
      rcases q with _ | ⟨i, _ | _⟩ <;> cases h <;> exact .inr rfl

/-- A message is refused for its opcode exactly where the opcode has no operands to look up (R91). -/
theorem decodeRequest_unassigned (b : Byte) (bs : List Byte) :
    decodeRequest (b :: bs) = .error .unassignedOpcode ↔ parseOperands b.toNat bs = none := by
  simp only [decodeRequest, parseRequest]
  cases parseOperands b.toNat bs with
  | none => simp
  | some q => rcases q with _ | ⟨i, _ | _⟩ <;> simp

theorem assigned_iff (b : Byte) :
    assigned b = true ↔ (1 ≤ b.toNat ∧ b.toNat ≤ 7) ∨ (0x10 ≤ b.toNat ∧ b.toNat ≤ 0x14) := by
  simp [assigned]

theorem decodeRequest_unassigned_iff (b : Byte) (bs : List Byte) :
    decodeRequest (b :: bs) = .error .unassignedOpcode ↔ assigned b = false := by
  rw [decodeRequest_unassigned, parseOperands_none, ← assigned_iff, Bool.not_eq_true]

/-- The opcodes of R91's list are the ones that are not assigned. -/
theorem assigned_eq_false_iff (b : Byte) :
    assigned b = false ↔ b.toNat = 0 ∨ (0x08 ≤ b.toNat ∧ b.toNat ≤ 0x0F) ∨ 0x15 ≤ b.toNat := by
  rw [← Bool.not_eq_true, assigned_iff]
  omega

end Sys2Proof

namespace Sys2Proof.Machine

/-- An idle block refuses a message that does not decode: the mark is set and the message is gone (R176). -/
theorem step_refused (s : State) (r : Request) (rs : List Request) (e : RefuseReason) (hf : s.faults = [])
    (ho : s.op = none) (hr : s.requests = r :: rs) (halone : r.overlaps = false)
    (hd : decodeRequest r.bytes = .error e) : step s = .next (refuse e { s with requests := rs }) := by
  rw [step, fetch_idle s hf ho (by simp [hr, halone]), fetchRequest]
  simp only [hr, hd]

end Sys2Proof.Machine
end

/-! SUPPORT. What the transmitter hands over (R62 to R64): whatever the transport answers, a first part of an
instruction's transfers; with every answer Ok all of them, among which commands and data can be told apart. -/

section
namespace Sys2Proof.Machine

open Sys2Proof.Claims

/-! ### Computed parameters -/

/-- A parameter that fits one byte is sent unreduced (R90). -/
theorem paramByte_toNat {n : Nat} (h : n < 256) : (paramByte n).toNat = n := by
  rw [paramByte, BitVec.toNat_ofNat]
  exact Nat.mod_eq_of_lt h

/-! ### What TLOG gains, whatever the transport answers -/

/-- TLOG of `t` is that of `s` and entries of this block, which are the first transfers of `fs` (R29, R49). -/
def AppendsFirst (fs : List Instr) (s t : State) : Prop :=
  ∃ es, t.tlog = s.tlog ++ es ∧ es.map (·.bytes) <+: fs.map transferBytes
    ∧ ∀ e ∈ es, e.bus = s.cfg.busId ∧ e.addr = s.cfg.addr

theorem AppendsFirst.nothing {fs : List Instr} {s t : State} (h : t.tlog = s.tlog) : AppendsFirst fs s t :=
  ⟨[], by rw [h, List.append_nil], List.nil_prefix, nofun⟩

/-- All transfers went through. -/
theorem AppendsFirst.all {fs : List Instr} {s t : State}
    (h : t.tlog = s.tlog ++ fs.map fun f => entry s.cfg (transferBytes f) .ok) : AppendsFirst fs s t := by
  refine ⟨_, h, ?_, ?_⟩
  · simp [entry, Function.comp_def]
  · simp [entry]

/-- Transfer `j` was the last one handed over. -/
theorem AppendsFirst.upTo {fs : List Instr} {s t : State} {j : Nat} {f : Instr} {r : TransferOutcome}
    (hj : fs[j]? = some f)
    (h : t.tlog = s.tlog ++ ((fs.take j).map (fun f => entry s.cfg (transferBytes f) .ok)
      ++ [entry s.cfg (transferBytes f) r])) : AppendsFirst fs s t := by
  refine ⟨_, h, ?_, ?_⟩
  · have htake : fs.take (j + 1) = fs.take j ++ [f] := by rw [List.take_add_one, hj]; rfl
    have hbytes := (List.take_prefix (j + 1) fs).map transferBytes
    rw [htake] at hbytes
    simpa [entry, Function.comp_def] using hbytes
  · intro e he
    simp only [List.mem_append, List.mem_map, List.mem_singleton] at he
    rcases he with ⟨g, -, rfl⟩ | rfl <;> exact ⟨rfl, rfl⟩

theorem AppendsFirst.length_le {fs : List Instr} {s t : State} (h : AppendsFirst fs s t) :
    t.tlog.length ≤ s.tlog.length + fs.length := by
  obtain ⟨es, hlog, hfirst, -⟩ := h
  have hlen := hfirst.length_le
  rw [List.length_map, List.length_map] at hlen
  rw [hlog, List.length_append]
  omega

theorem framed_cons {bs : List Byte} (h : framed bs = true) :
    ∃ b rest, bs = b :: rest ∧ (b = 0x00#8 ∨ b = 0x40#8) ∧ 1 ≤ rest.length := by
  cases bs with
  | nil => cases h
  | cons b rest =>
    simp only [framed, Bool.or_eq_true, Bool.and_eq_true, decide_eq_true_eq] at h
    rcases h with ⟨hb, hrest⟩ | ⟨⟨hb, hrest⟩, -⟩
    · exact ⟨b, rest, rfl, .inl hb, hrest⟩
    · exact ⟨b, rest, rfl, .inr hb, hrest⟩

/-- Entries that are well-formed transfers are framed (R62). -/
theorem AppendsFirst.framed {fs : List Instr} {s t : State} (h : AppendsFirst fs s t)
    (hfs : ∀ f ∈ fs, laneOf f = .transfer ∧ wellFormed f = true) :
    ∃ es, t.tlog = s.tlog ++ es ∧ ∀ e ∈ es, e.bus = s.cfg.busId ∧ e.addr = s.cfg.addr ∧ framed e.bytes = true := by
  obtain ⟨es, hlog, hfirst, hdest⟩ := h
  refine ⟨es, hlog, fun e he => ?_⟩
  obtain ⟨hbus, haddr⟩ := hdest e he
  obtain ⟨f, hf, hbytes⟩ := List.mem_map.mp (hfirst.subset (List.mem_map_of_mem he))
  obtain ⟨hl, hw⟩ := hfs f hf
  exact ⟨hbus, haddr, hbytes ▸ framed_transferBytes f hl hw⟩

theorem sendFrames_appendsFirst (fs : List Instr) (l : List TxItem) (s : State) :
    AppendsFirst fs s (sendFrames fs l s).state := by
  rcases answers_cases fs.length s.answers with ⟨bs, h⟩ | ⟨j, k, bs, hj, h⟩ | ⟨j, hj, h⟩
  · rw [sendFrames_ok fs l s bs h]
    exact .all rfl
  · rw [sendFrames_err fs l s j k bs _ (List.getElem?_eq_getElem hj) h]
    exact .upTo (List.getElem?_eq_getElem hj) rfl
  · rw [sendFrames_wait fs l s j _ (List.getElem?_eq_getElem hj) h]
    exact .upTo (List.getElem?_eq_getElem hj) rfl

theorem runQueue_appendsFirst (q : List TxItem) (s : State) :
    AppendsFirst (queueFrames s.cfg q) s (runQueue q s) := by
  rcases answers_cases (queueFrames s.cfg q).length s.answers with ⟨bs, h⟩ | ⟨j, k, bs, hj, h⟩ | ⟨j, hj, h⟩
  · rw [runQueue_ok q s bs h]
    exact .all rfl
  · rw [runQueue_err q s j k bs _ (List.getElem?_eq_getElem hj) h]
    exact .upTo (List.getElem?_eq_getElem hj) rfl
  · rw [runQueue_wait q s j _ (List.getElem?_eq_getElem hj) h]
    exact .upTo (List.getElem?_eq_getElem hj) rfl

theorem exec_opInstr_appendsFirst (o : TxOp) (s t : State) (h : exec (opInstr o) s = .next t) :
    AppendsFirst (queueFrames s.cfg (opItems o s)) s t := by
  rw [exec_opInstr] at h
  cases h
  exact runQueue_appendsFirst (opItems o s) (opStart o s)

theorem drawing_tlog (i : Instr) (s t : State) (hi : isDrawing i = true) (h : exec i s = .next t) :
    t.tlog = s.tlog := by
  rw [(drawing_frame i s t hi h).1]

/-- Whatever the transport answers, an instruction appends first transfers of a list of well-formed ones. -/
theorem exec_appendsFirst (i : Instr) (s t : State) (hw : wellFormed i = true) (h : exec i s = .next t) :
    ∃ fs, AppendsFirst fs s t ∧ ∀ f ∈ fs, laneOf f = .transfer ∧ wellFormed f = true := by
  rcases instr_kinds i with hi | ⟨o, rfl⟩ | hi
  · exact ⟨[], .nothing (drawing_tlog i s t hi h), nofun⟩
  · refine ⟨_, exec_opInstr_appendsFirst o s t h, fun f hf => ?_⟩
    obtain ⟨it, hit, hf⟩ := List.mem_flatMap.mp hf
    exact itemFrames_ok s.cfg it (opItems_ok o s it hit) f hf
  · rw [exec_transmit i s hi] at h
    cases h
    exact ⟨_, sendFrames_appendsFirst (framesOf s.cfg i) (scrollAfter s.op i) s,
      fun f hf => ⟨framesOf_lane s.cfg i f hf, framesOf_wellFormed s.cfg i f hw hf⟩⟩

/-- A host operation in the admitted geometry appends at most as many entries as WRITE on the largest panel (R31). -/
theorem exec_request_tlog_length (i : Instr) (s t : State) (hc : admitted s.cfg = true) (hl : laneOf i = .request)
    (h : exec i s = .next t) : t.tlog.length ≤ s.tlog.length + transferCap := by
  rcases request_kinds i hl with hi | ⟨o, rfl⟩
  · rw [drawing_tlog i s t hi h]
    exact Nat.le_add_right _ _
  · have hlen := (exec_opInstr_appendsFirst o s t h).length_le
    have hcap := opFrames_length o s hc
    rw [← opItems_frames, List.length_map] at hcap
    omega

/-! ### What TLOG gains with every answer Ok -/

/-- A transmitting operation whose transfers are all answered Ok hands over all of them and ends OK (R144 to R151). -/
theorem exec_opInstr_ok (o : TxOp) (s : State) (as : List Answer)
    (h : s.answers = List.replicate (opFrames o s).length .ok ++ as) :
    ∃ t, exec (opInstr o) s = .next t ∧ t.status = .ok ∧ t.tlog = s.tlog ++ logOk s.cfg (opFrames o s) := by
  rw [← opItems_frames, List.length_map] at h
  refine ⟨_, exec_opInstr o s, ?_⟩
  rw [runQueue_ok (opItems o s) (opStart o s) as h]
  refine ⟨rfl, congrArg (s.tlog ++ ·) ?_⟩
  rw [← opItems_frames, logOk, List.map_map]
  rfl

theorem logOk_length (c : Config) (frames : List (List Byte)) : (logOk c frames).length = frames.length := by
  simp [logOk]

/-- The transfers handed over are those of the entries appended. -/
theorem sent_of_logOk {s t : State} {frames : List (List Byte)} (h : t.tlog = s.tlog ++ logOk s.cfg frames) :
    sent s t = frames := by
  simp [sent, h, logOk, Function.comp_def]

/-! ### The commands and the data among transfers -/

/-- Those of some transfers that are data transfers (R62). -/
def dataOf (frames : List (List Byte)) : List (List Byte) := frames.filter fun b => decide (b.head? = some 0x40#8)

/-- What follows the control bytes of those that are command transfers (R63). -/
def commandBytesOf (frames : List (List Byte)) : List Byte :=
  (frames.filter fun b => decide (b.head? = some 0x00#8)).flatMap List.tail

theorem dataSent_eq (s t : State) : dataSent s t = dataOf (sent s t) := rfl

theorem commandBytesSent_eq (s t : State) : commandBytesSent s t = commandBytesOf (sent s t) := rfl

theorem dataOf_append (l m : List (List Byte)) : dataOf (l ++ m) = dataOf l ++ dataOf m := List.filter_append ..

theorem commandBytesOf_append (l m : List (List Byte)) :
    commandBytesOf (l ++ m) = commandBytesOf l ++ commandBytesOf m := by
  simp [commandBytesOf]

/-- `Cmd` sends no data transfer. -/
theorem dataOf_cut (split : CmdSplit) (cmds : List (List Byte)) : dataOf (cut split cmds) = [] := by
  cases split <;> simp [dataOf, cut]

theorem commandBytesOf_commands (cmds : List (List Byte)) : commandBytesOf (cmds.map (0x00#8 :: ·)) = cmds.flatten := by
  simp [commandBytesOf, List.filter_map, Function.comp_def, List.flatMap_map]

/-- `Cmd` sends the commands' bytes in order, however they are cut (R63). -/
theorem commandBytesOf_cut (split : CmdSplit) (cmds : List (List Byte)) :
    commandBytesOf (cut split cmds) = cmds.flatten := by
  cases split with
  | perCommand => exact commandBytesOf_commands cmds
  | perByte =>
    have h := commandBytesOf_commands (cmds.flatten.map ([·]))
    rwa [List.map_map, ← List.flatMap_def, List.flatMap_singleton'] at h

/-- The data transfers of WRITE, one a burst (R142, R146). -/
def burstFrames (s : State) : List (List Byte) :=
  (List.range ((fbSize s.cfg + 15) / 16)).map fun b => 0x40#8 :: payload s b

theorem dataOf_writeFrames (s : State) : dataOf (writeFrames s) = burstFrames s := by
  rw [writeFrames, dataOf_append, dataOf_cut, List.nil_append, dataOf, List.filter_flatMap, burstFrames,
    List.map_eq_flatMap]
  simp

/-- Before each burst, WRITE sends one start line (R143). -/
theorem commandBytesOf_writeFrames (s : State) :
    commandBytesOf (writeFrames s) = (opCommands .write s.cfg).flatten := by
  rw [writeFrames, commandBytesOf_append, commandBytesOf_cut, opCommands, List.flatten_append]
  congr 1
  rw [commandBytesOf, List.filter_flatMap, List.flatMap_assoc]
  simp [← List.map_eq_flatMap]

/-- The data transfers of a transmitting operation. -/
def opData (o : TxOp) (s : State) : List (List Byte) :=
  match o with
  | .write => burstFrames s
  | .clearScreen => burstFrames (cleared s)
  | .initialise => []
  | .startScroll _ => []
  | .stopScroll => []

theorem dataOf_opFrames (o : TxOp) (s : State) : dataOf (opFrames o s) = opData o s := by
  cases o with
  | initialise => exact dataOf_cut _ _
  | write => exact dataOf_writeFrames s
  | clearScreen => exact dataOf_writeFrames (cleared s)
  | startScroll left => exact dataOf_cut _ _
  | stopScroll => rfl

/-- The commands of a transmitting operation are sent in order (R140, R143, R146, R150, R151). -/
theorem commandBytesOf_opFrames (o : TxOp) (s : State) :
    commandBytesOf (opFrames o s) = (opCommands o s.cfg).flatten := by
  cases o with
  | initialise => exact commandBytesOf_cut _ _
  | write => exact commandBytesOf_writeFrames s
  | clearScreen => exact commandBytesOf_writeFrames (cleared s)
  | startScroll left => exact commandBytesOf_cut _ _
  | stopScroll => rfl

/-- Neither the commands nor the data depend on CMD_SPLIT (R63). -/
theorem opCommands_withSplit (o : TxOp) (split : CmdSplit) (s : State) :
    opCommands o (withSplit split s).cfg = opCommands o s.cfg := by
  cases o <;> rfl

theorem opData_withSplit (o : TxOp) (split : CmdSplit) (s : State) : opData o (withSplit split s) = opData o s := by
  cases o <;> rfl

theorem opFrames_withAnswers (o : TxOp) (as : List Answer) (s : State) :
    opFrames o (withAnswers as s) = opFrames o s := by
  cases o <;> rfl

/-- A transmitting operation under a CMD_SPLIT, with every answer Ok: which command bytes and which data it sends. -/
theorem exec_opInstr_withSplit (o : TxOp) (s : State) (split : CmdSplit) (as : List Answer) :
    ∃ t, exec (opInstr o)
        (withAnswers (List.replicate (opFrames o (withSplit split s)).length .ok ++ as) (withSplit split s)) = .next t
      ∧ commandBytesSent s t = (opCommands o s.cfg).flatten ∧ dataSent s t = opData o s := by
  obtain ⟨t, hexec, -, hlog⟩ := exec_opInstr_ok o
    (withAnswers (List.replicate (opFrames o (withSplit split s)).length .ok ++ as) (withSplit split s)) as
    (by rw [opFrames_withAnswers]; rfl)
  have hsent : sent s t = opFrames o (withSplit split s) := by
    rw [← opFrames_withAnswers o _ (withSplit split s)]
    exact sent_of_logOk hlog
  refine ⟨t, hexec, ?_, ?_⟩
  · rw [commandBytesSent_eq, hsent, commandBytesOf_opFrames, opCommands_withSplit]
  · rw [dataSent_eq, hsent, dataOf_opFrames, opData_withSplit]

/-- `Cmd` of one command keeps its bytes (R63). -/
theorem cutCommand_flatMap_tail (split : CmdSplit) (c : List Byte) :
    (cutCommand split c).flatMap (fun f => (transferBytes f).tail) = c := by
  cases split <;> simp [cutCommand, transferBytes, List.flatMap_map]

/-! ### How many transfers -/

theorem opFrames_initialise_length (s : State) :
    (opFrames .initialise s).length = if s.cfg.split = .perCommand then 14 else 21 := by
  simp only [opFrames]
  cases s.cfg.split <;> simp [cut, initCommands]

theorem opFrames_write_length (s : State) : (opFrames .write s).length
    = (if s.cfg.split = .perCommand then 2 else 6) + 2 * ((fbSize s.cfg + 15) / 16) := by
  have hbursts : ∀ n : Nat, ((List.range n).flatMap
      fun b => [[0x00#8, s.cfg.cmdtab.setStartLine], 0x40#8 :: payload s b]).length = 2 * n := by
    intro n
    simp [List.length_flatMap, Nat.mul_comm]
  simp only [opFrames, writeFrames, List.length_append, hbursts]
  cases s.cfg.split <;> simp [cut]

/-! ### One controller command -/

/-- Each row is a controller command with its bytes, of which there is at least one (R66 to R89). -/
theorem commandRows_bytes (t : CmdTab) (p q r : Byte) (line : BitVec 6) :
    ∀ row ∈ commandRows t p q r line, laneOf row.1 = .command ∧ cmdBytes t row.1 = row.2 ∧ row.2 ≠ [] := by
  simp [commandRows, laneOf, cmdBytes]

/-- SCROLL once a command has completed (R149). -/
theorem scrollAfter_scroll (op : Option TxOp) (i : Instr) (d : Scroll) :
    (scrollAfter op i).foldl scrollOf d = scrollDone i op d := by
  unfold scrollAfter
  split
  · rfl
  next left => cases left <;> rfl
  next hoff hon =>
    rw [scrollDone, if_neg hoff]
    split
    next hi =>
      rw [if_neg (hon true hi), if_neg (hon false hi)]
      rfl
    next => rfl

/-- A command of at least one byte is at least one transfer (R63). -/
theorem framesOf_command_isEmpty (c : Config) (i : Instr) (hl : laneOf i = .command) (hne : cmdBytes c.cmdtab i ≠ []) :
    (framesOf c i).isEmpty = false := by
  simp only [framesOf, hl, cutCommand]
  cases c.split with
  | perCommand => rfl
  | perByte => simpa using hne

/-- A controller command whose transfers are answered Ok (R63, R149). -/
theorem exec_command_ok (i : Instr) (s : State) (as : List Answer) (hl : laneOf i = .command)
    (hne : cmdBytes s.cfg.cmdtab i ≠ [])
    (ha : s.answers = List.replicate (cut s.cfg.split [cmdBytes s.cfg.cmdtab i]).length .ok ++ as) :
    exec i s = .next { s with
      scroll := scrollDone i s.op s.scroll,
      tlog := s.tlog ++ logOk s.cfg (cut s.cfg.split [cmdBytes s.cfg.cmdtab i]), answers := as,
      seq := s.seq + (cut s.cfg.split [cmdBytes s.cfg.cmdtab i]).length, busy := false } := by
  have hframes : (framesOf s.cfg i).map transferBytes = cut s.cfg.split [cmdBytes s.cfg.cmdtab i] :=
    itemFrames_command s.cfg i hl
  have hsome := framesOf_command_isEmpty s.cfg i hl hne
  rw [← hframes, List.length_map] at ha ⊢
  rw [exec_transmit i s (by simp [hl]), transmit, sendFrames_ok _ _ s as ha, sent_state_done, sentOk, hsome,
    scrollAfter_fsm, scrollAfter_scroll, logOk, List.map_map, Bool.and_false]
  rfl

end Sys2Proof.Machine
end

/-! SUPPORT. The statements of the encodings (30_encoding.md), settled. -/

section
namespace Sys2Proof.Proofs

open Sys2Proof.Machine Sys2Proof.Claims

/-- Settles O5: each format's own round trip (`decodeRequest_iff`, `decodeCommand_cmdBytes`,
`decodeTransfer_transferBytes`). -/
theorem decodeOfEncode : Obligations.DecodeOfEncode := by
  unfold Obligations.DecodeOfEncode
  intro i hw
  cases hl : laneOf i with
  | request =>
    rw [encode, hl, decodeLane, (decodeRequest_iff _ i).mpr ⟨hl, hw, rfl⟩]
    rfl
  | command =>
    rw [encode, hl]
    exact decodeCommand_cmdBytes i hl
  | transfer =>
    rw [encode, hl]
    exact decodeTransfer_transferBytes i hl hw

/-- Settles O6: what decodes is exactly an encoding (`decodeRequest_iff`). -/
theorem requestsHaveOneEncoding : Obligations.RequestsHaveOneEncoding := by
  unfold Obligations.RequestsHaveOneEncoding
  intro bs i h
  obtain ⟨hl, hw, hbs⟩ := (decodeRequest_iff bs i).mp h
  exact ⟨hbs.symm, hl, hw⟩

/-- Settles O7: a command is read back whatever follows it (`parseCommand_cmdBytes_append`). -/
theorem commandsDecodeInAStream : Obligations.CommandsDecodeInAStream := by
  unfold Obligations.CommandsDecodeInAStream
  exact parseCommand_cmdBytes_append

/-- Settles O8: the decoder refuses for its opcode what is not assigned (`decodeRequest_unassigned_iff`), and the step
of an idle block refuses what its decoder refuses (`step_refused`). -/
theorem unassignedOpcodesAreRefused : Obligations.UnassignedOpcodesAreRefused := by
  unfold Obligations.UnassignedOpcodesAreRefused
  have hdecode (b : Byte) (bs : List Byte) : decodeRequest (b :: bs) = .error .unassignedOpcode
      ↔ (b.toNat = 0 ∨ (0x08 ≤ b.toNat ∧ b.toNat ≤ 0x0F) ∨ 0x15 ≤ b.toNat) :=
    (decodeRequest_unassigned_iff b bs).trans (assigned_eq_false_iff b)
  exact ⟨hdecode, fun s b bs rs hf ho hr hb => step_refused s _ rs _ hf ho hr rfl ((hdecode b bs).mpr hb)⟩

/-- Settles O9: a message that is no encoding is refused (`decodeRequest_iff`), and with an assigned opcode not for its
opcode, so for its operands (`decodeRequest_error`); the step refuses what the decoder refuses (`step_refused`). -/
theorem malformedRequestsAreRefused : Obligations.MalformedRequestsAreRefused := by
  unfold Obligations.MalformedRequestsAreRefused
  refine ⟨fun b bs hb hnone => ?_, fun s bs rs hf ho hr hd => step_refused s _ rs _ hf ho hr rfl hd⟩
  cases hd : decodeRequest (b :: bs) with
  | ok i =>
    obtain ⟨-, hw, hbs⟩ := (decodeRequest_iff _ i).mp hd
    exact absurd hbs.symm (hnone i hw)
  | error e =>
    rcases decodeRequest_error _ e hd with rfl | rfl
    · rw [decodeRequest_unassigned_iff, hb] at hd
      cases hd
    · rfl

/-- Settles O10: the eight words, decoded. -/
theorem sampleWordsDecode : Obligations.SampleWordsDecode := by
  unfold Obligations.SampleWordsDecode
  exact ⟨rfl, rfl, rfl, rfl, rfl, rfl, rfl, rfl⟩

/-- Settles O41: the operation hands over all its transfers (`exec_opInstr_ok`), which are counted; whatever the
answers, TLOG gains no more than these (`exec_request_tlog_length`). -/
theorem transferCounts : Obligations.TransferCounts := by
  unfold Obligations.TransferCounts
  refine ⟨fun s as ha => ?_, fun s as ha => ?_, exec_request_tlog_length⟩
  · rw [← opFrames_initialise_length] at ha ⊢
    obtain ⟨t, hexec, hstatus, hlog⟩ := exec_opInstr_ok .initialise s as ha
    exact ⟨t, hexec, hstatus, by rw [hlog, List.length_append, logOk_length]⟩
  · rw [← opFrames_write_length] at ha ⊢
    obtain ⟨t, hexec, hstatus, hlog⟩ := exec_opInstr_ok .write s as ha
    refine ⟨t, hexec, hstatus, by rw [hlog, List.length_append, logOk_length], ?_⟩
    rw [dataSent_eq, sent_of_logOk hlog, dataOf_opFrames]
    simp [opData, burstFrames]

/-- Settles O42: each row is a controller command with its bytes (`commandRows_bytes`), which answered Ok sends them
(`exec_command_ok`). -/
theorem commandsSendTheirBytes : Obligations.CommandsSendTheirBytes := by
  unfold Obligations.CommandsSendTheirBytes
  intro s p q r line row hrow as ha
  obtain ⟨hl, hbytes, hne⟩ := commandRows_bytes s.cfg.cmdtab p q r line row hrow
  rw [← hbytes] at ha hne ⊢
  exact exec_command_ok row.1 s as hl hne ha

/-- Settles O45: under any CMD_SPLIT an operation sends the bytes of its commands and its data, neither of which depends
on CMD_SPLIT (`exec_opInstr_withSplit`); one command's bytes are kept by `cutCommand` (`cutCommand_flatMap_tail`). -/
theorem splitSendsTheSameBytes : Obligations.SplitSendsTheSameBytes := by
  unfold Obligations.SplitSendsTheSameBytes
  refine ⟨fun o s split as => ?_, cutCommand_flatMap_tail⟩
  obtain ⟨t, hexec, hcommands, hdata⟩ := exec_opInstr_withSplit o s split as
  refine ⟨t, hexec, hcommands, fun split' as' => ?_⟩
  obtain ⟨u, hexec', hcommands', hdata'⟩ := exec_opInstr_withSplit o s split' as'
  exact ⟨u, hexec', hcommands'.trans hcommands.symm, hdata'.trans hdata.symm⟩

/-- Settles O47: an instruction appends first transfers of a list of well-formed ones (`exec_appendsFirst`), which are
framed. -/
theorem everyTransferIsFramed : Obligations.EveryTransferIsFramed := by
  unfold Obligations.EveryTransferIsFramed
  intro i s t hw h
  obtain ⟨fs, hfirst, hfs⟩ := exec_appendsFirst i s t hw h
  obtain ⟨es, hlog, hes⟩ := hfirst.framed hfs
  refine ⟨es, hlog, fun e he => ?_⟩
  obtain ⟨hbus, haddr, hframed⟩ := hes e he
  exact ⟨hbus, haddr, framed_cons hframed⟩

/-- Settles O46: the admitted geometry bounds `H`, `W` and with them `PAGES` (`admitted_iff`). -/
theorem parametersFitOneByte : Obligations.ParametersFitOneByte := by
  unfold Obligations.ParametersFitOneByte
  intro c hc
  obtain ⟨⟨-, hw⟩, ⟨hh8, hh, -⟩, -⟩ := (admitted_iff c).mp hc
  have hpages : pages c - 1 ≤ 31 := by
    unfold pages
    omega
  exact ⟨paramByte_toNat (by omega), paramByte_toNat (by omega), paramByte_toNat (by omega), by omega, hpages⟩

end Sys2Proof.Proofs
end

/-! SUPPORT. The raster operations (40_raster.md): what each paints, or that it rejects its operands, and that painting
the same pixels again changes no byte (R51). -/

section
namespace Sys2Proof.Machine

open Sys2Proof.Claims

/-! ### Painting, as the statements say it -/

@[simp] theorem fbByte_setStatus (st : Status) (info : StatusInfo) (s : State) (a : Nat) :
    fbByte (setStatus st info s) a = fbByte s a := rfl

/-- An operation that has painted ends OK, and drew what it painted. -/
theorem Paints.drawnOk {S : Int → Int → Prop} {on : Bool} {s t : State} (h : Paints S on s t) :
    DrawnOk s (finish (.go t)) ∧ Drawn S on s (finish (.go t)) :=
  ⟨congrArg (setStatus .ok .nothing) h.frame, fun x y hp => ⟨h.inside x y hp, h.outside x y hp⟩, h.bytes⟩

/-- Where no byte reads differently, no pixel was drawn. -/
theorem drawn_nothing {on : Bool} {s t : State} (hc : t.cfg = s.cfg) (hb : ∀ a, fbByte t a = fbByte s a) :
    Drawn (fun _ _ => False) on s t := by
  refine ⟨fun x y _ => ⟨False.elim, fun _ => ?_⟩, fun a _ => hb a⟩
  rw [pixelGet, pixelGet, hc, hb]

/-! ### PREPARE -/

theorem exec_prepare (s : State) : exec .prepare s = .next (setStatus .ok .nothing (clearFb s)) := rfl

/-- PREPARE puts every pixel of the panel off (R100). -/
theorem exec_prepare_drawn (s : State) (hc : admitted s.cfg = true) :
    Drawn (fun _ _ => True) false s (setStatus .ok .nothing (clearFb s)) := by
  refine ⟨fun x y hp => ⟨fun _ => ?_, fun hn => absurd trivial hn⟩, fun a ha => ?_⟩
  · have haddr := fbAddr_in s.cfg hc x y hp
    rw [pixelGet, setStatus_cfg, clearFb_cfg, fbByte_setStatus, fbByte_clearFb, if_pos (by omega),
      BitVec.getLsbD_zero]
  · rw [fbByte_setStatus, fbByte_clearFb, if_neg]
    intro hlt
    obtain ⟨hpanel, haddr⟩ := fbAddr_pixel s.cfg a 0 hlt (by decide)
    exact ha _ _ hpanel trivial (by omega)

/-! ### SETPIXEL -/

theorem exec_setPixel (s : State) (x y : Int) (on : Bool) :
    exec (.setPixel x y on) s = .next (finish (clippedPut x y on s)) := rfl

theorem exec_setPixel_drawn (s : State) (x y : Int) (on : Bool) (hc : admitted s.cfg = true) :
    ∃ t, exec (.setPixel x y on) s = .next t ∧ DrawnOk s t ∧ Drawn (fun px py => px = x ∧ py = y) on s t := by
  obtain ⟨t, ht, hp⟩ := clippedPut_paints x y on s hc
  exact ⟨finish (.go t), by rw [exec_setPixel, ht], hp.drawnOk⟩

theorem exec_setPixel_offPanel (s : State) (x y : Int) (on : Bool) (h : ¬ onPanel s.cfg x y = true) :
    exec (.setPixel x y on) s = .next (setStatus .ok .nothing s) := by
  rw [exec_setPixel, clippedPut, if_neg h, finish_go]

/-! ### DRAWLINE -/

theorem exec_drawLine (s : State) (x0 y0 x1 y1 : Int) (on : Bool) : exec (.drawLine x0 y0 x1 y1 on) s
    = .next (if lineOK s.cfg ⟨x0, y0, x1, y1⟩ then finish (lineFill ⟨x0, y0, x1, y1⟩ on s)
        else setStatus .invalidArgument (.opcode 0x03#8) s) := rfl

theorem exec_drawLine_drawn (s : State) (x0 y0 x1 y1 : Int) (on : Bool) (hc : admitted s.cfg = true)
    (h : lineOK s.cfg ⟨x0, y0, x1, y1⟩ = true) : ∃ t, exec (.drawLine x0 y0 x1 y1 on) s = .next t ∧ DrawnOk s t
      ∧ Drawn (inLine s.cfg ⟨x0, y0, x1, y1⟩) on s t := by
  obtain ⟨t, ht, hp⟩ := lineFill_paints ⟨x0, y0, x1, y1⟩ on s hc h
  exact ⟨finish (.go t), by rw [exec_drawLine, if_pos h, ht], hp.drawnOk⟩

theorem exec_drawLine_rejected (s : State) (x0 y0 x1 y1 : Int) (on : Bool)
    (h : ¬ lineOK s.cfg ⟨x0, y0, x1, y1⟩ = true) :
    exec (.drawLine x0 y0 x1 y1 on) s = .next (setStatus .invalidArgument (.opcode 0x03#8) s) := by
  rw [exec_drawLine, if_neg h]

/-! ### DRAWRECT -/

/-- DRAWRECT's validation: the size check and all four edges (R106). -/
def rectOK (c : Config) (x y w h : Int) : Bool := rectSizeOK c w h && (rectEdges x y w h).all (lineOK c)

theorem exec_drawRect (s : State) (x y w h : Int) (on : Bool) : exec (.drawRect x y w h on) s
    = .next (if rectOK s.cfg x y w h then finish (forEach (fun e => lineFill e on) (rectEdges x y w h) s)
        else setStatus .invalidArgument (.opcode 0x04#8) s) := rfl

/-- The closed form of DRAWRECT's validity (R107). -/
theorem rectOK_iff (c : Config) (x y w h : Int) : rectOK c x y w h = true ↔
    1 ≤ w ∧ w ≤ (c.w : Int) ∧ 1 ≤ h ∧ h ≤ (c.h : Int) ∧ 0 ≤ x ∧ 0 ≤ y ∧ x + w - 1 ≤ (c.w : Int)
      ∧ y + h - 1 ≤ (c.h : Int) := by
  simp only [rectOK, rectSizeOK, rectEdges, List.all_cons, List.all_nil, Bool.and_eq_true, decide_eq_true_eq,
    lineOK_iff, and_true]
  omega

/-- The clamped edges of a rectangle no higher than the panel are the outline of R107. -/
theorem inEdges_iff_onOutline (c : Config) (x y w h px py : Int) (hh : h ≤ (c.h : Int)) :
    (∃ e ∈ rectEdges x y w h, inLine c e px py) ↔ onOutline (c.w : Int) (c.h : Int) x y w h px py := by
  simp only [rectEdges, List.mem_cons, List.not_mem_nil, or_false, exists_eq_or_imp, exists_eq_left, inLine, onOutline]
  omega

theorem exec_drawRect_drawn (s : State) (x y w h : Int) (on : Bool) (hc : admitted s.cfg = true)
    (hok : rectOK s.cfg x y w h = true) : ∃ t, exec (.drawRect x y w h on) s = .next t ∧ DrawnOk s t
      ∧ Drawn (onOutline (s.cfg.w : Int) (s.cfg.h : Int) x y w h) on s t := by
  obtain ⟨t, ht, hp⟩ := rectFill_paints (rectEdges x y w h) on s hc (Bool.and_eq_true_iff.mp hok).2
  obtain ⟨-, -, -, hh, -⟩ := (rectOK_iff s.cfg x y w h).mp hok
  exact ⟨finish (.go t), by rw [exec_drawRect, if_pos hok, ht],
    (hp.congr fun px py _ => inEdges_iff_onOutline s.cfg x y w h px py hh).drawnOk⟩

theorem exec_drawRect_rejected (s : State) (x y w h : Int) (on : Bool) (hok : ¬ rectOK s.cfg x y w h = true) :
    exec (.drawRect x y w h on) s = .next (setStatus .invalidArgument (.opcode 0x04#8) s) := by
  rw [exec_drawRect, if_neg hok]

/-! ### DRAWCHAR -/

theorem exec_drawChar (s : State) (x y : Int) (c : Byte) :
    exec (.drawChar x y c) s = .next (finish (drawGlyph s.font x y c s)) := rfl

theorem exec_drawChar_drawn (s : State) (x y : Int) (c : Byte) (g : Nat) (hc : admitted s.cfg = true)
    (hg : glyphIndex s.font c = .ok g) :
    ∃ t, exec (.drawChar x y c) s = .next t ∧ DrawnOk s t ∧ Drawn (inGlyph s.font g x y) true s t := by
  obtain ⟨t, ht, hp⟩ := drawGlyph_paints s.font x y c g s hc hg
  exact ⟨finish (.go t), by rw [exec_drawChar, ht], hp.drawnOk⟩

theorem exec_drawChar_missing (s : State) (x y : Int) (c : Byte) (r : FaultReason)
    (hg : glyphIndex s.font c = .error r) : exec (.drawChar x y c) s = .next (markFault r s) := by
  rw [exec_drawChar, drawGlyph_missing s.font x y c r s hg, finish_fault]

/-! ### The same drawing again -/

/-- Two states whose pixels of the panel agree have the same bytes in the framebuffer (R43). -/
theorem fbByte_eq_of_pixels {t u : State} (hcfg : u.cfg = t.cfg) (a : Nat) (ha : a < fbSize t.cfg)
    (h : ∀ x y, onPanel t.cfg x y = true → pixelGet u x y = pixelGet t x y) : fbByte u a = fbByte t a := by
  refine BitVec.eq_of_getLsbD_eq fun k hk => ?_
  obtain ⟨hpanel, haddr⟩ := fbAddr_pixel t.cfg a k ha hk
  have hbit : (((8 * (a / t.cfg.w) + k : Nat) : Int) % 8).toNat = k := by omega
  have hpixel := h _ _ hpanel
  rwa [pixelGet, pixelGet, hcfg, haddr, hbit] at hpixel

/-- Drawing the same pixels to the same value again changes no byte (R51). -/
theorem fbByte_eq_of_drawn_twice {S : Int → Int → Prop} {on : Bool} {s t u : State} (hc : admitted s.cfg = true)
    (hcfg : t.cfg = s.cfg) (hcfg' : u.cfg = t.cfg) (h : Drawn S on s t) (h' : Drawn S on t u) (a : Nat) :
    fbByte u a = fbByte t a := by
  obtain ⟨hpixels, -⟩ := h
  obtain ⟨hpixels', hbytes'⟩ := h'
  by_cases hpixel : ∃ x y, onPanel t.cfg x y = true ∧ S x y ∧ (fbAddr t.cfg x y).toNat = a
  · obtain ⟨x, y, hp, -, rfl⟩ := hpixel
    have haddr := fbAddr_in t.cfg (hcfg ▸ hc) x y hp
    refine fbByte_eq_of_pixels hcfg' _ (by omega) fun px py hp' => ?_
    obtain ⟨honce, -⟩ := hpixels px py (hcfg ▸ hp')
    obtain ⟨htwice, hkept⟩ := hpixels' px py hp'
    by_cases hS : S px py
    · exact (htwice hS).trans (honce hS).symm
    · exact hkept hS
  · exact hbytes' a fun x y hp hS heq => hpixel ⟨x, y, hp, hS, heq⟩

/-- What an instruction draws depends only on its operands, the parameters and the font (R51). -/
def DrawsTheSame (i : Instr) (c : Config) (f : Font) : Prop :=
  ∃ S on, ∀ s t, s.cfg = c → s.font = f → exec i s = .next t → Drawn S on s t

/-- Operations that draw one set of pixels from every state. -/
theorem drawsTheSame_of_drawn {i : Instr} {c : Config} {f : Font} (S : Int → Int → Prop) (on : Bool)
    (h : ∀ s, s.cfg = c → s.font = f → ∃ t, exec i s = .next t ∧ DrawnOk s t ∧ Drawn S on s t) :
    DrawsTheSame i c f := by
  refine ⟨S, on, fun s t hs hf hexec => ?_⟩
  obtain ⟨t', hexec', -, hdrawn⟩ := h s hs hf
  cases hexec.symm.trans hexec'
  exact hdrawn

/-- Operations that end without a write. -/
theorem drawsTheSame_of_noWrite {i : Instr} {c : Config} {f : Font}
    (h : ∀ s, s.cfg = c → s.font = f → ∃ t, exec i s = .next t ∧ t.cfg = s.cfg ∧ ∀ a, fbByte t a = fbByte s a) :
    DrawsTheSame i c f := by
  refine ⟨fun _ _ => False, true, fun s t hs hf hexec => ?_⟩
  obtain ⟨t', hexec', hcfg, hbytes⟩ := h s hs hf
  cases hexec.symm.trans hexec'
  exact drawn_nothing hcfg hbytes

theorem prepare_drawsTheSame (c : Config) (f : Font) (hc : admitted c = true) : DrawsTheSame .prepare c f := by
  refine ⟨fun _ _ => True, false, fun s t hs _ hexec => ?_⟩
  cases hexec
  exact exec_prepare_drawn s (hs ▸ hc)

theorem setPixel_drawsTheSame (x y : Int) (on : Bool) (c : Config) (f : Font) (hc : admitted c = true) :
    DrawsTheSame (.setPixel x y on) c f :=
  drawsTheSame_of_drawn _ on fun s hs _ => exec_setPixel_drawn s x y on (hs ▸ hc)

theorem drawLine_drawsTheSame (x0 y0 x1 y1 : Int) (on : Bool) (c : Config) (f : Font) (hc : admitted c = true) :
    DrawsTheSame (.drawLine x0 y0 x1 y1 on) c f := by
  by_cases hok : lineOK c ⟨x0, y0, x1, y1⟩ = true
  · refine drawsTheSame_of_drawn (inLine c ⟨x0, y0, x1, y1⟩) on ?_
    rintro s rfl -
    exact exec_drawLine_drawn s x0 y0 x1 y1 on hc hok
  · refine drawsTheSame_of_noWrite ?_
    rintro s rfl -
    exact ⟨_, exec_drawLine_rejected s x0 y0 x1 y1 on hok, rfl, fun _ => rfl⟩

theorem drawRect_drawsTheSame (x y w h : Int) (on : Bool) (c : Config) (f : Font) (hc : admitted c = true) :
    DrawsTheSame (.drawRect x y w h on) c f := by
  by_cases hok : rectOK c x y w h = true
  · refine drawsTheSame_of_drawn (onOutline (c.w : Int) (c.h : Int) x y w h) on ?_
    rintro s rfl -
    exact exec_drawRect_drawn s x y w h on hc hok
  · refine drawsTheSame_of_noWrite ?_
    rintro s rfl -
    exact ⟨_, exec_drawRect_rejected s x y w h on hok, rfl, fun _ => rfl⟩

theorem drawChar_drawsTheSame (x y : Int) (ch : Byte) (c : Config) (f : Font) (hc : admitted c = true) :
    DrawsTheSame (.drawChar x y ch) c f := by
  cases hg : glyphIndex f ch with
  | ok g =>
    refine drawsTheSame_of_drawn (inGlyph f g x y) true ?_
    rintro s rfl rfl
    exact exec_drawChar_drawn s x y ch g hc hg
  | error r =>
    refine drawsTheSame_of_noWrite ?_
    rintro s - rfl
    exact ⟨_, exec_drawChar_missing s x y ch r hg, rfl, fun _ => rfl⟩

theorem drawing_cfg {i : Instr} {s t : State} (hi : isDrawing i = true) (h : exec i s = .next t) : t.cfg = s.cfg := by
  rw [(drawing_frame i s t hi h).1]

/-- A drawing that keeps the font and draws the same again leaves the framebuffer of done once (R51). -/
theorem fbByte_eq_of_drawsTheSame {i : Instr} {s t u : State} (hc : admitted s.cfg = true) (hi : isDrawing i = true)
    (hfont : ∀ f, i ≠ .setFont f) (h : DrawsTheSame i s.cfg s.font) (ht : exec i s = .next t)
    (hu : exec i t = .next u) (a : Nat) : fbByte u a = fbByte t a := by
  obtain ⟨S, on, hdraws⟩ := h
  obtain ⟨-, hkept, -⟩ := drawing_frame i s t hi ht
  have hcfg := drawing_cfg hi ht
  exact fbByte_eq_of_drawn_twice hc hcfg (drawing_cfg hi hu) (hdraws s t rfl rfl ht)
    (hdraws t u hcfg (hkept hfont) hu) a

end Sys2Proof.Machine
end

/-! SUPPORT. The statements of the raster operations (40_raster.md), settled. -/

section
namespace Sys2Proof.Proofs

open Sys2Proof.Machine Sys2Proof.Claims

/-- Settles O19: PREPARE's loop is `clearFb`, whose bytes are those of `fbByte_clearFb`. -/
theorem prepareZeroesTheFramebuffer : Obligations.PrepareZeroesTheFramebuffer := by
  unfold Obligations.PrepareZeroesTheFramebuffer
  exact fun s => ⟨_, exec_prepare s, rfl, fbByte_clearFb s⟩

/-- Settles O20: SETPIXEL paints its pixel (`exec_setPixel_drawn`), and off the panel nothing
(`exec_setPixel_offPanel`). -/
theorem setPixelWritesOnePixel : Obligations.SetPixelWritesOnePixel := by
  unfold Obligations.SetPixelWritesOnePixel
  intro s x y on hc
  obtain ⟨t, hexec, hok, hdrawn⟩ := exec_setPixel_drawn s x y on hc
  refine ⟨⟨rfl, rfl⟩, t, hexec, hok, hdrawn, fun hoff => ?_⟩
  rw [← onPanel_iff] at hoff
  cases hexec.symm.trans (exec_setPixel_offPanel s x y on hoff)
  rfl

/-- Settles O21: DRAWLINE's check is the condition (`lineOK_iff`); a line that passes it is filled
(`exec_drawLine_drawn`), and any other rejected (`exec_drawLine_rejected`). -/
theorem drawLineFillsARectangle : Obligations.DrawLineFillsARectangle := by
  unfold Obligations.DrawLineFillsARectangle
  intro s x0 y0 x1 y1 on hc
  have hiff := lineOK_iff s.cfg ⟨x0, y0, x1, y1⟩
  exact ⟨⟨rfl, rfl⟩, fun hin => exec_drawLine_drawn s x0 y0 x1 y1 on hc (hiff.mpr hin),
    fun hout => exec_drawLine_rejected s x0 y0 x1 y1 on (hout ∘ hiff.mp)⟩

/-- Settles O22: DRAWRECT's checks are R107's closed form (`rectOK_iff`); a rectangle that passes them has its outline
drawn (`exec_drawRect_drawn`), and any other is rejected (`exec_drawRect_rejected`). -/
theorem drawRectDrawsItsOutline : Obligations.DrawRectDrawsItsOutline := by
  unfold Obligations.DrawRectDrawsItsOutline
  intro s x y w h on hc
  have hiff := rectOK_iff s.cfg x y w h
  exact ⟨⟨rfl, rfl⟩, fun hin => exec_drawRect_drawn s x y w h on hc (hiff.mpr hin),
    fun hout => exec_drawRect_rejected s x y w h on (hout ∘ hiff.mp)⟩

/-- Settles O23: each of the five draws the same pixels whatever the framebuffer holds (`DrawsTheSame`), so that the
second time changes no byte (`fbByte_eq_of_drawsTheSame`). -/
theorem drawingIsIdempotent : Obligations.DrawingIsIdempotent := by
  unfold Obligations.DrawingIsIdempotent
  intro s t u i hc hi
  rcases hi with rfl | ⟨x, y, on, rfl⟩ | ⟨x0, y0, x1, y1, on, rfl⟩ | ⟨x, y, w, h, on, rfl⟩ | ⟨x, y, c, rfl⟩
  · exact fbByte_eq_of_drawsTheSame hc rfl nofun (prepare_drawsTheSame _ _ hc)
  · exact fbByte_eq_of_drawsTheSame hc rfl nofun (setPixel_drawsTheSame x y on _ _ hc)
  · exact fbByte_eq_of_drawsTheSame hc rfl nofun (drawLine_drawsTheSame x0 y0 x1 y1 on _ _ hc)
  · exact fbByte_eq_of_drawsTheSame hc rfl nofun (drawRect_drawsTheSame x y w h on _ _ hc)
  · exact fbByte_eq_of_drawsTheSame hc rfl nofun (drawChar_drawsTheSame x y c _ _ hc)

end Sys2Proof.Proofs
end

/-! SUPPORT. The text operations (41_text.md): SETFONT's three outcomes, the glyph of a code, and DRAWTEXT as a loop
over the places its layout gives, drawn up to the first character without a glyph. -/

section
namespace Sys2Proof.Machine

open Sys2Proof.Claims

/-! ### Fonts and the glyph of a code -/

theorem fontOK_iff (f : Font) : fontOK f = true ↔
    1 ≤ f.width ∧ f.width ≤ 32 ∧ 1 ≤ f.height ∧ f.table.length % f.height.toNat = 0 := by
  simp only [fontOK, Bool.and_eq_true, decide_eq_true_eq, and_assoc]

theorem exec_setFont_none (s : State) :
    exec (.setFont none) s = .next (setStatus .configurationError (.opcode 0x05#8) s) := rfl

theorem exec_setFont_some (f : Font) (s : State) : exec (.setFont (some f)) s
    = .next (if fontOK f then setStatus .ok .nothing { s with font := f } else refuse .illFormedFont s) := rfl

theorem setFont_encodedAs (font : Option Font) :
    encodedAs (.setFont font) 0x05#8 (Laws.EncodedLength.bytes (.setFont font)) :=
  ⟨rfl, (Laws.EncodedLength.setFont font).1⟩

/-- The code has a glyph of its own in the font (R122). -/
def HasOwnGlyph (f : Font) (c : Byte) : Prop := 32 ≤ c.toNat ∧ c.toNat - 32 < glyphCount f

theorem hasOwnGlyph_iff (f : Font) (c : Byte) :
    HasOwnGlyph f c ↔ 0 ≤ (c.toNat : Int) - 32 ∧ (c.toNat : Int) - 32 < (glyphCount f : Int) := by
  unfold HasOwnGlyph
  omega

theorem glyphIndex_own (f : Font) (c : Byte) (h : HasOwnGlyph f c) : glyphIndex f c = .ok (c.toNat - 32) := by
  have hindex : ((c.toNat : Int) - 32).toNat = c.toNat - 32 := by omega
  simp only [glyphIndex, if_pos ((hasOwnGlyph_iff f c).mp h), hindex]

theorem glyphIndex_other (f : Font) (c : Byte) (h : ¬ HasOwnGlyph f c) :
    glyphIndex f c = if 31 < glyphCount f then .ok 31 else .error .missingFallbackGlyph := by
  simp only [glyphIndex, if_neg (h ∘ (hasOwnGlyph_iff f c).mpr)]

/-! ### One glyph -/

/-- The pixels a drawn glyph sets, found from the pixel (R123, R124). -/
theorem inGlyph_iff_glyphPixel (f : Font) (g : Nat) (x y px py : Int) :
    inGlyph f g x y px py ↔ glyphPixel f g x y px py := by
  unfold inGlyph glyphPixel
  constructor
  · rintro ⟨r, col, hr, hcol, hbit, rfl, rfl⟩
    have hcolumn : (x + (col : Int) - x).toNat = col := by omega
    have hrow : (y + (r : Int) - y).toNat = r := by omega
    rw [hcolumn, hrow]
    exact ⟨by omega, by omega, by omega, by omega, hbit⟩
  · rintro ⟨hx0, hxw, hy0, hyh, hbit⟩
    exact ⟨(py - y).toNat, (px - x).toNat, by omega, by omega, hbit, by omega, by omega⟩

theorem drawGlyph_cfg {f : Font} {x y : Int} {c : Byte} {s t : State} (h : drawGlyph f x y c s = .go t) :
    t.cfg = s.cfg := by
  have hfb := drawGlyph_onlyFb f x y c s
  rw [h] at hfb
  simpa only [Flow.state] using congrArg State.cfg hfb

/-! ### DRAWTEXT -/

/-- The glyphs at their places, drawn one after another. -/
def drawPlaces (f : Font) : List (Int × Int × Byte) → State → Flow := forEach fun p => drawGlyph f p.1 p.2.1 p.2.2

/-- The pixels of the glyph of a placed character (R122, R123). -/
def inPlace (f : Font) (p : Int × Int × Byte) (px py : Int) : Prop :=
  ∃ g, glyphIndex f p.2.2 = .ok g ∧ glyphPixel f g p.1 p.2.1 px py

/-- Where the layout puts a printed character (R126), by the position `wrapAt` gives it. -/
theorem glyphPlaces_glyph (f : Font) (cfg : Config) (x : Int) (c : Byte) (cs : List Byte) (cx cy : Int)
    (hcr : c ≠ 13#8) (hlf : c ≠ 10#8) :
    glyphPlaces f (cfg.w : Int) (cfg.h : Int) x (c :: cs) cx cy
      = if (wrapAt cfg f x cx cy).2 + f.height > (cfg.h : Int) then []
        else ((wrapAt cfg f x cx cy).1, (wrapAt cfg f x cx cy).2, c)
          :: glyphPlaces f (cfg.w : Int) (cfg.h : Int) x cs ((wrapAt cfg f x cx cy).1 + f.width + 1)
            (wrapAt cfg f x cx cy).2 := by
  rw [glyphPlaces, if_neg hcr, if_neg hlf, wrapAt]
  split <;> rfl

/-- DRAWTEXT's loop draws the glyphs of its layout in order (R126). -/
theorem textLoop_eq_drawPlaces (f : Font) (x : Int) (cfg : Config) (text : List Byte) (cx cy : Int) (s : State)
    (hs : s.cfg = cfg) :
    textLoop f x text cx cy s = drawPlaces f (glyphPlaces f (cfg.w : Int) (cfg.h : Int) x text cx cy) s := by
  induction text generalizing cx cy s with
  | nil => rfl
  | cons c cs ih =>
    by_cases hcr : c = 13#8
    · rw [textLoop, if_pos hcr, glyphPlaces, if_pos hcr, ih cx cy s hs]
    by_cases hlf : c = 10#8
    · rw [textLoop, if_neg hcr, if_pos hlf, glyphPlaces, if_neg hcr, if_pos hlf, ih _ _ s hs]
    rw [textLoop, if_neg hcr, if_neg hlf, glyphPlaces_glyph f cfg x c cs cx cy hcr hlf, hs]
    dsimp only
    split
    next => rfl
    next =>
      rw [drawPlaces, forEach]
      split
      next r t ht => rw [ht]
      next t ht =>
        rw [ht]
        exact ih _ _ t ((drawGlyph_cfg ht).trans hs)

theorem forEach_append {α : Type} {f : α → State → Flow} {l : List α} {s t : State} (h : forEach f l s = .go t)
    (m : List α) : forEach f (l ++ m) s = forEach f m t := by
  induction l generalizing s with
  | nil =>
    cases h
    rfl
  | cons a l ih =>
    rw [forEach] at h
    rw [List.cons_append, forEach]
    split at h
    next => exact ih h
    next => cases h

/-- Placed characters that all have a glyph are painted. -/
theorem drawPlaces_paints (f : Font) (places : List (Int × Int × Byte)) (s : State) (hc : admitted s.cfg = true)
    (hglyphs : ∀ p ∈ places, ∃ g, glyphIndex f p.2.2 = .ok g) :
    ∃ t, drawPlaces f places s = .go t ∧ Paints (fun px py => ∃ p ∈ places, inPlace f p px py) true s t := by
  refine forEach_paints _ (inPlace f) true s.cfg places s rfl fun p hp t ht => ?_
  obtain ⟨g, hg⟩ := hglyphs p hp
  obtain ⟨u, hu, hpaints⟩ := drawGlyph_paints f p.1 p.2.1 p.2.2 g t (ht ▸ hc) hg
  refine ⟨u, hu, hpaints.congr fun px py _ => ?_⟩
  simp only [inPlace, hg, Except.ok.injEq, exists_eq_left', inGlyph_iff_glyphPixel]

/-- The first placed character without a glyph ends the drawing, with the glyphs before it drawn (R175). -/
theorem drawPlaces_fault {f : Font} {ps : List (Int × Int × Byte)} {p : Int × Int × Byte} {s t : State}
    {r : FaultReason} (h : drawPlaces f ps s = .go t) (hp : glyphIndex f p.2.2 = .error r)
    (qs : List (Int × Int × Byte)) : drawPlaces f (ps ++ p :: qs) s = .fault r t := by
  rw [drawPlaces, forEach_append h, forEach, drawGlyph_missing f p.1 p.2.1 p.2.2 r t hp]

theorem exec_drawText (s : State) (x y : Int) (text : List Byte) : exec (.drawText x y text) s
    = .next (finish (drawPlaces s.font (glyphPlaces s.font (s.cfg.w : Int) (s.cfg.h : Int) x text x y) s)) := by
  rw [← textLoop_eq_drawPlaces s.font x s.cfg text x y s rfl]
  rfl

/-! ### The first model fault -/

theorem markFault_first (r : FaultReason) (s : State) (hs : s.faults = []) :
    markFault r s = { s with faults := [r] } := by
  simp [markFault, hs]

/-- An operation that has painted and then faults keeps what it painted, and writes no STATUS (R175). -/
theorem Paints.faulted {S : Int → Int → Prop} {on : Bool} {s t : State} (h : Paints S on s t) (r : FaultReason)
    (hs : s.faults = []) :
    finish (.fault r t) = { s with fb := (finish (.fault r t)).fb, faults := [r] }
      ∧ Drawn S on s (finish (.fault r t)) := by
  refine ⟨?_, fun x y hp => ⟨h.inside x y hp, h.outside x y hp⟩, h.bytes⟩
  rw [finish_fault, markFault_first r t (h.faults_eq.trans hs)]
  exact congrArg (fun u : State => { u with faults := [r] }) h.frame

end Sys2Proof.Machine
end

/-! SUPPORT. The statements of the text operations (41_text.md), settled. -/

section
namespace Sys2Proof.Proofs

open Sys2Proof.Machine Sys2Proof.Claims

/-- Settles O27: the glyph is painted (`exec_drawChar_drawn`), and the pixels it sets are those of the statement
(`inGlyph_iff_glyphPixel`). -/
theorem drawCharTurnsGlyphPixelsOn : Obligations.DrawCharTurnsGlyphPixelsOn := by
  unfold Obligations.DrawCharTurnsGlyphPixelsOn
  intro s x y c g hc _ hg
  have hpixels : inGlyph s.font g x y = glyphPixel s.font g x y :=
    funext₂ fun px py => propext (inGlyph_iff_glyphPixel s.font g x y px py)
  exact hpixels ▸ exec_drawChar_drawn s x y c g hc hg

/-- Settles O29: DRAWTEXT draws the places of its layout (`exec_drawText`), which paints the pixels of their glyphs
(`drawPlaces_paints`). -/
theorem drawTextDrawsItsGlyphs : Obligations.DrawTextDrawsItsGlyphs := by
  unfold Obligations.DrawTextDrawsItsGlyphs
  intro s x y text hc _ hglyphs
  obtain ⟨t, ht, hpaints⟩ := drawPlaces_paints s.font _ s hc hglyphs
  exact ⟨finish (.go t), by rw [exec_drawText, ht], hpaints.drawnOk⟩

/-- Settles O30: the places before the missing glyph are painted (`drawPlaces_paints`), the drawing ends there
(`drawPlaces_fault`), and the fault keeps what was painted (`Paints.faulted`). -/
theorem textFaultKeepsEarlierGlyphs : Obligations.TextFaultKeepsEarlierGlyphs := by
  unfold Obligations.TextFaultKeepsEarlierGlyphs
  intro s x y text ps p qs hc _ hfaults hplaces hglyphs hmissing
  obtain ⟨t, ht, hpaints⟩ := drawPlaces_paints s.font ps s hc hglyphs
  refine ⟨finish (.fault .missingFallbackGlyph t), ?_, hpaints.faulted _ hfaults⟩
  rw [exec_drawText, hplaces, drawPlaces_fault ht hmissing]

/-- Settles O25: SETFONT's check is the condition (`fontOK_iff`), and decides between installing and refusing
(`exec_setFont_some`). -/
theorem setFontInstallsAdmittedFonts : Obligations.SetFontInstallsAdmittedFonts := by
  unfold Obligations.SetFontInstallsAdmittedFonts
  refine fun s => ⟨fun f hf => ?_, exec_setFont_none s, fun f hf => ?_, setFont_encodedAs none,
    fun f => setFont_encodedAs (some f)⟩
  · rw [exec_setFont_some, if_pos ((fontOK_iff f).mpr hf)]
    rfl
  · rw [exec_setFont_some, if_neg (hf ∘ (fontOK_iff f).mp)]
    rfl

/-- Settles O26: a code has its own glyph (`glyphIndex_own`), or depends on the font's having the question mark's
(`glyphIndex_other`). -/
theorem glyphIndexSubstitutes : Obligations.GlyphIndexSubstitutes := by
  unfold Obligations.GlyphIndexSubstitutes
  intro f c
  refine ⟨glyphIndex_own f c, fun hother hmark => ?_, fun hother hnomark => ?_⟩
  · exact (glyphIndex_other f c hother).trans (if_pos hmark)
  · exact (glyphIndex_other f c hother).trans (if_neg hnomark)

/-- Settles O28: the code has no glyph and the font no question mark (`glyphIndex_other`), so that DRAWCHAR only marks
the fault (`exec_drawChar_missing`), at which the next step stops (`step_faulted`). -/
theorem missingGlyphFaults : Obligations.MissingGlyphFaults := by
  unfold Obligations.MissingGlyphFaults
  intro s x y c hfaults hfew hnone
  have hother : ¬ HasOwnGlyph s.font c := by
    rintro ⟨h32, hlt⟩
    exact hnone.elim (Nat.not_lt.mpr h32) (Nat.not_le.mpr hlt)
  have hmissing : glyphIndex s.font c = .error .missingFallbackGlyph :=
    (glyphIndex_other s.font c hother).trans (if_neg (Nat.not_lt.mpr hfew))
  refine ⟨?_, step_faulted _ _ [] rfl⟩
  rw [exec_drawChar_missing s x y c _ hmissing, markFault_first _ s hfaults]

end Sys2Proof.Proofs
end

/-! SUPPORT. A transmitting operation whose transfers are all answered Ok (42_protocol.md): the exact state it ends in,
said once for the five of them, and the bursts of WRITE as the framebuffer in pieces. -/

section
namespace Sys2Proof.Machine

open Sys2Proof.Claims

/-! ### What a completed operation has assigned -/

/-- FSM once an operation has completed: INITIALIZE has made it Active (R141, R144). -/
def opFsmDone (o : TxOp) (s : State) : Fsm :=
  match o with
  | .initialise => .active
  | .write => s.fsm
  | .clearScreen => s.fsm
  | .startScroll _ => s.fsm
  | .stopScroll => s.fsm

/-- SCROLL once an operation has completed: STARTSCROLL and STOPSCROLL have set it (R149, R150, R151). -/
def opScrollDone (o : TxOp) (s : State) : Scroll :=
  match o with
  | .startScroll left => if left then .scrollingLeft else .scrollingRight
  | .stopScroll => .off
  | .initialise => s.scroll
  | .write => s.scroll
  | .clearScreen => s.scroll

theorem queueAfter_fsm (op : Option TxOp) (q : List TxItem) (f : Fsm) (h : ∀ it ∈ q, ∀ g, fsmOf g it = g) :
    (queueAfter op q).foldl fsmOf f = f := by
  refine foldl_fsm_id _ f fun x hx => ?_
  obtain ⟨it, hit, hx'⟩ := List.mem_flatMap.mp hx
  exact itemAfter_fsm op it (h it hit) x hx'

/-- Only INITIALIZE moves FSM, with the last of its items. -/
theorem opItems_fsm_done (o : TxOp) (s : State) :
    (queueAfter (some o) (opItems o s)).foldl fsmOf (opFsm o s) = opFsmDone o s := by
  cases o with
  | initialise => rfl
  | write | clearScreen | startScroll | stopScroll => exact queueAfter_fsm _ _ _ (opItems_fsm _ s nofun)

/-- Only the two scroll operations move SCROLL, STARTSCROLL after its deactivate with its activate. -/
theorem opItems_scroll_done (o : TxOp) (s : State) :
    (queueAfter (some o) (opItems o s)).foldl scrollOf s.scroll = opScrollDone o s := by
  have hkept (ho : writesScroll (opInstr o) = false) :
      (queueAfter (some o) (opItems o s)).foldl scrollOf s.scroll = s.scroll := by
    refine foldl_scroll_id _ _ fun x hx => ?_
    obtain ⟨it, hit, hx'⟩ := List.mem_flatMap.mp hx
    exact opItems_scroll o s ho it hit _ x hx'
  cases o with
  | initialise | write | clearScreen => exact hkept rfl
  | startScroll left => cases left <;> rfl
  | stopScroll => rfl

/-! ### The state a completed operation ends in -/

theorem cut_ne_nil (split : CmdSplit) (b : Byte) (c : List Byte) (cmds : List (List Byte)) :
    cut split ((b :: c) :: cmds) ≠ [] := by
  cases split <;> exact List.cons_ne_nil _ _

/-- Every operation opens with a command. -/
theorem opFrames_ne_nil (o : TxOp) (s : State) : opFrames o s ≠ [] := by
  cases o with
  | initialise | startScroll => exact cut_ne_nil _ _ _ _
  | write | clearScreen => exact List.append_ne_nil_of_left_ne_nil (cut_ne_nil _ _ _ _) _
  | stopScroll => exact List.cons_ne_nil _ _

/-- The state in which an operation ends whose transfers are all answered Ok (R144, R146, R148, R150, R151). -/
theorem exec_opInstr_done (o : TxOp) (s : State) (as : List Answer)
    (ha : s.answers = List.replicate (opFrames o s).length .ok ++ as) :
    exec (opInstr o) s = .next { s with
      fb := opFb o s, fsm := opFsmDone o s, scroll := opScrollDone o s,
      tlog := s.tlog ++ logOk s.cfg (opFrames o s), answers := as, seq := 0, busy := false, op := none, txq := [],
      status := .ok, statusInfo := .nothing, statusValid := true } := by
  have hsome : (queueFrames s.cfg (opItems o s)).isEmpty = false :=
    List.isEmpty_eq_false_iff.mpr fun hnone => opFrames_ne_nil o s (by rw [← opItems_frames, hnone, List.map_nil])
  have hlog : (queueFrames s.cfg (opItems o s)).map (fun f => entry s.cfg (transferBytes f) .ok)
      = logOk s.cfg (opFrames o s) := by
    rw [← opItems_frames, logOk, List.map_map]
    rfl
  rw [← opItems_frames, List.length_map] at ha
  rw [exec_opInstr, runQueue_ok (opItems o s) (opStart o s) as ha, ← opItems_fsm_done, ← opItems_scroll_done, ← hlog]
  simp [opStart, beginOp, sentOk, completeOp, setStatus, hsome]

/-! ### The framebuffer in bursts (R142) -/

theorem payload_length (s : State) (b : Nat) : (payload s b).length = min 16 (fbSize s.cfg - 16 * b) := by
  simp [payload]

/-- The first `n` bursts are the first `16 n` bytes, or all there are. -/
theorem payloads_flatten (s : State) (n : Nat) :
    (List.range n).flatMap (payload s) = (List.range (min (16 * n) (fbSize s.cfg))).map (fbByte s) := by
  induction n with
  | zero => simp
  | succ n ih =>
    rw [List.range_succ, List.flatMap_append, ih, List.flatMap_singleton, payload]
    by_cases hn : 16 * n ≤ fbSize s.cfg
    · have hsplit : min (16 * (n + 1)) (fbSize s.cfg) = 16 * n + min 16 (fbSize s.cfg - 16 * n) := by omega
      rw [hsplit, Nat.min_eq_left hn, List.range_add, List.map_append, List.map_map]
      rfl
    · have hnone : fbSize s.cfg - 16 * n = 0 := by omega
      have hall : min (16 * (n + 1)) (fbSize s.cfg) = min (16 * n) (fbSize s.cfg) := by omega
      simp [hnone, hall]

/-- The bursts joined are the framebuffer. -/
theorem burstFrames_flatMap_tail (s : State) :
    (burstFrames s).flatMap List.tail = (List.range (fbSize s.cfg)).map (fbByte s) := by
  have hall : min (16 * ((fbSize s.cfg + 15) / 16)) (fbSize s.cfg) = fbSize s.cfg := by omega
  rw [burstFrames, List.flatMap_map]
  exact (payloads_flatten s _).trans (by rw [hall])

theorem burstFrames_getElem? (s : State) (b : Nat) (d : List Byte) (h : (burstFrames s)[b]? = some d) :
    b < (fbSize s.cfg + 15) / 16 ∧ d = 0x40#8 :: payload s b := by
  obtain ⟨hb, rfl⟩ := List.getElem?_eq_some_iff.mp h
  exact ⟨by simpa [burstFrames] using hb, by simp [burstFrames]⟩

end Sys2Proof.Machine
end

/-! SUPPORT. The statements of the protocol (42_protocol.md), settled. -/

section
namespace Sys2Proof.Proofs

open Sys2Proof.Machine Sys2Proof.Claims

/-- Settles O33: a completed operation's state (`exec_opInstr_done`), for INITIALIZE. -/
theorem initializeSendsItsSequence : Obligations.InitializeSendsItsSequence := by
  unfold Obligations.InitializeSendsItsSequence
  exact exec_opInstr_done .initialise

/-- Settles O34: a completed operation's state (`exec_opInstr_done`), for WRITE. -/
theorem writeStreamsTheFramebuffer : Obligations.WriteStreamsTheFramebuffer := by
  unfold Obligations.WriteStreamsTheFramebuffer
  exact exec_opInstr_done .write

/-- Settles O35: a completed operation's state (`exec_opInstr_done`), for CLEARSCREEN, and the bytes it cleared
(`fbByte_clearFb`). -/
theorem clearScreenClearsAndTransmits : Obligations.ClearScreenClearsAndTransmits := by
  unfold Obligations.ClearScreenClearsAndTransmits
  exact fun s as ha => ⟨exec_opInstr_done .clearScreen s as ha, fun a hlt => (fbByte_clearFb s a).trans (if_pos hlt)⟩

/-- Settles O36: a completed operation's state (`exec_opInstr_done`), for STARTSCROLL. -/
theorem startScrollStartsScrolling : Obligations.StartScrollStartsScrolling := by
  unfold Obligations.StartScrollStartsScrolling
  exact fun s left => exec_opInstr_done (.startScroll left) s

/-- Settles O37: a completed operation's state (`exec_opInstr_done`), for STOPSCROLL and its one transfer. -/
theorem stopScrollStopsScrolling : Obligations.StopScrollStopsScrolling := by
  unfold Obligations.StopScrollStopsScrolling
  exact exec_opInstr_done .stopScroll

/-- Settles O40: WRITE hands over its transfers (`exec_opInstr_ok`), of which the data transfers are the bursts
(`dataOf_writeFrames`); joined they are the framebuffer (`burstFrames_flatMap_tail`), and each has the length of its
payload (`payload_length`). -/
theorem payloadsAreTheFramebuffer : Obligations.PayloadsAreTheFramebuffer := by
  unfold Obligations.PayloadsAreTheFramebuffer
  intro s as ha
  obtain ⟨t, hexec, -, hlog⟩ := exec_opInstr_ok .write s as ha
  have hdata : dataSent s t = burstFrames s := by
    rw [dataSent_eq, sent_of_logOk hlog]
    exact dataOf_writeFrames s
  refine ⟨t, hexec, ?_⟩
  rw [hdata]
  refine ⟨by simp [burstFrames], burstFrames_flatMap_tail s, fun b d hd => ?_⟩
  obtain ⟨hb, rfl⟩ := burstFrames_getElem? s b d hd
  have hlen := payload_length s b
  refine ⟨rfl, fun hinner => ?_, fun hlast => ?_⟩ <;> rw [List.tail_cons] <;> omega

end Sys2Proof.Proofs
end

/-! SUPPORT. How an operation ends (60_exceptions.md): a transmitting operation at its first transport error, and where
the status of each host operation comes from (R170). -/

section
namespace Sys2Proof.Machine

open Sys2Proof.Claims

/-! ### The first transport error -/

/-- The first error ends an operation at its transfer `j` (R177). -/
theorem exec_opInstr_err (o : TxOp) (s : State) (j : Nat) (k : Kind) (as : List Answer) (frame : List Byte)
    (hframe : (opFrames o s)[j]? = some frame) (ha : s.answers = List.replicate j .ok ++ .err k :: as) :
    exec (opInstr o) s = .next { s with
      fb := opFb o s, fsm := opFsm o s, scroll := opScroll o j s,
      tlog := s.tlog ++ (logOk s.cfg ((opFrames o s).take j) ++ [⟨s.cfg.busId, s.cfg.addr, frame, .err k⟩]),
      answers := as, seq := 0, busy := false, op := none, txq := [],
      fault := (match s.fault with
        | none => some ⟨opByte o, j, k⟩
        | some f => some f),
      status := .transportError, statusInfo := .transport (opByte o) j k, statusValid := true } := by
  obtain ⟨f, hf, rfl⟩ := opItems_frame_at o s j frame hframe
  have hj := (List.getElem?_eq_some_iff.mp hf).1
  have hfsm : (doneBefore (opStart o s).cfg (opStart o s).op (opItems o s) j).foldl fsmOf (opStart o s).fsm
      = opFsm o s := opItems_fsm_before o s (some o) j (opFsm o s) hj
  have hcode : opCode (opStart o s) = opByte o := opCode_of_op _ o rfl
  have hindex : (opStart o s).seq + j = j := Nat.zero_add j
  rw [exec_opInstr, runQueue_err (opItems o s) (opStart o s) j k as f hf ha, errAt, hcode, hindex, hfsm, ← logOk_take,
    ← opItems_scroll_before o s j hj]
  exact congrArg Host.Outcome.next (raise_transportError_eq (opByte o) j k _)

/-! ### Where a status comes from -/

/-- STATUS holds this code, with this information recorded beside it (R28, R170). -/
structure HoldsStatus (code : Status) (info : StatusInfo) (t : State) : Prop where
  status : t.status = code
  statusInfo : t.statusInfo = info
  statusValid : t.statusValid = true

/-- No status has been written. -/
structure KeepsStatus (s t : State) : Prop where
  status : t.status = s.status
  statusInfo : t.statusInfo = s.statusInfo
  statusValid : t.statusValid = s.statusValid

/-- Every way a host operation can leave STATUS (R170, R172, R173), or end without one (R50, R175, R176). -/
inductive StatusCase (i : Instr) (s t : State) : Prop where
  | ok (wrote : HoldsStatus .ok .nothing t)
  | invalidLine (x0 y0 x1 y1 : Int) (on : Bool) (line : i = .drawLine x0 y0 x1 y1 on)
      (wrote : HoldsStatus .invalidArgument (.opcode 0x03#8) t)
  | invalidRect (x y w h : Int) (on : Bool) (rect : i = .drawRect x y w h on)
      (wrote : HoldsStatus .invalidArgument (.opcode 0x04#8) t)
  | noFont (absent : i = .setFont none) (wrote : HoldsStatus .configurationError (.opcode 0x05#8) t)
  | transportError (o : TxOp) (j : Nat) (k : Kind) (transmits : i = opInstr o)
      (wrote : HoldsStatus .transportError (.transport (opByte o) j k) t)
  | faulted (marked : t.faults ≠ []) (kept : KeepsStatus s t)
  | refused (marked : t.refused ≠ none) (kept : KeepsStatus s t)
  | waits (pending : t.busy = true) (kept : KeepsStatus s t)

theorem markFault_faults_ne_nil (r : FaultReason) (s : State) : (markFault r s).faults ≠ [] := by
  rw [markFault_faults]
  split
  next hr => exact List.ne_nil_of_mem hr
  next => exact List.concat_ne_nil _ _

/-- A drawing that changed only FB ends OK, or faulted without a status (R170, R175). -/
theorem finish_statusCase {i : Instr} {s : State} (F : Flow) (hframe : F.state = { s with fb := F.state.fb }) :
    StatusCase i s (finish F) := by
  cases F with
  | go t => exact .ok ⟨rfl, rfl, rfl⟩
  | fault r t =>
    have ht : t = { s with fb := t.fb } := hframe
    exact .faulted (markFault_faults_ne_nil r t) (ht ▸ ⟨rfl, rfl, rfl⟩)

/-- The status of a raster or text operation. -/
theorem drawing_statusCase (i : Instr) (s t : State) (hi : isDrawing i = true) (h : exec i s = .next t) :
    StatusCase i s t := by
  cases i with
  | prepare =>
    cases h
    exact .ok ⟨rfl, rfl, rfl⟩
  | setPixel x y on =>
    cases h
    exact finish_statusCase _ (clippedPut_onlyFb x y on s)
  | drawLine x0 y0 x1 y1 on =>
    rw [exec_drawLine] at h
    cases h
    split
    · exact finish_statusCase _ (lineFill_onlyFb _ on s)
    · exact .invalidLine x0 y0 x1 y1 on rfl ⟨rfl, rfl, rfl⟩
  | drawRect x y w height on =>
    rw [exec_drawRect] at h
    cases h
    split
    · exact finish_statusCase _ (forEach_onlyFb _ _ s fun e u => lineFill_onlyFb e on u)
    · exact .invalidRect x y w height on rfl ⟨rfl, rfl, rfl⟩
  | setFont font =>
    cases font with
    | none =>
      cases h
      exact .noFont rfl ⟨rfl, rfl, rfl⟩
    | some f =>
      rw [exec_setFont_some] at h
      cases h
      split
      · exact .ok ⟨rfl, rfl, rfl⟩
      · exact .refused nofun ⟨rfl, rfl, rfl⟩
  | drawChar x y c =>
    cases h
    exact finish_statusCase _ (drawGlyph_onlyFb s.font x y c s)
  | drawText x y text =>
    cases h
    exact finish_statusCase _ (textLoop_onlyFb s.font x text x y s)
  | _ => cases hi

/-- The status of a transmitting operation: its transfers are all answered Ok, or one fails, or one waits. -/
theorem exec_opInstr_statusCase (o : TxOp) (s t : State) (h : exec (opInstr o) s = .next t) :
    StatusCase (opInstr o) s t := by
  rcases answers_cases (opFrames o s).length s.answers with ⟨as, ha⟩ | ⟨j, k, as, hj, ha⟩ | ⟨j, hj, ha⟩
  · rw [exec_opInstr_done o s as ha] at h
    cases h
    exact .ok ⟨rfl, rfl, rfl⟩
  · rw [exec_opInstr_err o s j k as _ (List.getElem?_eq_getElem hj) ha] at h
    cases h
    exact .transportError o j k rfl ⟨rfl, rfl, rfl⟩
  · rw [exec_opInstr, runQueue_opItems_wait o s j _ (List.getElem?_eq_getElem hj) ha] at h
    cases h
    exact .waits rfl ⟨rfl, rfl, rfl⟩

/-- The status of any host operation (R170). -/
theorem exec_request_statusCase (i : Instr) (s t : State) (hl : laneOf i = .request) (h : exec i s = .next t) :
    StatusCase i s t := by
  rcases request_kinds i hl with hi | ⟨o, rfl⟩
  · exact drawing_statusCase i s t hi h
  · exact exec_opInstr_statusCase o s t h

end Sys2Proof.Machine
end

/-! SUPPORT. The statements of the exceptions (60_exceptions.md), settled. -/

section
namespace Sys2Proof.Proofs

open Sys2Proof.Machine Sys2Proof.Claims

/-- Settles O15: the step that refuses a concurrent call (`step_concurrent`); behind a request that ended in its own
step (`step_request`) the call is still at the head of the port, which no instruction changes (`exec_keeps_construction`). -/
theorem concurrentCallsAreRefused : Obligations.ConcurrentCallsAreRefused := by
  unfold Obligations.ConcurrentCallsAreRefused
  refine ⟨step_concurrent, fun s r r' rs i t hf ho hport halone hoverlaps hdecode hexec hft => ?_⟩
  obtain ⟨-, -, hport'⟩ := exec_keeps_construction i _ t hexec
  exact ⟨(step_request s r (r' :: rs) i hf ho hport halone hdecode).trans hexec,
    step_concurrent t r' rs hft hport' hoverlaps⟩

/-- Settles O38: the operation's queue ends at its transfer `j` (`exec_opInstr_err`). -/
theorem transportErrorEndsTheOperation : Obligations.TransportErrorEndsTheOperation := by
  unfold Obligations.TransportErrorEndsTheOperation
  exact exec_opInstr_err

/-- Settles O49: each way a host operation can leave STATUS (`exec_request_statusCase`) is a clause of the statement. -/
theorem statusesComeFromTheirOperations : Obligations.StatusesComeFromTheirOperations := by
  unfold Obligations.StatusesComeFromTheirOperations
  intro i s t hl h
  cases exec_request_statusCase i s t hl h with
  | ok wrote =>
    exact .inl ⟨wrote.statusValid, .inl ⟨wrote.status, wrote.statusInfo⟩⟩
  | invalidLine x0 y0 x1 y1 on line wrote =>
    exact .inl ⟨wrote.statusValid, .inr (.inl ⟨wrote.status, .inl ⟨wrote.statusInfo, x0, y0, x1, y1, on, line⟩⟩)⟩
  | invalidRect x y w h on rect wrote =>
    exact .inl ⟨wrote.statusValid, .inr (.inl ⟨wrote.status, .inr ⟨wrote.statusInfo, x, y, w, h, on, rect⟩⟩)⟩
  | noFont absent wrote =>
    exact .inl ⟨wrote.statusValid, .inr (.inr (.inl ⟨wrote.status, wrote.statusInfo, absent⟩))⟩
  | transportError o j k transmits wrote =>
    exact .inl ⟨wrote.statusValid, .inr (.inr (.inr ⟨wrote.status, o, j, k, transmits, wrote.statusInfo⟩))⟩
  | faulted marked kept => exact .inr ⟨kept.status, kept.statusInfo, kept.statusValid, .inl marked⟩
  | refused marked kept => exact .inr ⟨kept.status, kept.statusInfo, kept.statusValid, .inr (.inl marked)⟩
  | waits pending kept => exact .inr ⟨kept.status, kept.statusInfo, kept.statusValid, .inr (.inr pending)⟩

end Sys2Proof.Proofs
end

/-! SUPPORT. Construction over the whole parameter space (70_reset_and_hazards.md R190). -/

section
namespace Sys2Proof.Machine

/-- Inside the admitted domain construction gives the reset state. -/
theorem construct_of_admitted (c : Config) (d : Nat) (hc : admitted c = true) :
    construct c d = .next (State.fresh c d) :=
  if_pos hc

/-- Outside it construction is refused (R176). -/
theorem construct_of_not_admitted (c : Config) (d : Nat) (hc : ¬ admitted c = true) :
    construct c d = .refused .geometryOutOfDomain :=
  if_neg hc

end Sys2Proof.Machine
end

/-! SUPPORT. The statements of reset and construction (70_reset_and_hazards.md), settled. -/

section
namespace Sys2Proof.Proofs

open Sys2Proof.Machine Sys2Proof.Claims

/-- Settles O2: the check `construct` makes is exactly the domain of R190 (`admitted_iff`). -/
theorem constructionChecksTheDomain : Obligations.ConstructionChecksTheDomain := by
  unfold Obligations.ConstructionChecksTheDomain
  intro c d
  rw [← admitted_iff c]
  exact ⟨construct_of_admitted c d, construct_of_not_admitted c d⟩

end Sys2Proof.Proofs
end
